-- ==== Sys2Proof/Word.lean ====
section
/-! DEFINITION. The plain value types of the engine: bytes, the 64-bit words packets are made of
(30_encoding.md R85), and NUM, the numeric domain of every non-integer value (00_scope.md R8). -/

namespace Sys2Proof

/-- One byte of a port's byte stream (20_memory.md R74). -/
abbrev Byte := BitVec 8

/-- The unit of encoding: bit 63 most significant, bit 0 least (30_encoding.md R85). -/
abbrev Word := BitVec 64

/-- The reference NUM (00_scope.md R8): the rationals, which compute exactly; tan, exp2 and sqrt are read
as exact rationals. NUM is an OPEN parameter (R6), so every type and operation of the model takes its
carrier as an argument; this is the carrier the model is instantiated with. DESIGN CHOICE (log 1). -/
abbrev Num := Rat

end Sys2Proof
end

