-- ==== Sys2Proof/Config.lean ====
section
/-! DEFINITION. What the model takes as arguments: the numeric domain NUM and the OPEN and decided
parameters of 00_scope.md R6, each a record that every operation reading it is given, and the free value
behind STEAL_CHOICE. The values the model is instantiated with are `Sys2Proof.Machine.ratNum`,
`Sys2Proof.Machine.params` and `Sys2Proof.Machine.paramReset`. -/

namespace Sys2Proof

/-- The numeric domain NUM (00_scope.md R6, R8) on a carrier α: what it has beyond +, -, x, /, comparison
and the integers, which are α's own. -/
structure NumOps (α : Type) where
  /-- `floor` -/
  floor : α → Int
  /-- `sqrt` -/
  sqrt : α → α
  /-- `exp2` -/
  exp2 : α → α
  /-- `tan` -/
  tan : α → α
  /-- the constant pi -/
  pi : α
  /-- the element nearest to a rational, under NUM's own rounding (00_scope.md R10) -/
  ofRat : Rat → α
  /-- which elements are finite; none where all are (60_exceptions.md R266). As in IEEE 754, a sum,
  difference, product or negation of an element that is not finite, a quotient of one, and the `sqrt` and
  `tan` of one are not finite either. Nothing is asked of a quotient by one, of its `exp2` and `floor` and of
  a comparison with it: the rules check those operands first (log 19). -/
  finite : Option (α → Bool)
  /-- another evaluation of `clamp(keyToHz(k), lo, hi)`, of the same value; none where the clamp is
  evaluated as it is written (40_filter_unit.md R122; log 20) -/
  clampedHz : Option (α → α → α → α)

/-- The scalar parameters of 00_scope.md R6. N_VOICES, MAX_UNISON and N_FILTER_MODES are fixed by the
source; the capacities are unbounded; NUM is `NumOps`; PARAM_RESET is an argument of
`Machine.State.resetWith`. -/
structure Over.Params (α : Type) where
  /-- CUTOFF_HZ_MIN, the lower cutoff clamp in hertz. -/
  cutoffHzMin : α
  /-- CUTOFF_HZ_MAX, the upper cutoff clamp in hertz. -/
  cutoffHzMax : α
  /-- RES_MIN, the lower resonance clamp. -/
  resMin : α
  /-- RES_MAX, the upper resonance clamp. -/
  resMax : α
  /-- BYPASS_FADE_FRAC, the anti-click fade fraction in bypass. -/
  bypassFadeFrac : α
  /-- BEND_RANGE_SEMIS, the MIDI pitch-bend range in semitones. -/
  bendRangeSemis : α
  /-- OUT_CHANNELS, the output channel count seen by the summing stage. -/
  outChannels : Nat
  /-- INIT_PHASE(i, u), the starting phase of unison copy i of u. -/
  initPhase : Nat → Nat → α

/-- The parameters over the reference NUM. -/
abbrev Params := Over.Params Num

/-- N_VOICES (00_scope.md R6, R13). -/
abbrev nVoices : Nat := 64

/-- MAX_UNISON (00_scope.md R6, R14). -/
abbrev maxUnison : Nat := 7

/-- STEAL_CHOICE as a free value: the draw number n when the host supplied none. No law holds of it
(42_voice_pool.md R195). Log 6. -/
opaque Config.freeStealChoice : Nat → Fin nVoices

end Sys2Proof
end

