-- ==== Sys2Proof/Machine/Num.lean ====
section
/-! DEFINITION. The operations of NUM the rules are written in (00_scope.md R8, R9), for any numeric domain:
clamp, wrap, snap and key to frequency; and the reference domain, the rationals, whose tan, exp2 and sqrt
are evaluated in binary64 and read as exact rationals. Log 1 to 4. -/

namespace Sys2Proof.Machine

/-! ### The primitives of 00_scope.md R9 -/

section

variable {α : Type} [Add α] [Sub α] [Mul α] [Div α] [Neg α] [LT α] [LE α] [DecidableLT α]
  [DecidableLE α] [NatCast α] [IntCast α] [∀ n, OfNat α n]

/-- `clamp(x, lo, hi)` (00_scope.md R9). -/
def clamp (x lo hi : α) : α := if x < lo then lo else if hi < x then hi else x

/-- `wrap(x)` (00_scope.md R9). -/
def wrap (N : NumOps α) (x : α) : α := x - (N.floor x : α)

/-- `snap(x, lo, hi)`, an integer between the bounds (00_scope.md R9). -/
def snap (N : NumOps α) (x : α) (lo hi : Int) : Int :=
  let n := N.floor (x + 1 / 2)
  if n < lo then lo else if hi < n then hi else n

/-- The smaller of two NUM values (41_voice.md R154). -/
def minNum (a b : α) : α := if a ≤ b then a else b

/-- `keyToHz(k)` = 440 x exp2((k - 69) / 12) (00_scope.md R11). -/
def keyToHz (N : NumOps α) (k : α) : α := 440 * N.exp2 ((k - 69) / 12)

end

/-! ### Rounding to 53 significant bits -/

/-- The quotient n / d rounded to an integer, ties to even. -/
def roundHalfEven (n d : Nat) : Nat :=
  let q := n / d
  let r := n % d
  if d < 2 * r ∨ (2 * r = d ∧ q % 2 = 1) then q + 1 else q

/-- The quotient n / d times 2^s, as a numerator and a denominator. -/
def scalePow2 (n d : Nat) (s : Int) : Nat × Nat :=
  match s with
  | .ofNat k => (n * 2 ^ k, d)
  | .negSucc k => (n, d * 2 ^ (k + 1))

/-- m times 2^s. -/
def timesPow2 (m : Nat) (s : Int) : Num :=
  match s with
  | .ofNat k => mkRat (Int.ofNat (m * 2 ^ k)) 1
  | .negSucc k => mkRat (Int.ofNat m) (2 ^ (k + 1))

/-- The shift that brings n / d into the 53-bit range: 2^52 ≤ n / d * 2^s < 2^53. -/
def roundShift (n d : Nat) : Int :=
  let s : Int := 52 - ((Nat.log2 n : Int) - (Nat.log2 d : Int))
  let p := scalePow2 n d s
  if p.1 < 2 ^ 52 * p.2 then s + 1 else s

/-- n / d rounded to 53 significant bits, ties to even, with no limit on the exponent: what binary64
rounding gives for a normal result (log 2). -/
def roundQuot (n d : Nat) : Num :=
  if n = 0 ∨ d = 0 then 0
  else
    let s := roundShift n d
    let p := scalePow2 n d s
    timesPow2 (roundHalfEven p.1 p.2) (-s)

/-- A NUM value rounded to 53 significant bits (log 2). -/
def roundNum (x : Num) : Num :=
  if x.num < 0 then -roundQuot x.num.natAbs x.den else roundQuot x.num.natAbs x.den

/-! ### exp2, tan, sqrt, pi -/

/-- Fractional bits of the fixed-point arithmetic inside exp2 and tan. -/
def fixBits : Nat := 256

/-- ln 2 times 2^256, rounded down. -/
def ln2Fix : Nat :=
  80260960185991308862233904206310070533990667611589946606122867505419956976171

/-- The sum t + t z / j + t z^2 / (j (j + 1)) + ..., z in fixed point. -/
def expSeries (z : Nat) : Nat → Nat → Nat → Nat
  | 0, _, _ => 0
  | fuel + 1, j, t => t + expSeries z fuel (j + 1) (t * z / (2 ^ fixBits * j))

/-- 2^f times 2^52 for a fraction f in [0, 1), rounded to an integer, at most 2^53. -/
@[irreducible] def exp2Frac (f : Num) : Nat :=
  let z := f.num.toNat * ln2Fix / f.den
  let m := roundHalfEven (expSeries z 64 1 (2 ^ fixBits)) (2 ^ (fixBits - 52))
  if 2 ^ 53 < m then 2 ^ 53 else m

/-- The exponent and the significand of exp2: `exp2 x` is the second times 2^(the first - 52). -/
@[irreducible] def exp2Parts (x : Num) : Int × Nat :=
  let a := roundNum x
  let k := a.floor
  (k, exp2Frac (a - k))

/-- `exp2` (00_scope.md R8): 2^x rounded to 53 significant bits. It never underflows to 0 and never
overflows (41_voice.md R163). Log 2. -/
@[irreducible] def exp2 (x : Num) : Num :=
  let p := exp2Parts x
  timesPow2 p.2 (p.1 - 52)

/-- The alternating sum t - t y / ((2j-1+o)(2j+o)) + ..., y in fixed point: o = 0 for the cosine of
the root of y, o = 1 for its sine over the root. -/
def altSeries (y o : Nat) : Nat → Nat → Int → Int
  | 0, _, _ => 0
  | fuel + 1, j, t =>
    t + altSeries y o fuel (j + 1)
      (-(t * (y : Int) / ((2 ^ fixBits * ((2 * j + o - 1) * (2 * j + o)) : Nat) : Int)))

/-- `tan` (00_scope.md R8) for an argument between -pi/2 and pi/2, the only ones the rules give it
(40_filter_unit.md R121): sine over cosine, rounded to 53 significant bits. Log 2, log 4. -/
@[irreducible] def tan (x : Num) : Num :=
  let a := roundNum x
  let y := a.num.natAbs * a.num.natAbs * 2 ^ fixBits / (a.den * a.den)
  let sn := altSeries y 1 64 1 (2 ^ fixBits : Nat)
  let cs := altSeries y 0 64 1 (2 ^ fixBits : Nat)
  let r := roundQuot (a.num.natAbs * sn.toNat) (a.den * cs.toNat)
  if a.num < 0 then -r else r

/-- The binary digits of the integer square root of n below 2^b, added to r. -/
def isqrtFrom (n : Nat) : Nat → Nat → Nat
  | 0, r => r
  | b + 1, r => isqrtFrom n b (if (r + 2 ^ b) * (r + 2 ^ b) ≤ n then r + 2 ^ b else r)

/-- `sqrt` (00_scope.md R8) of a value of at least 0, rounded to 53 significant bits. Log 2. -/
@[irreducible] def sqrt (x : Num) : Num :=
  let s := 64 + Nat.log2 x.den
  let n := x.num.toNat * 4 ^ s / x.den
  let m := isqrtFrom n (Nat.log2 n / 2 + 1) 0
  roundQuot (2 * m + (if m * m = n ∧ x.num.toNat * 4 ^ s % x.den = 0 then 0 else 1)) (2 ^ (s + 1))

/-- The constant pi of NUM (00_scope.md R8), at its nearest binary64 value. DESIGN CHOICE (log 3). -/
def pi : Num := mkRat 884279719003555 281474976710656

/-! ### Key to frequency -/

/-- `clamp(keyToHz(key), lo, hi)` (40_filter_unit.md R122), without writing out a power of two of a
key far out of range: beyond 2^4096 and below 2^-4096 the clamp's answer is known. It equals the
clamp for positive bounds in these limits, and is the clamp itself otherwise (log 20). -/
def keyToHzClamped (key lo hi : Num) : Num :=
  let k := (exp2Parts ((key - 69) / 12)).1
  if 4096 < k ∧ lo ≤ hi ∧ hi ≤ timesPow2 1 4096 then hi
  else if k < -4096 ∧ lo ≤ hi ∧ timesPow2 1 (-4000) ≤ lo then lo
  else clamp (440 * exp2 ((key - 69) / 12)) lo hi

/-! ### The reference domain -/

/-- The reference NUM (00_scope.md R8): the rationals. Every element is finite. Log 1. -/
def ratNum : NumOps Num where
  floor := Rat.floor
  sqrt := sqrt
  exp2 := exp2
  tan := tan
  pi := pi
  ofRat := fun x => x
  finite := none
  clampedHz := some keyToHzClamped

end Sys2Proof.Machine
end

