-- ==== Sys2Proof/Syntax.lean ====
section
/-! DEFINITION. The command set as syntax: ports, fault codes, the identifier tables and `Instr`, one
constructor per row of spec/opcode_table.json (30_encoding.md R91). Operands are the packet's fields as
bits; the header's SUB and reserved fields that must be 0 have no place here, the decoder checks them. -/

namespace Sys2Proof

/-- The two command ports (30_encoding.md R101). -/
inductive Port where
  | engine
  | filter
  deriving DecidableEq, Repr

/-- The fault codes of 60_exceptions.md R261, in the table's order. -/
inductive FaultCode where
  | illegalCommand
  | notActivated
  | badSampleRate
  | nonFiniteValue
  | unstableCutoff
  | filterNotConfigured
  | arithDomain
  deriving DecidableEq, Repr

/-- The ten global parameters (10_state.md R32, 30_encoding.md R98). -/
inductive ParamId where
  | unisonCount
  | unisonSpread
  | oscDetune
  | ampAttack
  | ampRelease
  | ampEnvBypass
  | preFilterVca
  | cutoff
  | resonance
  | filterMode
  deriving DecidableEq, Repr

/-- The note expressions that act (30_encoding.md R99). -/
inductive ExprId where
  | volume
  | tuning
  deriving DecidableEq, Repr

/-- The six filter responses (30_encoding.md R100). -/
inductive FilterMode where
  | lowpass
  | bandpass
  | highpass
  | notch
  | peak
  | allpass
  deriving DecidableEq, Repr

/-- The fields of an ADDR word (30_encoding.md R88), as bits. -/
structure Addr where
  noteId : BitVec 32
  port   : BitVec 16
  chan   : BitVec 8
  key    : BitVec 8
  deriving DecidableEq, Repr

/-- The 15 commands. VALUE operands are whole words, `p`, `e` and `m` are the header's SUB. -/
inductive Instr where
  | setSampleRate (sr : Word)
  | tick
  | endBlock
  | noteOn (a : Addr)
  | noteOff (a : Addr)
  | midi (status data1 data2 : Byte) (port : BitVec 16)
  | paramSet (p : Byte) (v : Word)
  | paramWrite (p : Byte) (v : Word)
  | pushParams
  | paramMod (p : Byte) (a : Addr) (v : Word)
  | noteExpr (e : Byte) (a : Addr) (v : Word)
  | fltSetCoef (key res srInv : Word)
  | fltSetMode (m : Byte)
  | fltProcess (l r : Word)
  | fltReset
  deriving DecidableEq, Repr

end Sys2Proof
end

