-- ==== Sys2Proof/Machine/Operands.lean ====
section
/-! DEFINITION. Reading operands: the fields of the packet words (30_encoding.md R86 to R89), the
identifier tables (R98 to R100), VALUE words as NUM values (00_scope.md R10), the legality of operands
(R95 to R97, 60_exceptions.md R266), and the routing of an address to voices (44_mod_router.md R240). -/

namespace Sys2Proof

/-- The code number of a fault (60_exceptions.md R261). -/
def FaultCode.number : FaultCode → Nat
  | .illegalCommand => 1
  | .notActivated => 2
  | .badSampleRate => 3
  | .nonFiniteValue => 4
  | .unstableCutoff => 5
  | .filterNotConfigured => 6
  | .arithDomain => 7

/-- The decode checks that can fail, by name, in the order of 30_encoding.md R92. -/
inductive DecodeError where
  /-- opcode in no row of R91 (R93) -/
  | reservedOpcode
  /-- the opcode's row names the other port (R92 step 2) -/
  | otherPort
  /-- a reserved field is not 0 (R94) -/
  | reservedField
  /-- a SUB that the opcode does not allow (R95) -/
  | badSub
  /-- an ADDR word with a field out of range (R96) -/
  | illegalAddr
  /-- a NOTE_ON whose port, channel or key is negative (R97) -/
  | indefiniteAddr
  /-- a MIDI message with PORT below 0 (43_scheduler.md R230) -/
  | negativeMidiPort
  /-- a VALUE word that spells NaN or an infinity (60_exceptions.md R266) -/
  | nonFiniteValue
  deriving DecidableEq, Repr

namespace Machine

/-- The fault a failed decode check raises (30_encoding.md R92). -/
def decodeErrorCode : DecodeError → FaultCode
  | .nonFiniteValue => .nonFiniteValue
  | .reservedOpcode => .illegalCommand
  | .otherPort => .illegalCommand
  | .reservedField => .illegalCommand
  | .badSub => .illegalCommand
  | .illegalAddr => .illegalCommand
  | .indefiniteAddr => .illegalCommand
  | .negativeMidiPort => .illegalCommand

/-! ### Fields -/

/-- `w[lo + len - 1 : lo]` of a word (00_scope.md R9). -/
def field (w : Word) (lo len : Nat) : BitVec len := w.extractLsb' lo len

/-- A word with the field x at bits [lo + n - 1 : lo] and 0 elsewhere. -/
def place {n : Nat} (x : BitVec n) (lo : Nat) : Word := x.setWidth 64 <<< lo

/-- The ADDR word's fields (30_encoding.md R88). -/
def addrOfWord (w : Word) : Addr :=
  { noteId := field w 0 32, port := field w 32 16, chan := field w 48 8, key := field w 56 8 }

/-- The ADDR word with the given fields: `KEY:CHAN:PORT:NOTEID` from bit 63 down (30_encoding.md R88). -/
def wordOfAddr (a : Addr) : Word :=
  place a.key 56 ||| place a.chan 48 ||| place a.port 32 ||| place a.noteId 0

/-! ### Identifier tables -/

/-- A parameter id, where R98 lists it. -/
def paramIdOf (p : Byte) : Option ParamId :=
  match p.toNat with
  | 0 => some .unisonCount
  | 1 => some .unisonSpread
  | 2 => some .oscDetune
  | 3 => some .ampAttack
  | 4 => some .ampRelease
  | 5 => some .ampEnvBypass
  | 6 => some .preFilterVca
  | 7 => some .cutoff
  | 8 => some .resonance
  | 9 => some .filterMode
  | _ => none

/-- An expression id, where R99 lists it. -/
def exprIdOf (e : Byte) : Option ExprId :=
  match e.toNat with
  | 0 => some .volume
  | 1 => some .tuning
  | _ => none

/-- A filter mode by number, where R100 lists it. -/
def filterModeOf (m : Nat) : Option FilterMode :=
  match m with
  | 0 => some .lowpass
  | 1 => some .bandpass
  | 2 => some .highpass
  | 3 => some .notch
  | 4 => some .peak
  | 5 => some .allpass
  | _ => none

/-- A filter mode's number (30_encoding.md R100). -/
def filterModeNumber : FilterMode → Nat
  | .lowpass => 0
  | .bandpass => 1
  | .highpass => 2
  | .notch => 3
  | .peak => 4
  | .allpass => 5

/-- The mode that `snap(v, 0, 5)` names (41_voice.md R158, 30_encoding.md R100). -/
def modeOfParam {α : Type} [Add α] [Div α] [∀ n, OfNat α n] (N : NumOps α) (v : α) : FilterMode :=
  match snap N v 0 5 with
  | 1 => .bandpass
  | 2 => .highpass
  | 3 => .notch
  | 4 => .peak
  | 5 => .allpass
  | _ => .lowpass

/-! ### VALUE words -/

/-- The word spells NaN or an infinity: its exponent field is all ones (60_exceptions.md R266). -/
def nonFinite (w : Word) : Bool := field w 52 11 == 0x7FF#11

/-- The IEEE 754 binary64 value that a finite word spells (00_scope.md R10), exact in the rationals.
An exponent field of 0 spells a subnormal or a zero; -0.0 is 0. -/
def binary64 (w : Word) : Rat :=
  let e := (field w 52 11).toNat
  let f := (field w 0 52).toNat
  let m : Nat := if e = 0 then f else 2 ^ 52 + f
  let sign : Int := if w.getLsbD 63 then -1 else 1
  let ex : Nat := if e = 0 then 1 else e
  if m = 0 then 0
  else if 1075 ≤ ex then mkRat (sign * (m * 2 ^ (ex - 1075) : Nat)) 1
  else mkRat (sign * (m : Nat)) (2 ^ (1075 - ex))

/-- `toNum(w)`: the element of NUM nearest to the value the word spells (00_scope.md R10). -/
def toNum {α : Type} (N : NumOps α) (w : Word) : α := N.ofRat (binary64 w)

/-! ### Legality of operands -/

/-- An ADDR word's fields are in range: port at least -1, channel -1..15, key at least -1
(30_encoding.md R96). -/
def addrLegal (a : Addr) : Bool :=
  decide (-1 ≤ a.port.toInt) && decide (-1 ≤ a.chan.toInt) && decide (a.chan.toInt ≤ 15)
    && decide (-1 ≤ a.key.toInt)

/-- The address names one (port, channel, key) (30_encoding.md R97). -/
def addrDefinite (a : Addr) : Bool :=
  decide (0 ≤ a.port.toInt) && decide (0 ≤ a.chan.toInt) && decide (0 ≤ a.key.toInt)

/-- The check of an ADDR word (30_encoding.md R92 step 4). -/
def addrError (a : Addr) : Option DecodeError :=
  if addrLegal a then none else some .illegalAddr

/-- The check of the VALUE words in packet order (30_encoding.md R92 step 5). -/
def valueError : List Word → Option DecodeError
  | [] => none
  | w :: ws => if nonFinite w then some .nonFiniteValue else valueError ws

/-- The checks of 30_encoding.md R92 steps 4 and 5 that depend on an instruction's operands, first
failure first: SUB, then ADDR, then the VALUE words. -/
def operandError : Instr → Option DecodeError
  | .setSampleRate sr => valueError [sr]
  | .tick => none
  | .endBlock => none
  | .noteOn a =>
    (addrError a).or (if addrDefinite a then none else some .indefiniteAddr)
  | .noteOff a => addrError a
  | .midi _ _ _ port => if port.toInt < 0 then some .negativeMidiPort else none
  | .paramSet _ v => valueError [v]
  | .paramWrite _ v => valueError [v]
  | .pushParams => none
  | .paramMod _ a v => (addrError a).or (valueError [v])
  | .noteExpr _ a v => (addrError a).or (valueError [v])
  | .fltSetCoef key res srInv => valueError [key, res, srInv]
  | .fltSetMode m => if (filterModeOf m.toNat).isNone then some .badSub else none
  | .fltProcess l r => valueError [l, r]
  | .fltReset => none

end Machine

end Sys2Proof
end

