-- ==== Sys2Proof/WellFormed.lean ====
section
/-! DEFINITION. Well-formed instructions: those whose operands pass every check the decoder makes on
them (30_encoding.md R95 to R97, 60_exceptions.md R266). -/

namespace Sys2Proof

/-- Every operand of the instruction is one the encoding admits. -/
abbrev Instr.WellFormed (i : Instr) : Prop := Machine.operandError i = none

end Sys2Proof
end

