-- ==== Sys2Proof/Decode.lean ====
section
/-! DEFINITION. Decoding a port's byte stream, total on any bytes, rejecting by name, in the order of
30_encoding.md R92; after it the encoder, written from the same tables (R86 to R91), and the byte
transport (20_memory.md R74, R75). -/

namespace Sys2Proof

/-! ### Bytes and words -/

/-- The word of eight bytes, the least significant first (20_memory.md R74). -/
def wordOfBytes (b0 b1 b2 b3 b4 b5 b6 b7 : Byte) : Word :=
  Machine.place b7 56 ||| Machine.place b6 48 ||| Machine.place b5 40 ||| Machine.place b4 32
    ||| Machine.place b3 24 ||| Machine.place b2 16 ||| Machine.place b1 8 ||| Machine.place b0 0

/-- The bytes of a word, the least significant first (20_memory.md R74). -/
def bytesOfWord (w : Word) : List Byte :=
  [Machine.field w 0 8, Machine.field w 8 8, Machine.field w 16 8, Machine.field w 24 8,
    Machine.field w 32 8, Machine.field w 40 8, Machine.field w 48 8, Machine.field w 56 8]

/-- The whole words a byte stream holds; the trailing bytes wait (20_memory.md R75). -/
def wordsOfBytes : List Byte → List Word
  | b0 :: b1 :: b2 :: b3 :: b4 :: b5 :: b6 :: b7 :: rest =>
    wordOfBytes b0 b1 b2 b3 b4 b5 b6 b7 :: wordsOfBytes rest
  | _ => []

/-- A word list as bytes, in packet order (20_memory.md R74). -/
def bytesOfWords : List Word → List Byte
  | [] => []
  | w :: ws => bytesOfWord w ++ bytesOfWords ws

/-! ### The opcode map -/

/-- The rows of 30_encoding.md R91. -/
inductive Opcode where
  | setSampleRate
  | tick
  | endBlock
  | noteOn
  | noteOff
  | midi
  | paramSet
  | paramWrite
  | pushParams
  | paramMod
  | noteExpr
  | fltSetCoef
  | fltSetMode
  | fltProcess
  | fltReset
  deriving DecidableEq, Repr

/-- The row of an OPC field; none where R93 reserves it. -/
def opcodeOf (opc : Byte) : Option Opcode :=
  match opc.toNat with
  | 0x01 => some .setSampleRate
  | 0x02 => some .tick
  | 0x03 => some .endBlock
  | 0x10 => some .noteOn
  | 0x11 => some .noteOff
  | 0x12 => some .midi
  | 0x20 => some .paramSet
  | 0x21 => some .paramWrite
  | 0x22 => some .pushParams
  | 0x28 => some .paramMod
  | 0x29 => some .noteExpr
  | 0x30 => some .fltSetCoef
  | 0x31 => some .fltSetMode
  | 0x32 => some .fltProcess
  | 0x33 => some .fltReset
  | _ => none

/-- The OPC field of a row (30_encoding.md R91). -/
def opcodeByte : Opcode → Byte
  | .setSampleRate => 0x01#8
  | .tick => 0x02#8
  | .endBlock => 0x03#8
  | .noteOn => 0x10#8
  | .noteOff => 0x11#8
  | .midi => 0x12#8
  | .paramSet => 0x20#8
  | .paramWrite => 0x21#8
  | .pushParams => 0x22#8
  | .paramMod => 0x28#8
  | .noteExpr => 0x29#8
  | .fltSetCoef => 0x30#8
  | .fltSetMode => 0x31#8
  | .fltProcess => 0x32#8
  | .fltReset => 0x33#8

/-- The port of a row (30_encoding.md R91, R101). -/
def opcodePort : Opcode → Port
  | .fltSetCoef => .filter
  | .fltSetMode => .filter
  | .fltProcess => .filter
  | .fltReset => .filter
  | .setSampleRate => .engine
  | .tick => .engine
  | .endBlock => .engine
  | .noteOn => .engine
  | .noteOff => .engine
  | .midi => .engine
  | .paramSet => .engine
  | .paramWrite => .engine
  | .pushParams => .engine
  | .paramMod => .engine
  | .noteExpr => .engine

/-- How many operand words follow the header (30_encoding.md R90, R91). -/
def operandWords : Opcode → Nat
  | .setSampleRate => 1
  | .tick => 0
  | .endBlock => 0
  | .noteOn => 1
  | .noteOff => 1
  | .midi => 0
  | .paramSet => 1
  | .paramWrite => 1
  | .pushParams => 0
  | .paramMod => 2
  | .noteExpr => 2
  | .fltSetCoef => 3
  | .fltSetMode => 0
  | .fltProcess => 2
  | .fltReset => 0

/-- The row an instruction belongs to. -/
def Instr.opcode : Instr → Opcode
  | .setSampleRate _ => .setSampleRate
  | .tick => .tick
  | .endBlock => .endBlock
  | .noteOn _ => .noteOn
  | .noteOff _ => .noteOff
  | .midi _ _ _ _ => .midi
  | .paramSet _ _ => .paramSet
  | .paramWrite _ _ => .paramWrite
  | .pushParams => .pushParams
  | .paramMod _ _ _ => .paramMod
  | .noteExpr _ _ _ => .noteExpr
  | .fltSetCoef _ _ _ => .fltSetCoef
  | .fltSetMode _ => .fltSetMode
  | .fltProcess _ _ => .fltProcess
  | .fltReset => .fltReset

/-! ### Decoding -/

/-- The reserved fields of a header are 0: bits [63:16] in format HDR, bits [15:8] and [63:56] in
format MIDIHDR (30_encoding.md R94). -/
def reservedZero (o : Opcode) (h : Word) : Bool :=
  match o with
  | .midi => Machine.field h 8 8 == 0#8 && Machine.field h 56 8 == 0#8
  | _ => Machine.field h 16 48 == 0#48

/-- The rows whose SUB names something: a parameter id, an expression id or a filter mode
(30_encoding.md R91); MIDIHDR has no SUB. -/
def subFree : Opcode → Bool
  | .midi => true
  | .paramSet => true
  | .paramWrite => true
  | .paramMod => true
  | .noteExpr => true
  | .fltSetMode => true
  | .setSampleRate => false
  | .tick => false
  | .endBlock => false
  | .noteOn => false
  | .noteOff => false
  | .pushParams => false
  | .fltSetCoef => false
  | .fltProcess => false
  | .fltReset => false

/-- The instruction that a header and its operand words spell, whatever the words (30_encoding.md R86
to R89). -/
def assemble (o : Opcode) (h w1 w2 w3 : Word) : Instr :=
  let sub := Machine.field h 8 8
  match o with
  | .setSampleRate => .setSampleRate w1
  | .tick => .tick
  | .endBlock => .endBlock
  | .noteOn => .noteOn (Machine.addrOfWord w1)
  | .noteOff => .noteOff (Machine.addrOfWord w1)
  | .midi =>
    .midi (Machine.field h 16 8) (Machine.field h 24 8) (Machine.field h 32 8)
      (Machine.field h 40 16)
  | .paramSet => .paramSet sub w1
  | .paramWrite => .paramWrite sub w1
  | .pushParams => .pushParams
  | .paramMod => .paramMod sub (Machine.addrOfWord w1) w2
  | .noteExpr => .noteExpr sub (Machine.addrOfWord w1) w2
  | .fltSetCoef => .fltSetCoef w1 w2 w3
  | .fltSetMode => .fltSetMode sub
  | .fltProcess => .fltProcess w1 w2
  | .fltReset => .fltReset

/-- What a port reads from the words it holds. -/
inductive Fetched where
  /-- no header yet, or operand words still to come: the port holds (20_memory.md R75) -/
  | hold
  /-- a decode check fails: the check, the header, and how many words were read (30_encoding.md R92) -/
  | reject (e : DecodeError) (h : Word) (words : Nat)
  /-- a legal packet of that many words -/
  | packet (i : Instr) (words : Nat)
  deriving DecidableEq, Repr

/-- The checks of a whole packet: reserved fields, SUB, ADDR and VALUE words (30_encoding.md R92 steps
4 and 5). -/
def packetError (o : Opcode) (h : Word) (i : Instr) : Option DecodeError :=
  if !reservedZero o h then some .reservedField
  else if !subFree o && !(Machine.field h 8 8 == 0#8) then some .badSub
  else Machine.operandError i

/-- Decoding the packet at the head of a port's words (30_encoding.md R92). -/
def decodeWords (p : Port) : List Word → Fetched
  | [] => .hold
  | h :: ws =>
    match opcodeOf (Machine.field h 0 8) with
    | none => .reject .reservedOpcode h 1
    | some o =>
      if opcodePort o ≠ p then .reject .otherPort h 1
      else if ws.length < operandWords o then .hold
      else
        let i := assemble o h (ws.getD 0 0#64) (ws.getD 1 0#64) (ws.getD 2 0#64)
        match packetError o h i with
        | some e => .reject e h (1 + operandWords o)
        | none => .packet i (1 + operandWords o)

/-- Decoding the packet at the head of a port's bytes. -/
def decode (p : Port) (bytes : List Byte) : Fetched := decodeWords p (wordsOfBytes bytes)

/-! ### Encoding -/

/-- A header of format HDR (30_encoding.md R86). -/
def hdrWord (opc sub : Byte) : Word := Machine.place sub 8 ||| Machine.place opc 0

/-- A header of format MIDIHDR (30_encoding.md R87). -/
def midiHdrWord (status data1 data2 : Byte) (port : BitVec 16) : Word :=
  Machine.place port 40 ||| Machine.place data2 32 ||| Machine.place data1 24
    ||| Machine.place status 16 ||| Machine.place (opcodeByte .midi) 0

/-- The header word of an instruction's packet, which is also what a fault records
(60_exceptions.md R261). -/
def headerOf : Instr → Word
  | .setSampleRate _ => hdrWord (opcodeByte .setSampleRate) 0#8
  | .tick => hdrWord (opcodeByte .tick) 0#8
  | .endBlock => hdrWord (opcodeByte .endBlock) 0#8
  | .noteOn _ => hdrWord (opcodeByte .noteOn) 0#8
  | .noteOff _ => hdrWord (opcodeByte .noteOff) 0#8
  | .midi st d1 d2 port => midiHdrWord st d1 d2 port
  | .paramSet p _ => hdrWord (opcodeByte .paramSet) p
  | .paramWrite p _ => hdrWord (opcodeByte .paramWrite) p
  | .pushParams => hdrWord (opcodeByte .pushParams) 0#8
  | .paramMod p _ _ => hdrWord (opcodeByte .paramMod) p
  | .noteExpr e _ _ => hdrWord (opcodeByte .noteExpr) e
  | .fltSetCoef _ _ _ => hdrWord (opcodeByte .fltSetCoef) 0#8
  | .fltSetMode m => hdrWord (opcodeByte .fltSetMode) m
  | .fltProcess _ _ => hdrWord (opcodeByte .fltProcess) 0#8
  | .fltReset => hdrWord (opcodeByte .fltReset) 0#8

/-- The operand words of an instruction's packet (30_encoding.md R90). -/
def operandsOf : Instr → List Word
  | .setSampleRate sr => [sr]
  | .tick => []
  | .endBlock => []
  | .noteOn a => [Machine.wordOfAddr a]
  | .noteOff a => [Machine.wordOfAddr a]
  | .midi _ _ _ _ => []
  | .paramSet _ v => [v]
  | .paramWrite _ v => [v]
  | .pushParams => []
  | .paramMod _ a v => [Machine.wordOfAddr a, v]
  | .noteExpr _ a v => [Machine.wordOfAddr a, v]
  | .fltSetCoef key res srInv => [key, res, srInv]
  | .fltSetMode _ => []
  | .fltProcess l r => [l, r]
  | .fltReset => []

/-- The packet of an instruction (30_encoding.md R85). -/
def encode (i : Instr) : List Word := headerOf i :: operandsOf i

/-- The packet of an instruction as bytes (20_memory.md R74). -/
def encodeBytes (i : Instr) : List Byte := bytesOfWords (encode i)

/-- The port an instruction is sent to. -/
def Instr.portOf (i : Instr) : Port := opcodePort i.opcode

/-! ### One numbered word, as the opcode table numbers its rows -/

/-- The first `nbits` bits of the number w as four words, the bits above `nbits` zero. -/
def tableWords (nbits w : Nat) : List Word :=
  let v := w % 2 ^ nbits
  [BitVec.ofNat 64 v, BitVec.ofNat 64 (v / 2 ^ 64), BitVec.ofNat 64 (v / 2 ^ 128),
    BitVec.ofNat 64 (v / 2 ^ 192)]

/-- The port a header's opcode is for; the engine port where it is reserved. -/
def headerPort (h : Word) : Port :=
  match opcodeOf (Machine.field h 0 8) with
  | some o => opcodePort o
  | none => .engine

/-- How many words the packet of a header has (30_encoding.md R90): one for a reserved opcode. -/
def headerLength (h : Word) : Nat :=
  match opcodeOf (Machine.field h 0 8) with
  | some o => 1 + operandWords o
  | none => 1

/-- The packet that starts the four words of `tableWords`, as bytes. -/
def tableBytes (nbits w : Nat) : List Byte :=
  bytesOfWords ((tableWords nbits w).take (headerLength (BitVec.ofNat 64 (w % 2 ^ nbits))))

/-- The port of the packet of `tableBytes`. -/
def tablePort (nbits w : Nat) : Port := headerPort (BitVec.ofNat 64 (w % 2 ^ nbits))

/-- The instruction the decoder reads from the packet of `tableBytes`. -/
def decodeTableWord (nbits w : Nat) : Option Instr :=
  match decode (tablePort nbits w) (tableBytes nbits w) with
  | .packet i _ => some i
  | .reject _ _ _ => none
  | .hold => none

end Sys2Proof
end

