-- ==== Sys2Proof/Machine/Instance.lean ====
section
/-! DEFINITION. The values the model is instantiated with (00_scope.md R6), the check of R7, and the
reset values of the global parameters (10_state.md R33). Log 5. -/

namespace Sys2Proof.Machine

section

variable {α : Type} [LT α] [LE α] [DecidableLT α] [DecidableLE α] [∀ n, OfNat α n]

/-- INIT_PHASE is in [0, 1) for every copy of every unison count (00_scope.md R7). -/
def initPhaseValid (f : Nat → Nat → α) : Bool :=
  (List.range (maxUnison + 1)).all fun u =>
    (List.range u).all fun i => decide (0 ≤ f i u) && decide (f i u < 1)

/-- The constraints of 00_scope.md R7. -/
def paramsValid (c : Over.Params α) : Bool :=
  decide (0 < c.cutoffHzMin) && decide (c.cutoffHzMin ≤ c.cutoffHzMax)
    && decide (0 < c.resMin) && decide (c.resMin ≤ c.resMax) && decide (c.resMax < 1)
    && decide (0 < c.bypassFadeFrac) && decide (c.bypassFadeFrac ≤ 1)
    && decide (0 ≤ c.bendRangeSemis) && initPhaseValid c.initPhase

end

/-- The instance: the value column of 00_scope.md R6. DESIGN CHOICE for the OPEN ones (log 5). -/
def params : Params where
  cutoffHzMin := 10
  cutoffHzMax := 20000
  resMin := mkRat 1 100
  resMax := mkRat 99 100
  bypassFadeFrac := mkRat 2 100
  bendRangeSemis := 2
  outChannels := 2
  initPhase := fun _ _ => 0

/-- PARAM_RESET (10_state.md R33). -/
def paramReset : ParamId → Num
  | .unisonCount => 3
  | .unisonSpread => mkRat 1 10
  | .oscDetune => 0
  | .ampAttack => mkRat 1 100
  | .ampRelease => mkRat 2 10
  | .ampEnvBypass => 0
  | .preFilterVca => 1
  | .cutoff => 69
  | .resonance => mkRat 7 10
  | .filterMode => 0

end Sys2Proof.Machine
end

