-- ==== Sys2Proof/Machine/State.lean ====
section
/-! DEFINITION. The engine's architectural state as plain data (10_state.md R30 to R53) and its reset
(70_reset_and_hazards.md R290). Every type that holds NUM values takes the carrier of NUM as its argument
(00_scope.md R6).
Fields marked MODEL are not the spec's state:
they record outputs and supply inputs that one deterministic step needs (log 6, 8, 11). -/

namespace Sys2Proof.Machine

/-- An identity (port, channel, key, noteId) (10_state.md R37, R41). -/
structure Identity where
  port   : Int
  chan   : Int
  key    : Int
  noteId : Int
  deriving DecidableEq, Repr

/-- A note-end record (10_state.md R38). -/
structure NoteEnd where
  ident : Identity
  time  : Nat
  deriving DecidableEq, Repr

/-- The content of a fault register that is set: code and header word (10_state.md R39). -/
structure FaultRecord where
  code   : FaultCode
  header : Word
  deriving DecidableEq, Repr

/-- The envelope states (10_state.md R42). -/
inductive Env where
  | off
  | attack
  | hold
  | releasing
  | newlyOff
  deriving DecidableEq, Repr

/-! ### The state, over NUM's carrier

`Over.Voice α` is a voice whose NUM values are elements of α; `Voice` is one over the reference NUM. -/

namespace Over

/-- The global parameter file P[0..9] (10_state.md R32). Values are kept raw. -/
structure ParamFile (α : Type) where
  unisonCount  : α
  unisonSpread : α
  oscDetune    : α
  ampAttack    : α
  ampRelease   : α
  ampEnvBypass : α
  preFilterVca : α
  cutoff       : α
  resonance    : α
  filterMode   : α
  deriving DecidableEq, Repr

/-- One oscillator slot of a voice (10_state.md R43). -/
structure Slot (α : Type) where
  phase  : α
  dphase : α
  panL   : α
  panR   : α
  deriving DecidableEq, Repr

/-- The two integrator states of one filter channel (10_state.md R49). -/
structure Lane (α : Type) where
  ic1 : α
  ic2 : α
  deriving DecidableEq, Repr

/-- A filter-unit record (10_state.md R49). -/
structure FilterUnit (α : Type) where
  g         : α
  k         : α
  a1        : α
  a2        : α
  a3        : α
  coefValid : Bool
  mode      : FilterMode
  left      : Lane α
  right     : Lane α
  deriving DecidableEq, Repr

/-- One voice record (10_state.md R41 to R48). `slots` holds the seven oscillator slots of R43. -/
structure Voice (α : Type) where
  ident       : Identity
  env         : Env
  unison      : Nat
  norm        : α
  slots       : List (Slot α)
  t           : α
  level       : α
  releaseFrom : α
  attackTime  : α
  releaseTime : α
  bypass      : Bool
  spreadBase  : α
  detuneBase  : α
  vcaBase     : α
  cutoffBase  : α
  resBase     : α
  mode        : FilterMode
  spreadMod   : α
  detuneMod   : α
  vcaMod      : α
  cutoffMod   : α
  resMod      : α
  volExpr     : α
  tuningExpr  : α
  bend        : α
  flt         : FilterUnit α
  deriving DecidableEq, Repr

/-- One frame of the audio port: OUT_CHANNELS values (43_scheduler.md R223). -/
abbrev Frame (α : Type) := List α

/-- Everything the engine port's commands read and write (10_state.md R32 to R48, 20_memory.md R72). -/
structure Engine (α : Type) where
  p           : ParamFile α
  srInv       : α
  activated   : Bool
  polyCount   : Nat
  terminated  : List Identity
  noteEndFifo : List NoteEnd
  fault       : Option FaultRecord
  tickInBlock : Nat
  /-- V[0..63], by index (00_scope.md R13) -/
  voices      : List (Voice α)
  /-- bytes received and not yet consumed (20_memory.md R75) -/
  inBytes     : List Byte
  /-- MODEL: the frames sent on the audio port so far, oldest first (10_state.md R51) -/
  audioOut    : List (Frame α)
  /-- MODEL: STEAL_CHOICE draws still to be taken (42_voice_pool.md R195) -/
  stealDraws  : List (Fin nVoices)
  /-- MODEL: how many draws were taken from the free value (42_voice_pool.md R195) -/
  stealCount  : Nat
  deriving DecidableEq, Repr

/-- Everything the filter port's commands read and write (10_state.md R50, 20_memory.md R72). -/
structure FilterPort (α : Type) where
  fu0       : FilterUnit α
  fault     : Option FaultRecord
  /-- bytes received and not yet consumed (20_memory.md R75) -/
  inBytes   : List Byte
  /-- MODEL: the pairs sent on the filter port's output so far, oldest first (10_state.md R51) -/
  filterOut : List (α × α)
  deriving DecidableEq, Repr

/-- The whole block: two ports with disjoint state (20_memory.md R72), and whose turn it is. -/
structure State (α : Type) where
  engine : Engine α
  filter : FilterPort α
  /-- MODEL: the port the next step looks at first (log 8) -/
  turn   : Port
  deriving DecidableEq, Repr

end Over

/-- The parameter file, over the reference NUM. -/
abbrev ParamFile := Over.ParamFile Num

/-- An oscillator slot, over the reference NUM. -/
abbrev Slot := Over.Slot Num

/-- A filter channel, over the reference NUM. -/
abbrev Lane := Over.Lane Num

/-- A filter unit, over the reference NUM. -/
abbrev FilterUnit := Over.FilterUnit Num

/-- A voice, over the reference NUM. -/
abbrev Voice := Over.Voice Num

/-- An audio frame, over the reference NUM. -/
abbrev Frame := Over.Frame Num

/-- The engine port's state, over the reference NUM. -/
abbrev Engine := Over.Engine Num

/-- The filter port's state, over the reference NUM. -/
abbrev FilterPort := Over.FilterPort Num

/-- The state of the block, over the reference NUM. -/
abbrev State := Over.State Num

/-- A stop of the whole machine. The spec has none: a fault is a port's register and the machine goes
on (60_exceptions.md R262; log 7), so this type has no member and no meaning raises one. -/
inductive Fault
  deriving DecidableEq, Repr

/-- Reasons for which a step has no meaning. -/
inductive Refusal where
  /-- Raised by exec's arm of an instruction that has no meaning yet, with its mnemonic; no arm is
  such. Safe. -/
  | notModelled (mnemonic : String)
  /-- Raised by step when the parameter set breaks a constraint of 00_scope.md R7, which "gives the
  model no meaning" (93_implementation_defined.md K15). Safe. -/
  | badParameters
  deriving DecidableEq, Repr

/-! ### Reset (70_reset_and_hazards.md R290) -/

section

variable {α : Type} [∀ n, OfNat α n]

/-- The global parameter file at reset, from PARAM_RESET (10_state.md R33; 00_scope.md R6). -/
def Over.ParamFile.resetWith (f : ParamId → α) : Over.ParamFile α where
  unisonCount := f .unisonCount
  unisonSpread := f .unisonSpread
  oscDetune := f .oscDetune
  ampAttack := f .ampAttack
  ampRelease := f .ampRelease
  ampEnvBypass := f .ampEnvBypass
  preFilterVca := f .preFilterVca
  cutoff := f .cutoff
  resonance := f .resonance
  filterMode := f .filterMode

/-- A filter unit at reset (10_state.md R49). -/
def Over.FilterUnit.reset : Over.FilterUnit α where
  g := 0
  k := 0
  a1 := 0
  a2 := 0
  a3 := 0
  coefValid := false
  mode := .lowpass
  left := ⟨0, 0⟩
  right := ⟨0, 0⟩

/-- A voice at reset (10_state.md R41 to R48). -/
def Over.Voice.reset : Over.Voice α where
  ident := ⟨-1, -1, -1, -1⟩
  env := .off
  unison := 1
  norm := 1
  slots := List.replicate maxUnison ⟨0, 0, 0, 0⟩
  t := 0
  level := 0
  releaseFrom := 0
  attackTime := 0
  releaseTime := 0
  bypass := false
  spreadBase := 0
  detuneBase := 0
  vcaBase := 0
  cutoffBase := 0
  resBase := 0
  mode := .lowpass
  spreadMod := 0
  detuneMod := 0
  vcaMod := 0
  cutoffMod := 0
  resMod := 0
  volExpr := 0
  tuningExpr := 0
  bend := 0
  flt := Over.FilterUnit.reset

/-- The engine port's state at reset. -/
def Over.Engine.resetWith (f : ParamId → α) : Over.Engine α where
  p := Over.ParamFile.resetWith f
  srInv := 0
  activated := false
  polyCount := 0
  terminated := []
  noteEndFifo := []
  fault := none
  tickInBlock := 0
  voices := List.replicate nVoices Over.Voice.reset
  inBytes := []
  audioOut := []
  stealDraws := []
  stealCount := 0

/-- The filter port's state at reset. -/
def Over.FilterPort.reset : Over.FilterPort α where
  fu0 := Over.FilterUnit.reset
  fault := none
  inBytes := []
  filterOut := []

/-- The machine right after reset, for any NUM and PARAM_RESET (70_reset_and_hazards.md R290, R291). -/
def Over.State.resetWith (f : ParamId → α) : Over.State α where
  engine := Over.Engine.resetWith f
  filter := Over.FilterPort.reset
  turn := .engine

end

/-- The global parameter file at reset (10_state.md R33). -/
def ParamFile.reset : ParamFile := Over.ParamFile.resetWith paramReset

/-- The engine port's state at reset, at the parameters' reset values of 10_state.md R33. -/
def Engine.reset : Engine := Over.Engine.resetWith paramReset

/-- The machine right after reset (70_reset_and_hazards.md R290, R291), at the parameters' reset values
of 10_state.md R33. -/
def State.reset : State := Over.State.resetWith paramReset

end Sys2Proof.Machine
end

