-- ==== Sys2Proof/Machine/Flags.lean ====
section
/-! DEFINITION. The conditions commands test. The engine has no condition codes and no arithmetic sets
a flag (10_state.md R31, R53); what a command may test is a voice's envelope state, BYPASS (a field),
COEF_VALID (a field), ACTIVATED (a field), and whether a fault register is set. -/

namespace Sys2Proof.Machine

variable {α : Type}

/-- The envelope states of a playing voice (41_voice.md R151). -/
def envPlaying : Env → Bool
  | .attack => true
  | .hold => true
  | .releasing => true
  | .off => false
  | .newlyOff => false

/-- `isPlaying(j)` (41_voice.md R151). -/
def isPlaying (v : Over.Voice α) : Bool := envPlaying v.env

/-- A voice in OFF, the only kind a note may be given without a steal (42_voice_pool.md R191). -/
def isOff (v : Over.Voice α) : Bool := v.env == .off

/-- The fault register of a port (10_state.md R39, R50). -/
def portFault (p : Port) (s : Over.State α) : Option FaultRecord :=
  match p with
  | .engine => s.engine.fault
  | .filter => s.filter.fault

/-- A port is stuck: its fault register is set (60_exceptions.md R263). -/
def isFaulted (p : Port) (s : Over.State α) : Bool := (portFault p s).isSome

/-- How many voices play (43_scheduler.md R226). -/
def playingCount (vs : List (Over.Voice α)) : Nat := vs.countP isPlaying

end Sys2Proof.Machine
end

