-- ==== Sys2Proof/Machine/Ops.lean ====
section
/-! DEFINITION. Shared operations: taking a fault, running a command on its port, the byte buffers and
fetching a packet, the parameter file, the identity of an address, STEAL_CHOICE, and what the host does
beside the step. The engine has no addressable memory (20_memory.md R70), so no operation on memory
stands here. -/

namespace Sys2Proof.Machine

variable {α : Type}

/-! ### Taking a fault -/

/-- Fault entry, `raise Fault(code, h)` on a port: the port's fault register becomes (code, h), which
leaves the port stuck; nothing else changes (60_exceptions.md R262). There is no return from it:
"No command leaves the faulted state" (R269); only reset does. -/
def raiseFault (p : Port) (code : FaultCode) (h : Word) (s : Over.State α) : Over.State α :=
  match p with
  | .engine => { s with engine := { s.engine with fault := some ⟨code, h⟩ } }
  | .filter => { s with filter := { s.filter with fault := some ⟨code, h⟩ } }

/-! ### Running a command -/

/-- The NUM values of a filter unit. -/
def Over.FilterUnit.nums (fu : Over.FilterUnit α) : List α :=
  [fu.g, fu.k, fu.a1, fu.a2, fu.a3, fu.left.ic1, fu.left.ic2, fu.right.ic1, fu.right.ic2]

/-- The NUM values of a voice. -/
def Over.Voice.nums (v : Over.Voice α) : List α :=
  [v.norm, v.t, v.level, v.releaseFrom, v.attackTime, v.releaseTime, v.spreadBase, v.detuneBase,
    v.vcaBase, v.cutoffBase, v.resBase, v.spreadMod, v.detuneMod, v.vcaMod, v.cutoffMod, v.resMod,
    v.volExpr, v.tuningExpr, v.bend]
    ++ v.slots.flatMap (fun sl => [sl.phase, sl.dphase, sl.panL, sl.panR]) ++ v.flt.nums

/-- The NUM values of the parameter file. -/
def Over.ParamFile.nums (p : Over.ParamFile α) : List α :=
  [p.unisonCount, p.unisonSpread, p.oscDetune, p.ampAttack, p.ampRelease, p.ampEnvBypass,
    p.preFilterVca, p.cutoff, p.resonance, p.filterMode]

/-- The NUM values of the engine port's state and of its outputs. -/
def Over.Engine.nums (e : Over.Engine α) : List α :=
  e.srInv :: (e.p.nums ++ e.voices.flatMap Over.Voice.nums ++ e.audioOut.flatten)

/-- The NUM values of the filter port's state and of its outputs. -/
def Over.FilterPort.nums (f : Over.FilterPort α) : List α :=
  f.fu0.nums ++ f.filterOut.flatMap (fun o => [o.1, o.2])

/-- Every value is finite in NUM, which holds of itself where NUM has no other elements
(60_exceptions.md R266). -/
def allFinite (N : NumOps α) (xs : List α) : Bool :=
  match N.finite with
  | none => true
  | some f => xs.all f

/-- Going on with k where every value of xs is finite, else ARITH_DOMAIN (60_exceptions.md R266): the check
of the values a rule has computed by that point of its pseudocode, which is their place in R265's order. -/
@[inline] def ifFinite {β : Type} (N : NumOps α) (xs : List α) (k : Except FaultCode β) :
    Except FaultCode β :=
  match N.finite with
  | none => k
  | some f => if xs.all f then k else .error .arithDomain

/-- Running an engine-port command: a faulted port executes nothing (60_exceptions.md R263); operands
that no decoder lets through fault as the decoder faults them (log 13); otherwise the command's rule
runs whole, or its fault is taken and none of its writes happen (R264, 20_memory.md R73). The rules check
what they compute where they compute it (`ifFinite`); a value they did not check and that is not finite is
not carried into state or output either (R266; log 19). -/
def runEngine (N : NumOps α) (i : Instr) (rule : Over.Engine α → Except FaultCode (Over.Engine α))
    (s : Over.State α) : Host.Outcome (Over.State α) Fault Refusal :=
  if isFaulted .engine s then .next s
  else
    match operandError i with
    | some e => .next (raiseFault .engine (decodeErrorCode e) (headerOf i) s)
    | none =>
      match rule s.engine with
      | .error code => .next (raiseFault .engine code (headerOf i) s)
      | .ok e =>
        if allFinite N e.nums then .next { s with engine := e }
        else .next (raiseFault .engine .arithDomain (headerOf i) s)

/-- Running a filter-port command, in the same way. -/
def runFilter (N : NumOps α) (i : Instr) (rule : Over.FilterPort α → Except FaultCode (Over.FilterPort α))
    (s : Over.State α) : Host.Outcome (Over.State α) Fault Refusal :=
  if isFaulted .filter s then .next s
  else
    match operandError i with
    | some e => .next (raiseFault .filter (decodeErrorCode e) (headerOf i) s)
    | none =>
      match rule s.filter with
      | .error code => .next (raiseFault .filter code (headerOf i) s)
      | .ok f =>
        if allFinite N f.nums then .next { s with filter := f }
        else .next (raiseFault .filter .arithDomain (headerOf i) s)

/-! ### The voice array -/

/-- A loop over the voices in ascending index whose body may fault: the lowest-indexed fault decides,
and none of the writes of a loop that faults happen (60_exceptions.md R264, R265). -/
def forVoices (f : Over.Voice α → Except FaultCode (Over.Voice α)) :
    List (Over.Voice α) → Except FaultCode (List (Over.Voice α))
  | [] => .ok []
  | v :: vs =>
    match f v with
    | .error code => .error code
    | .ok v' =>
      match forVoices f vs with
      | .error code => .error code
      | .ok vs' => .ok (v' :: vs')

/-- The body of a loop `if isPlaying(j) and sel(j): ...` that may fault. -/
def onPlaying (sel : Over.Voice α → Bool) (f : Over.Voice α → Except FaultCode (Over.Voice α)) (v : Over.Voice α) :
    Except FaultCode (Over.Voice α) :=
  if isPlaying v && sel v then f v else .ok v

/-- The body of a loop `if isPlaying(j) and sel(j): ...` that cannot fault. -/
def updPlaying (sel : Over.Voice α → Bool) (f : Over.Voice α → Over.Voice α) (v : Over.Voice α) :
    Over.Voice α :=
  if isPlaying v && sel v then f v else v

/-- The values that a loop `if isPlaying(j) and sel(j): ...` computes, f of each voice it reaches. -/
def playingArith (sel : Over.Voice α → Bool) (f : Over.Voice α → List α) (vs : List (Over.Voice α)) : List α :=
  (vs.filter fun v => isPlaying v && sel v).flatMap f

/-! ### The parameter file -/

/-- Writing P[p] (10_state.md R32). -/
def setParam (f : Over.ParamFile α) (p : ParamId) (x : α) : Over.ParamFile α :=
  match p with
  | .unisonCount => { f with unisonCount := x }
  | .unisonSpread => { f with unisonSpread := x }
  | .oscDetune => { f with oscDetune := x }
  | .ampAttack => { f with ampAttack := x }
  | .ampRelease => { f with ampRelease := x }
  | .ampEnvBypass => { f with ampEnvBypass := x }
  | .preFilterVca => { f with preFilterVca := x }
  | .cutoff => { f with cutoff := x }
  | .resonance => { f with resonance := x }
  | .filterMode => { f with filterMode := x }

/-- Reading P[p] (10_state.md R32). -/
def getParam (f : Over.ParamFile α) (p : ParamId) : α :=
  match p with
  | .unisonCount => f.unisonCount
  | .unisonSpread => f.unisonSpread
  | .oscDetune => f.oscDetune
  | .ampAttack => f.ampAttack
  | .ampRelease => f.ampRelease
  | .ampEnvBypass => f.ampEnvBypass
  | .preFilterVca => f.preFilterVca
  | .cutoff => f.cutoff
  | .resonance => f.resonance
  | .filterMode => f.filterMode

/-! ### Addresses -/

/-- The identity an ADDR word carries (30_encoding.md R88). -/
def addrIdent (a : Addr) : Identity :=
  ⟨a.port.toInt, a.chan.toInt, a.key.toInt, a.noteId.toInt⟩

/-- `matches(j, port, chan, key, nid, useNoteId)` (44_mod_router.md R240): by note-id, else by the
triple, else every voice. -/
def addressed (useNoteId : Bool) (a v : Identity) : Bool :=
  if useNoteId && decide (0 ≤ a.noteId) then v.noteId == a.noteId
  else if decide (0 ≤ a.port) && decide (0 ≤ a.chan) && decide (0 ≤ a.key) then
    v.port == a.port && v.chan == a.chan && v.key == a.key
  else true

/-! ### STEAL_CHOICE -/

/-- `draw STEAL_CHOICE()` (42_voice_pool.md R195): the next draw the host supplied, else a free value
of its own number (log 6). -/
def drawSteal (e : Over.Engine α) : Fin nVoices × Over.Engine α :=
  match e.stealDraws with
  | d :: ds => (d, { e with stealDraws := ds })
  | [] => (Config.freeStealChoice e.stealCount, { e with stealCount := e.stealCount + 1 })

/-! ### The byte buffers and fetching -/

/-- The other port. -/
def otherPort : Port → Port
  | .engine => .filter
  | .filter => .engine

/-- The bytes a port holds (20_memory.md R75). -/
def portBytes (p : Port) (s : Over.State α) : List Byte :=
  match p with
  | .engine => s.engine.inBytes
  | .filter => s.filter.inBytes

/-- Replacing the bytes a port holds. -/
def setPortBytes (p : Port) (bytes : List Byte) (s : Over.State α) : Over.State α :=
  match p with
  | .engine => { s with engine := { s.engine with inBytes := bytes } }
  | .filter => { s with filter := { s.filter with inBytes := bytes } }

/-- Taking n words off the head of a port's bytes; the next step looks at the other port first. -/
def consume (p : Port) (n : Nat) (s : Over.State α) : Over.State α :=
  { setPortBytes p ((portBytes p s).drop (8 * n)) s with turn := otherPort p }

/-- What a port reads: a stuck port decodes nothing (60_exceptions.md R263), else the packet at the
head of its bytes. -/
def fetchPort (p : Port) (s : Over.State α) : Fetched :=
  if isFaulted p s then .hold else decode p (portBytes p s)

/-! ### What the host does beside the step (00_scope.md R12) -/

/-- The host sends bytes to a port. -/
def hostSend (p : Port) (bytes : List Byte) (s : Over.State α) : Over.State α :=
  setPortBytes p (portBytes p s ++ bytes) s

/-- The host removes the head record of NOTE_END_FIFO, if there is one (10_state.md R38). -/
def hostDrain (s : Over.State α) : Option NoteEnd × Over.State α :=
  match s.engine.noteEndFifo with
  | [] => (none, s)
  | r :: rs => (some r, { s with engine := { s.engine with noteEndFifo := rs } })

/-- Reset, "one event for the whole block" that no command causes (70_reset_and_hazards.md R291). -/
def hostReset (_ : State) : State := State.reset

end Sys2Proof.Machine
end

