-- ==== Sys2Proof/Machine/Filter.lean ====
section
/-! DEFINITION. The filter unit (40_filter_unit.md): its internal operations R121 to R128, used by the
voices and by the filter port, and the filter-port commands R130 to R133. -/

namespace Sys2Proof.Machine

variable {α : Type} [Add α] [Sub α] [Mul α] [Div α] [Neg α] [LT α] [LE α] [DecidableLT α]
  [DecidableLE α] [NatCast α] [IntCast α] [∀ n, OfNat α n]

/-! ### Internal operations -/

/-- The values that `keyToHz(k)` computes: the argument of exp2, and the frequency (00_scope.md R11). -/
def keyArith (N : NumOps α) (k : α) : List α := [(k - 69) / 12, keyToHz N k]

/-- The cutoff frequency `clamp(keyToHz(key), CUTOFF_HZ_MIN, CUTOFF_HZ_MAX)` (40_filter_unit.md R122). -/
def cutoffHz (N : NumOps α) (c : Over.Params α) (key : α) : α :=
  match N.clampedHz with
  | none => clamp (keyToHz N key) c.cutoffHzMin c.cutoffHzMax
  | some f => f key c.cutoffHzMin c.cutoffHzMax

/-- The damping `k = 2 - 2 r`, r the clamped resonance (40_filter_unit.md R123). -/
def damping (c : Over.Params α) (res : α) : α := 2 - 2 * clamp res c.resMin c.resMax

/-- The coefficient writes of 40_filter_unit.md R124, from g and k. -/
def withCoefficients (g k : α) (fu : Over.FilterUnit α) : Over.FilterUnit α :=
  let a1 := 1 / (1 + g * (g + k))
  let a2 := g * a1
  { fu with g := g, k := k, a1 := a1, a2 := a2, a3 := g * a2, coefValid := true }

/-- The values that R124 computes from g and k: the divisor of A1, and the unit's new coefficients. -/
def coefficientArith (g k : α) (fu : Over.FilterUnit α) : List α :=
  (1 + g * (g + k)) :: (withCoefficients g k fu).nums

/-- `setCoefficients(key, res, srInv)` (40_filter_unit.md R121 to R124), each value checked where it is
computed (60_exceptions.md R265, R266). -/
def setCoefficients (N : NumOps α) (c : Over.Params α) (key res srInv : α) (fu : Over.FilterUnit α) :
    Except FaultCode (Over.FilterUnit α) :=
  if ¬ (0 < srInv) then .error .badSampleRate
  else
    let fc := cutoffHz N c key
    let g := N.tan (N.pi * fc * srInv)
    let k := damping c res
    ifFinite N (keyArith N key ++ [fc * srInv])
      (if 1 / 2 ≤ fc * srInv then .error .unstableCutoff
      else ifFinite N (coefficientArith g k fu) (.ok (withCoefficients g k fu)))

/-- `clearState()` (40_filter_unit.md R126). -/
def clearState (fu : Over.FilterUnit α) :
    Over.FilterUnit α := { fu with left := ⟨0, 0⟩, right := ⟨0, 0⟩ }

/-- `setMode(m)` (40_filter_unit.md R125). -/
def setMode (m : FilterMode) (fu : Over.FilterUnit α) : Over.FilterUnit α :=
  if m ≠ fu.mode then clearState { fu with mode := m } else fu

/-- The output mix out = m0 v0 + m1 v1 + m2 v2 of a mode, as (m0, m1, m2) (40_filter_unit.md R128). -/
def mixOf (mode : FilterMode) (k : α) : α × α × α :=
  match mode with
  | .lowpass => (0, 0, 1)
  | .bandpass => (0, 1, 0)
  | .highpass => (1, -k, -1)
  | .notch => (1, -k, 0)
  | .peak => (1, -k, -2)
  | .allpass => (1, -(2 * k), 0)

/-- One lane of `process`: the lane after the sample, and its output (40_filter_unit.md R127). -/
def processLane (fu : Over.FilterUnit α) (lane : Over.Lane α) (v0 : α) : Over.Lane α × α :=
  let v3 := v0 - lane.ic2
  let v1 := fu.a1 * lane.ic1 + fu.a2 * v3
  let v2 := lane.ic2 + fu.a2 * lane.ic1 + fu.a3 * v3
  let m := mixOf fu.mode fu.k
  (⟨2 * v1 - lane.ic1, 2 * v2 - lane.ic2⟩, m.1 * v0 + m.2.1 * v1 + m.2.2 * v2)

/-- `process(inL, inR)` (40_filter_unit.md R127): the unit after the sample, and the output pair. -/
def processStereo (fu : Over.FilterUnit α) (inL inR : α) : Over.FilterUnit α × α × α :=
  let l := processLane fu fu.left inL
  let r := processLane fu fu.right inR
  ({ fu with left := l.1, right := r.1 }, l.2, r.2)

/-! ### Filter-port commands -/

/-- FLT_SETCOEF (40_filter_unit.md R130). -/
def fltSetCoefRule (N : NumOps α) (c : Over.Params α) (key res srInv : Word) (f : Over.FilterPort α) :
    Except FaultCode (Over.FilterPort α) :=
  ifFinite N [toNum N key, toNum N res, toNum N srInv]
    (match setCoefficients N c (toNum N key) (toNum N res) (toNum N srInv) f.fu0 with
    | .error code => .error code
    | .ok fu => .ok { f with fu0 := fu })

/-- FLT_SETMODE (40_filter_unit.md R131). A mode number above 5 never gets here: it is an operand
error (30_encoding.md R95). -/
def fltSetModeRule (m : Byte) (f : Over.FilterPort α) : Except FaultCode (Over.FilterPort α) :=
  match filterModeOf m.toNat with
  | some mode => .ok { f with fu0 := setMode mode f.fu0 }
  | none => .error .illegalCommand

/-- FLT_PROCESS (40_filter_unit.md R132). -/
def fltProcessRule (N : NumOps α) (l r : Word) (f : Over.FilterPort α) :
    Except FaultCode (Over.FilterPort α) :=
  if f.fu0.coefValid then
    let o := processStereo f.fu0 (toNum N l) (toNum N r)
    ifFinite N [toNum N l, toNum N r]
      (.ok { f with fu0 := o.1, filterOut := f.filterOut ++ [o.2] })
  else .error .filterNotConfigured

/-- FLT_RESET (40_filter_unit.md R133). -/
def fltResetRule (f : Over.FilterPort α) : Except FaultCode (Over.FilterPort α) :=
  .ok { f with fu0 := clearState f.fu0 }

/-- FLT_SETCOEF key, res, srInv (40_filter_unit.md R130), for any NUM and parameters. -/
def fltSetCoefWith (N : NumOps α) (c : Over.Params α) (key res srInv : Word) (s : Over.State α) :
    Host.Outcome (Over.State α) Fault Refusal :=
  runFilter N (.fltSetCoef key res srInv) (fltSetCoefRule N c key res srInv) s

/-- FLT_SETCOEF key, res, srInv (40_filter_unit.md R130). -/
def execFltSetCoef (key res srInv : Word) (s : State) : Host.Outcome State Fault Refusal :=
  fltSetCoefWith ratNum params key res srInv s

/-- FLT_SETMODE m (40_filter_unit.md R131), for any NUM and parameters. -/
def fltSetModeWith (N : NumOps α) (_c : Over.Params α) (m : Byte) (s : Over.State α) :
    Host.Outcome (Over.State α) Fault Refusal :=
  runFilter N (.fltSetMode m) (fltSetModeRule m) s

/-- FLT_SETMODE m (40_filter_unit.md R131). -/
def execFltSetMode (m : Byte) (s : State) : Host.Outcome State Fault Refusal :=
  fltSetModeWith ratNum params m s

/-- FLT_PROCESS l, r (40_filter_unit.md R132), for any NUM and parameters. -/
def fltProcessWith (N : NumOps α) (_c : Over.Params α) (l r : Word) (s : Over.State α) :
    Host.Outcome (Over.State α) Fault Refusal :=
  runFilter N (.fltProcess l r) (fltProcessRule N l r) s

/-- FLT_PROCESS l, r (40_filter_unit.md R132). -/
def execFltProcess (l r : Word) (s : State) : Host.Outcome State Fault Refusal :=
  fltProcessWith ratNum params l r s

/-- FLT_RESET (40_filter_unit.md R133), for any NUM and parameters. -/
def fltResetWith (N : NumOps α) (_c : Over.Params α) (s : Over.State α) :
    Host.Outcome (Over.State α) Fault Refusal :=
  runFilter N .fltReset fltResetRule s

/-- FLT_RESET (40_filter_unit.md R133). -/
def execFltReset (s : State) : Host.Outcome State Fault Refusal :=
  fltResetWith ratNum params s

end Sys2Proof.Machine
end

