-- ==== Sys2Proof/Machine/Voice.lean ====
section
/-! DEFINITION. The voice operations (41_voice.md R150 to R169), called by the commands of the pool, the
scheduler and the router. -/

namespace Sys2Proof.Machine

variable {α : Type} [Add α] [Sub α] [Mul α] [Div α] [Neg α] [LT α] [LE α] [DecidableLT α]
  [DecidableLE α] [NatCast α] [IntCast α] [∀ n, OfNat α n]

/-! ### Activation and recomputation -/

/-- The position of copy i of u in [-1, 1]: 0 for a single copy, else 2 i / (u - 1) - 1
(41_voice.md R154, R156). -/
def unisonPos (u i : Nat) : α := if u = 1 then 0 else 2 * (i : α) / ((u : α) - 1) - 1

/-- `panNorm(j)` (41_voice.md R154). -/
def panNorm (N : NumOps α) (v : Over.Voice α) : Over.Voice α :=
  let pan (i : Nat) (sl : Over.Slot α) : Over.Slot α :=
    if i < v.unison then
      { sl with
        panL := minNum 1 (1 - unisonPos v.unison i)
        panR := minNum 1 (1 + unisonPos v.unison i) }
    else { sl with panL := 0, panR := 0 }
  { v with norm := 1 / N.sqrt (v.unison : α), slots := v.slots.mapIdx pan }

/-- The pitch of copy i in semitones (41_voice.md R156). -/
def copyPitch (v : Over.Voice α) (i : Nat) : α :=
  let sp := v.spreadBase + v.spreadMod
  let off := if v.unison = 1 then 0 else sp * unisonPos v.unison i
  (v.ident.key : α) + v.bend + v.tuningExpr + v.detuneBase + v.detuneMod + off

/-- The values that `recalcPitch(j)` computes (41_voice.md R156): the spread, and of each active copy those
of its frequency and its increment. -/
def pitchArith (N : NumOps α) (srInv : α) (v : Over.Voice α) : List α :=
  (v.spreadBase + v.spreadMod) :: (List.range v.unison).flatMap fun i =>
    keyArith N (copyPitch v i) ++ [keyToHz N (copyPitch v i) * srInv]

/-- `recalcPitch(j)` (41_voice.md R156). -/
def recalcPitch (N : NumOps α) (srInv : α) (v : Over.Voice α) : Over.Voice α :=
  let upd (i : Nat) (sl : Over.Slot α) : Over.Slot α :=
    if i < v.unison then { sl with dphase := keyToHz N (copyPitch v i) * srInv } else sl
  { v with slots := v.slots.mapIdx upd }

/-- `recalcFilter(j)` (41_voice.md R157). -/
def recalcFilter (N : NumOps α) (c : Over.Params α) (srInv : α) (v : Over.Voice α) :
    Except FaultCode (Over.Voice α) :=
  if 0 < srInv then
    ifFinite N [v.cutoffBase + v.cutoffMod, v.resBase + v.resMod]
      (match setCoefficients N c (v.cutoffBase + v.cutoffMod) (v.resBase + v.resMod) srInv v.flt with
      | .error code => .error code
      | .ok fu => .ok { v with flt := fu })
  else .ok v

/-- `recalcPitch(j); recalcFilter(j)`, in that order: a pitch that is not finite faults before the cutoff is
looked at (60_exceptions.md R265). -/
def recalcBoth (N : NumOps α) (c : Over.Params α) (srInv : α) (v : Over.Voice α) :
    Except FaultCode (Over.Voice α) :=
  ifFinite N (pitchArith N srInv v) (recalcFilter N c srInv (recalcPitch N srInv v))

/-- The values that `copyBase(j, withUnison)` computes: what `snap` takes the floor of (41_voice.md R158). -/
def baseArith (p : Over.ParamFile α) (withUnison : Bool) : List α :=
  (if withUnison then [p.unisonCount + 1 / 2] else []) ++ [p.filterMode + 1 / 2]

/-- `copyBase(j, withUnison)` (41_voice.md R158). -/
def copyBase (N : NumOps α) (p : Over.ParamFile α) (withUnison : Bool) (v : Over.Voice α) :
    Over.Voice α :=
  { v with
    unison := if withUnison then (snap N p.unisonCount 1 7).toNat else v.unison
    spreadBase := p.unisonSpread
    detuneBase := p.oscDetune
    attackTime := p.ampAttack
    releaseTime := p.ampRelease
    bypass := decide (1 / 2 ≤ p.ampEnvBypass)
    vcaBase := p.preFilterVca
    cutoffBase := p.cutoff
    resBase := p.resonance
    mode := modeOfParam N p.filterMode }

/-- The phase starts of an activation (41_voice.md R153). -/
def initPhases (c : Over.Params α) (v : Over.Voice α) : Over.Voice α :=
  let start (i : Nat) (sl : Over.Slot α) : Over.Slot α :=
    { sl with phase := if i < v.unison then c.initPhase i v.unison else 0, dphase := 0 }
  { v with slots := v.slots.mapIdx start }

/-- The envelope at activation (41_voice.md R153). -/
def initEnvelope (v : Over.Voice α) : Over.Voice α :=
  if v.attackTime ≤ 0 then { v with t := 0, env := .hold, level := 1, releaseFrom := 1 }
  else { v with t := 0, env := .attack, level := 0, releaseFrom := 0 }

/-- The voice of an activation before its two recomputations (41_voice.md R153). -/
def activatedVoice (N : NumOps α) (c : Over.Params α) (p : Over.ParamFile α) (ident : Identity) (v : Over.Voice α) :
    Over.Voice α :=
  let v := { v with
    ident := ident
    spreadMod := 0, detuneMod := 0, vcaMod := 0, cutoffMod := 0, resMod := 0
    volExpr := 0, tuningExpr := 0, bend := 0 }
  let v := copyBase N p true v
  let v := panNorm N v
  let v := initPhases c v
  let v := initEnvelope v
  { v with flt := clearState { v.flt with mode := v.mode } }

/-- The values that `panNorm(j)` computes: the root, and the gains (41_voice.md R154). -/
def panArith (N : NumOps α) (v : Over.Voice α) : List α :=
  N.sqrt (v.unison : α) :: (List.range v.unison).flatMap fun i =>
    [1 - unisonPos v.unison i, 1 + unisonPos v.unison i]

/-- `voiceInit(j, port, chan, key, nid)` (41_voice.md R153). -/
def voiceInit (N : NumOps α) (c : Over.Params α) (p : Over.ParamFile α) (srInv : α) (ident : Identity) (v : Over.Voice α) :
    Except FaultCode (Over.Voice α) :=
  let v := activatedVoice N c p ident v
  ifFinite N (baseArith p true ++ panArith N v ++ v.nums) (recalcBoth N c srInv v)

/-- The push of the global parameters into one voice (42_voice_pool.md R197). -/
def pushVoice (N : NumOps α) (c : Over.Params α) (p : Over.ParamFile α) (srInv : α) (v : Over.Voice α) :
    Except FaultCode (Over.Voice α) :=
  let v := copyBase N p false v
  ifFinite N (baseArith p false) (recalcBoth N c srInv { v with flt := setMode v.mode v.flt })

/-! ### The per-sample step -/

/-- The envelope step (41_voice.md R159, R160, R161). A voice that is not playing is not stepped. -/
def envStep (srInv : α) (v : Over.Voice α) : Over.Voice α :=
  match v.env with
  | .attack =>
    let t := v.t + srInv
    if v.attackTime ≤ t then { v with t := t, env := .hold, level := 1, releaseFrom := 1 }
    else { v with t := t, level := t / v.attackTime, releaseFrom := t / v.attackTime }
  | .hold => { v with level := 1, releaseFrom := 1 }
  | .releasing =>
    let t := v.t + srInv
    if v.releaseTime ≤ t then { v with t := t, env := .newlyOff, level := 0 }
    else { v with t := t, level := v.releaseFrom * (1 - t / v.releaseTime) }
  | .off => v
  | .newlyOff => v

/-- The values that the envelope step computes (41_voice.md R159, R161): the time, for the level shows in the
voice. -/
def envArith (srInv : α) (v : Over.Voice α) : List α :=
  match v.env with
  | .attack => [v.t + srInv]
  | .releasing => [v.t + srInv]
  | .hold => []
  | .off => []
  | .newlyOff => []

/-- The envelope amplitude, after the envelope step (41_voice.md R164). A voice in OFF is never asked;
its amplitude is 0. -/
def amplitude (c : Over.Params α) (v : Over.Voice α) : α :=
  if v.bypass then
    match v.env with
    | .attack => 1
    | .hold => 1
    | .releasing =>
      let fs := (1 - c.bypassFadeFrac) * v.releaseTime
      if v.t < fs then 1
      else clamp ((v.releaseTime - v.t) / (c.bypassFadeFrac * v.releaseTime)) 0 1
    | .newlyOff => 0
    | .off => 0
  else v.level

/-- The values that the envelope amplitude computes: those of the fade (41_voice.md R164). -/
def amplitudeArith (c : Over.Params α) (v : Over.Voice α) : List α :=
  let fs := (1 - c.bypassFadeFrac) * v.releaseTime
  let fade := c.bypassFadeFrac * v.releaseTime
  if v.bypass ∧ v.env = .releasing then
    if v.t < fs then [fs] else [fs, fade, (v.releaseTime - v.t) / fade]
  else []

/-- The second antiderivative of the saw (41_voice.md R163). -/
def sawPoly (x : α) : α := (2 * (x * x * x) - 3 * (x * x) + x) / 6

/-- `dpw(phi, d)` (41_voice.md R163). -/
def dpw (N : NumOps α) (phi d : α) : Except FaultCode α :=
  if ¬ (0 < d) then .error .arithDomain
  else
    let p1 := wrap N (phi - d)
    let p2 := wrap N (phi - 2 * d)
    let x := (sawPoly phi - 2 * sawPoly p1 + sawPoly p2) / (d * d)
    ifFinite N [phi - d, phi - 2 * d, d * d, x] (.ok x)

/-- The oscillator step of the first u slots, in ascending index: the advanced slots and the saw value
of each active copy (41_voice.md R162). -/
def oscillate (N : NumOps α) :
    Nat → List (Over.Slot α) → Except FaultCode (List (Over.Slot α) × List α)
  | 0, sls => .ok (sls, [])
  | _ + 1, [] => .ok ([], [])
  | u + 1, sl :: sls =>
    let phase := wrap N (sl.phase + sl.dphase)
    match ifFinite N [sl.phase + sl.dphase] (dpw N phase sl.dphase) with
    | .error code => .error code
    | .ok x =>
      match oscillate N u sls with
      | .error code => .error code
      | .ok r => .ok ({ sl with phase := phase } :: r.1, x :: r.2)

/-- The unison mix of one channel: the sum over the active copies of s_i x NORM x gain_i, in ascending
i from 0 (41_voice.md R165). -/
def unisonMix (norm : α) (gain : Over.Slot α → α) (sls : List (Over.Slot α)) (xs : List α) : α :=
  (sls.zip xs).foldl (fun acc q => acc + q.2 * norm * gain q.1) 0

/-- `voiceStep(j)`: the voice after the sample, and its stereo output (41_voice.md R167). -/
def voiceStep (N : NumOps α) (c : Over.Params α) (srInv : α) (v : Over.Voice α) :
    Except FaultCode (Over.Voice α × α × α) :=
  let before := envArith srInv v
  let v := envStep srInv v
  let amp := amplitude c v
  ifFinite N (before ++ amplitudeArith c v)
    (match oscillate N v.unison v.slots with
    | .error code => .error code
    | .ok osc =>
      let sL := unisonMix v.norm Over.Slot.panL osc.1 osc.2
      let sR := unisonMix v.norm Over.Slot.panR osc.1 osc.2
      let gain := amp * v.vcaBase * (1 + v.vcaMod + v.volExpr)
      let o := processStereo v.flt (sL * gain) (sR * gain)
      ifFinite N [sL * gain, sR * gain, o.2.1, o.2.2]
        (.ok ({ v with slots := osc.1, flt := o.1 }, o.2)))

/-! ### Release -/

/-- `voiceRelease(j)` (41_voice.md R168). -/
def voiceRelease (v : Over.Voice α) : Over.Voice α :=
  if v.env = .attack ∨ v.env = .hold then
    if v.releaseTime ≤ 0 then
      { v with releaseFrom := v.level, t := 0, env := .newlyOff, level := 0 }
    else { v with releaseFrom := v.level, t := 0, env := .releasing }
  else v

end Sys2Proof.Machine
end

