-- ==== Sys2Proof/Machine/Pool.lean ====
section
/-! DEFINITION. The voice pool (42_voice_pool.md): allocation and stealing R191 to R195, and the commands
NOTE_ON R192, NOTE_OFF R196 and PUSH_PARAMS R197. -/

namespace Sys2Proof.Machine

variable {α : Type} [Add α] [Sub α] [Mul α] [Div α] [Neg α] [LT α] [LE α] [DecidableLT α]
  [DecidableLE α] [NatCast α] [IntCast α] [∀ n, OfNat α n]

/-- `freeVoice()`: the lowest index of an OFF voice (42_voice_pool.md R191). -/
def freeVoice (vs : List (Over.Voice α)) : Option Nat := vs.findIdx? isOff

/-- Activating voice j of the array (41_voice.md R153). There is no voice of an index outside the
array; a pool of 64 voices never asks for one (log 17). -/
def activateAt (N : NumOps α) (c : Over.Params α) (j : Nat) (ident : Identity) (e : Over.Engine α) :
    Except FaultCode (Over.Engine α) :=
  match e.voices[j]? with
  | none => .ok e
  | some v =>
    match voiceInit N c e.p e.srInv ident v with
    | .error code => .error code
    | .ok v' => .ok { e with voices := e.voices.set j v' }

/-- Giving up the identity of voice j to TERMINATED (42_voice_pool.md R193). -/
def terminate (j : Nat) (e : Over.Engine α) : Over.Engine α :=
  match e.voices[j]? with
  | none => e
  | some v => { e with terminated := e.terminated ++ [v.ident] }

/-- Starting a note with an identity (42_voice_pool.md R192; 43_scheduler.md R231). -/
def startNote (N : NumOps α) (c : Over.Params α) (ident : Identity) (e : Over.Engine α) :
    Except FaultCode (Over.Engine α) :=
  match freeVoice e.voices with
  | some j => activateAt N c j ident e
  | none =>
    let d := drawSteal e
    activateAt N c d.1.val ident (terminate d.1.val d.2)

/-- Releasing the playing voices an address reaches (42_voice_pool.md R196; 43_scheduler.md R232). -/
def releaseNotes (a : Identity) (e : Over.Engine α) : Over.Engine α :=
  { e with voices := e.voices.map (updPlaying (fun v => addressed true a v.ident) voiceRelease) }

/-- `pushParams()` (42_voice_pool.md R197). -/
def pushParamsRule (N : NumOps α) (c : Over.Params α) (e : Over.Engine α) :
    Except FaultCode (Over.Engine α) :=
  match forVoices (onPlaying (fun _ => true) (pushVoice N c e.p e.srInv)) e.voices with
  | .error code => .error code
  | .ok vs => .ok { e with voices := vs }

/-- NOTE_ON a (42_voice_pool.md R192), for any NUM and parameters. -/
def noteOnWith (N : NumOps α) (c : Over.Params α) (a : Addr) (s : Over.State α) :
    Host.Outcome (Over.State α) Fault Refusal :=
  runEngine N (.noteOn a) (startNote N c (addrIdent a)) s

/-- NOTE_ON a (42_voice_pool.md R192). -/
def execNoteOn (a : Addr) (s : State) : Host.Outcome State Fault Refusal :=
  noteOnWith ratNum params a s

/-- NOTE_OFF a (42_voice_pool.md R196), for any NUM and parameters. -/
def noteOffWith (N : NumOps α) (_c : Over.Params α) (a : Addr) (s : Over.State α) :
    Host.Outcome (Over.State α) Fault Refusal :=
  runEngine N (.noteOff a) (fun e => .ok (releaseNotes (addrIdent a) e)) s

/-- NOTE_OFF a (42_voice_pool.md R196). -/
def execNoteOff (a : Addr) (s : State) : Host.Outcome State Fault Refusal :=
  noteOffWith ratNum params a s

/-- PUSH_PARAMS (42_voice_pool.md R197), for any NUM and parameters. -/
def pushParamsWith (N : NumOps α) (c : Over.Params α) (s : Over.State α) :
    Host.Outcome (Over.State α) Fault Refusal :=
  runEngine N .pushParams (pushParamsRule N c) s

/-- PUSH_PARAMS (42_voice_pool.md R197). -/
def execPushParams (s : State) : Host.Outcome State Fault Refusal :=
  pushParamsWith ratNum params s

end Sys2Proof.Machine
end

