-- ==== Sys2Proof/Machine/Router.lean ====
section
/-! DEFINITION. The modulation router (44_mod_router.md): PARAM_MOD R242 and NOTE_EXPR R243, over the
address matching of R240 and R241. -/

namespace Sys2Proof.Machine

variable {α : Type} [Add α] [Sub α] [Mul α] [Div α] [Neg α] [LT α] [LE α] [DecidableLT α]
  [DecidableLE α] [NatCast α] [IntCast α] [∀ n, OfNat α n]

/-- The write of one pitch term and the recomputation it asks for (44_mod_router.md R242). -/
def modPitch (N : NumOps α) (srInv : α) (v : Over.Voice α) : Except FaultCode (Over.Voice α) :=
  ifFinite N (pitchArith N srInv v) (.ok (recalcPitch N srInv v))

/-- The write of one modulation slot and the recomputation it asks for (44_mod_router.md R242); none
for a parameter without a slot (30_encoding.md R98). -/
def modVoice (N : NumOps α) (c : Over.Params α) (srInv : α) (p : ParamId) (x : α) :
    Option (Over.Voice α → Except FaultCode (Over.Voice α)) :=
  match p with
  | .unisonSpread => some fun v => modPitch N srInv { v with spreadMod := x }
  | .oscDetune => some fun v => modPitch N srInv { v with detuneMod := x }
  | .preFilterVca => some fun v => .ok { v with vcaMod := x }
  | .cutoff => some fun v => recalcFilter N c srInv { v with cutoffMod := x }
  | .resonance => some fun v => recalcFilter N c srInv { v with resMod := x }
  | .unisonCount => none
  | .ampAttack => none
  | .ampRelease => none
  | .ampEnvBypass => none
  | .filterMode => none

/-- PARAM_MOD (44_mod_router.md R242): the addressed playing voices; an id without a slot has no
effect. -/
def paramModRule (N : NumOps α) (c : Over.Params α) (p : Byte) (a : Addr) (w : Word) (e : Over.Engine α) :
    Except FaultCode (Over.Engine α) :=
  match (paramIdOf p).bind (fun id => modVoice N c e.srInv id (toNum N w)) with
  | none => .ok e
  | some f =>
    match forVoices (onPlaying (fun v => addressed true (addrIdent a) v.ident) f) e.voices with
    | .error code => .error code
    | .ok vs => .ok { e with voices := vs }

/-- The write of one expression slot (44_mod_router.md R243). -/
def exprVoice (N : NumOps α) (srInv : α) (x : ExprId) (val : α) (v : Over.Voice α) : Over.Voice α :=
  match x with
  | .volume => { v with volExpr := val }
  | .tuning => recalcPitch N srInv { v with tuningExpr := val }

/-- The values that writing an expression slot computes (44_mod_router.md R243). -/
def exprArith (N : NumOps α) (srInv : α) (x : ExprId) (val : α) (v : Over.Voice α) : List α :=
  match x with
  | .volume => []
  | .tuning => pitchArith N srInv { v with tuningExpr := val }

/-- NOTE_EXPR (44_mod_router.md R243): the addressed playing voices, the note-id ignored (R241); an
unlisted id has no effect. -/
def noteExprRule (N : NumOps α) (x : Byte) (a : Addr) (w : Word) (e : Over.Engine α) :
    Except FaultCode (Over.Engine α) :=
  let sel := fun v : Over.Voice α => addressed false (addrIdent a) v.ident
  match exprIdOf x with
  | none => .ok e
  | some id =>
    ifFinite N (playingArith sel (exprArith N e.srInv id (toNum N w)) e.voices)
      (.ok { e with voices := e.voices.map (updPlaying sel (exprVoice N e.srInv id (toNum N w))) })

/-- PARAM_MOD p, a, v (44_mod_router.md R242), for any NUM and parameters. -/
def paramModWith (N : NumOps α) (c : Over.Params α) (p : Byte) (a : Addr) (v : Word) (s : Over.State α) :
    Host.Outcome (Over.State α) Fault Refusal :=
  runEngine N (.paramMod p a v) (paramModRule N c p a v) s

/-- PARAM_MOD p, a, v (44_mod_router.md R242). -/
def execParamMod (p : Byte) (a : Addr) (v : Word) (s : State) : Host.Outcome State Fault Refusal :=
  paramModWith ratNum params p a v s

/-- NOTE_EXPR e, a, v (44_mod_router.md R243), for any NUM and parameters. -/
def noteExprWith (N : NumOps α) (_c : Over.Params α) (e : Byte) (a : Addr) (v : Word) (s : Over.State α) :
    Host.Outcome (Over.State α) Fault Refusal :=
  runEngine N (.noteExpr e a v) (noteExprRule N e a v) s

/-- NOTE_EXPR e, a, v (44_mod_router.md R243). -/
def execNoteExpr (e : Byte) (a : Addr) (v : Word) (s : State) : Host.Outcome State Fault Refusal :=
  noteExprWith ratNum params e a v s

end Sys2Proof.Machine
end

