-- ==== Sys2Proof/Machine/Scheduler.lean ====
section
/-! DEFINITION. The scheduler (43_scheduler.md): SET_SAMPLE_RATE R221, TICK R222 and R223, END_BLOCK R224
to R226, PARAM_SET R227, PARAM_WRITE R228 and MIDI R230 to R234. -/

namespace Sys2Proof.Machine

variable {α : Type} [Add α] [Sub α] [Mul α] [Div α] [Neg α] [LT α] [LE α] [DecidableLT α]
  [DecidableLE α] [NatCast α] [IntCast α] [∀ n, OfNat α n]

/-! ### Sample rate -/

/-- SET_SAMPLE_RATE (43_scheduler.md R221): every voice is recomputed, whatever its ENV, in index order, each
pitch before its filter. -/
def setSampleRateRule (N : NumOps α) (c : Over.Params α) (w : Word) (e : Over.Engine α) :
    Except FaultCode (Over.Engine α) :=
  let sr := toNum N w
  ifFinite N [sr]
    (if ¬ (0 < sr) then .error .badSampleRate
    else
      let srInv := 1 / sr
      ifFinite N [srInv]
        (match forVoices (recalcBoth N c srInv) e.voices with
        | .error code => .error code
        | .ok vs => .ok { e with srInv := srInv, activated := true, voices := vs }))

/-- SET_SAMPLE_RATE sr (43_scheduler.md R221), for any NUM and parameters. -/
def setSampleRateWith (N : NumOps α) (c : Over.Params α) (sr : Word) (s : Over.State α) :
    Host.Outcome (Over.State α) Fault Refusal :=
  runEngine N (.setSampleRate sr) (setSampleRateRule N c sr) s

/-- SET_SAMPLE_RATE sr (43_scheduler.md R221). -/
def execSetSampleRate (sr : Word) (s : State) : Host.Outcome State Fault Refusal :=
  setSampleRateWith ratNum params sr s

/-! ### Rendering -/

/-- The accumulator of a frame: OUT_CHANNELS zeros (43_scheduler.md R223). -/
def zeroFrame (c : Over.Params α) : Over.Frame α := List.replicate c.outChannels 0

/-- `accumulate(acc, l, r)` (43_scheduler.md R223): a stereo frame keeps L and R, a mono frame takes
their mean, any other width stays as it is. -/
def accumulate (acc : Over.Frame α) (l r : α) : Over.Frame α :=
  match acc with
  | [aL, aR] => [aL + l, aR + r]
  | [aM] => [aM + (l + r) / 2]
  | _ => acc

/-- The loop of TICK over the voices: the stepped voices and the summed frame (43_scheduler.md R222). -/
def stepVoices (N : NumOps α) (c : Over.Params α) (srInv : α) :
    List (Over.Voice α) → Over.Frame α → Except FaultCode (List (Over.Voice α) × Over.Frame α)
  | [], acc => .ok ([], acc)
  | v :: vs, acc =>
    if isPlaying v then
      match voiceStep N c srInv v with
      | .error code => .error code
      | .ok o =>
        match stepVoices N c srInv vs (accumulate acc o.2.1 o.2.2) with
        | .error code => .error code
        | .ok r => .ok (o.1 :: r.1, r.2)
    else
      match stepVoices N c srInv vs acc with
      | .error code => .error code
      | .ok r => .ok (v :: r.1, r.2)

/-- TICK (43_scheduler.md R222). -/
def tickRule (N : NumOps α) (c : Over.Params α) (e : Over.Engine α) :
    Except FaultCode (Over.Engine α) :=
  if e.activated then
    match stepVoices N c e.srInv e.voices (zeroFrame c) with
    | .error code => .error code
    | .ok r =>
      .ok { e with
        voices := r.1
        tickInBlock := e.tickInBlock + 1
        audioOut := e.audioOut ++ [r.2] }
  else .error .notActivated

/-- TICK (43_scheduler.md R222), for any NUM and parameters. -/
def tickWith (N : NumOps α) (c : Over.Params α) (s : Over.State α) :
    Host.Outcome (Over.State α) Fault Refusal :=
  runEngine N .tick (tickRule N c) s

/-- TICK (43_scheduler.md R222). -/
def execTick (s : State) : Host.Outcome State Fault Refusal :=
  tickWith ratNum params s

/-! ### End of block -/

/-- The time stamp of a block's note-ends (43_scheduler.md R225): the last sample index, or 0. -/
def blockStamp (e : Over.Engine α) : Nat := e.tickInBlock - 1

/-- Reaping one voice (43_scheduler.md R224). -/
def reapVoice (v : Over.Voice α) :
    Over.Voice α := if v.env = .newlyOff then { v with env := .off } else v

/-- The records of an END_BLOCK: the stolen identities in order, then the NEWLY_OFF voices in index
order (43_scheduler.md R224). -/
def blockRecords (e : Over.Engine α) : List NoteEnd :=
  e.terminated.map (fun i => ⟨i, blockStamp e⟩)
    ++ (e.voices.filter (fun v => v.env == .newlyOff)).map (fun v => ⟨v.ident, blockStamp e⟩)

/-- END_BLOCK (43_scheduler.md R224 to R226). -/
def endBlockRule (e : Over.Engine α) : Except FaultCode (Over.Engine α) :=
  .ok { e with
    noteEndFifo := e.noteEndFifo ++ blockRecords e
    voices := e.voices.map reapVoice
    terminated := []
    tickInBlock := 0
    polyCount := playingCount (e.voices.map reapVoice) }

/-- END_BLOCK (43_scheduler.md R224 to R226), for any NUM and parameters. -/
def endBlockWith (N : NumOps α) (_c : Over.Params α) (s : Over.State α) :
    Host.Outcome (Over.State α) Fault Refusal :=
  runEngine N .endBlock endBlockRule s

/-- END_BLOCK (43_scheduler.md R224 to R226). -/
def execEndBlock (s : State) : Host.Outcome State Fault Refusal :=
  endBlockWith ratNum params s

/-! ### Parameter commands -/

/-- PARAM_SET (43_scheduler.md R227): write and push; an unlisted id has no effect and no fault
(60_exceptions.md R276). -/
def paramSetRule (N : NumOps α) (c : Over.Params α) (p : Byte) (w : Word) (e : Over.Engine α) :
    Except FaultCode (Over.Engine α) :=
  match paramIdOf p with
  | some id =>
    ifFinite N [toNum N w] (pushParamsRule N c { e with p := setParam e.p id (toNum N w) })
  | none => .ok e

/-- PARAM_WRITE (43_scheduler.md R228): write only; an unlisted id has no effect and no fault
(60_exceptions.md R276). -/
def paramWriteRule (N : NumOps α) (p : Byte) (w : Word) (e : Over.Engine α) :
    Except FaultCode (Over.Engine α) :=
  match paramIdOf p with
  | some id => ifFinite N [toNum N w] (.ok { e with p := setParam e.p id (toNum N w) })
  | none => .ok e

/-- PARAM_SET p, v (43_scheduler.md R227), for any NUM and parameters. -/
def paramSetWith (N : NumOps α) (c : Over.Params α) (p : Byte) (v : Word) (s : Over.State α) :
    Host.Outcome (Over.State α) Fault Refusal :=
  runEngine N (.paramSet p v) (paramSetRule N c p v) s

/-- PARAM_SET p, v (43_scheduler.md R227). -/
def execParamSet (p : Byte) (v : Word) (s : State) : Host.Outcome State Fault Refusal :=
  paramSetWith ratNum params p v s

/-- PARAM_WRITE p, v (43_scheduler.md R228), for any NUM and parameters. -/
def paramWriteWith (N : NumOps α) (_c : Over.Params α) (p : Byte) (v : Word) (s : Over.State α) :
    Host.Outcome (Over.State α) Fault Refusal :=
  runEngine N (.paramWrite p v) (paramWriteRule N p v) s

/-- PARAM_WRITE p, v (43_scheduler.md R228). -/
def execParamWrite (p : Byte) (v : Word) (s : State) : Host.Outcome State Fault Refusal :=
  paramWriteWith ratNum params p v s

/-! ### Raw MIDI -/

/-- The identity of a MIDI note message (43_scheduler.md R231, R232): the status byte's low nibble is
the channel, DATA1 the key, and there is no note-id. -/
def midiIdent (status data1 : Byte) (port : BitVec 16) : Identity :=
  ⟨port.toInt, (status.toNat % 16 : Nat), (data1.toNat : Nat), -1⟩

/-- The pitch-bend offset in semitones (43_scheduler.md R233). -/
def bendSemis (c : Over.Params α) (data1 data2 : Byte) : α :=
  ((((data2.toNat * 128 + data1.toNat : Nat) : Int) - 8192 : Int) : α) / 8192 * c.bendRangeSemis

/-- `midiBend(d1, d2)`: every playing voice (43_scheduler.md R233). -/
def bendNotes (N : NumOps α) (semis : α) (e : Over.Engine α) : Over.Engine α :=
  { e with
    voices := e.voices.map
      (updPlaying (fun _ => true) (fun v => recalcPitch N e.srInv { v with bend := semis })) }

/-- The values that `midiBend(d1, d2)` computes in the playing voices (43_scheduler.md R233). -/
def bendArith (N : NumOps α) (semis : α) (e : Over.Engine α) : List α :=
  playingArith (fun _ => true) (fun v => pitchArith N e.srInv { v with bend := semis }) e.voices

/-- MIDI (43_scheduler.md R230 to R234). -/
def midiRule (N : NumOps α) (c : Over.Params α) (status data1 data2 : Byte) (port : BitVec 16) (e : Over.Engine α) :
    Except FaultCode (Over.Engine α) :=
  if status.toNat < 0x80 ∨ 0x80 ≤ data1.toNat ∨ 0x80 ≤ data2.toNat then .ok e
  else if status.toNat / 16 = 0x9 ∧ 0 < data2.toNat then
    startNote N c (midiIdent status data1 port) e
  else if status.toNat / 16 = 0x8 ∨ status.toNat / 16 = 0x9 then
    .ok (releaseNotes (midiIdent status data1 port) e)
  else if status.toNat / 16 = 0xE then
    let semis := bendSemis c data1 data2
    ifFinite N (bendArith N semis e) (.ok (bendNotes N semis e))
  else .ok e

/-- MIDI port, status, data1, data2 (43_scheduler.md R230 to R234), for any NUM and parameters. -/
def midiWith (N : NumOps α) (c : Over.Params α) (status data1 data2 : Byte) (port : BitVec 16) (s : Over.State α) :
    Host.Outcome (Over.State α) Fault Refusal :=
  runEngine N (.midi status data1 data2 port) (midiRule N c status data1 data2 port) s

/-- MIDI port, status, data1, data2 (43_scheduler.md R230 to R234). -/
def execMidi (status data1 data2 : Byte) (port : BitVec 16) (s : State) :
    Host.Outcome State Fault Refusal :=
  midiWith ratNum params status data1 data2 port s

end Sys2Proof.Machine
end

