-- ==== Sys2Proof/Machine/Model.lean ====
section
/-! DEFINITION. The model with its OPEN parameters as arguments: NUM's carrier α and operations N, and the
parameters c (00_scope.md R6, "each OPEN parameter is one named argument of the model"). `exec` and `step`
are `execWith` and `stepWith` at the values the model is instantiated with. -/

namespace Sys2Proof.Machine

variable {α : Type} [Add α] [Sub α] [Mul α] [Div α] [Neg α] [LT α] [LE α] [DecidableLT α]
  [DecidableLE α] [NatCast α] [IntCast α] [∀ n, OfNat α n]

/-- What an instruction does, for any NUM and parameters. -/
def execWith (N : NumOps α) (c : Over.Params α) (i : Instr) (s : Over.State α) :
    Host.Outcome (Over.State α) Fault Refusal :=
  match i with
  | .setSampleRate sr => setSampleRateWith N c sr s
  | .tick => tickWith N c s
  | .endBlock => endBlockWith N c s
  | .noteOn a => noteOnWith N c a s
  | .noteOff a => noteOffWith N c a s
  | .midi status data1 data2 port => midiWith N c status data1 data2 port s
  | .paramSet p v => paramSetWith N c p v s
  | .paramWrite p v => paramWriteWith N c p v s
  | .pushParams => pushParamsWith N c s
  | .paramMod p a v => paramModWith N c p a v s
  | .noteExpr e a v => noteExprWith N c e a v s
  | .fltSetCoef key res srInv => fltSetCoefWith N c key res srInv s
  | .fltSetMode m => fltSetModeWith N c m s
  | .fltProcess l r => fltProcessWith N c l r s
  | .fltReset => fltResetWith N c s

/-- One packet of port p, if it has one: the fault of a packet whose decode fails, or the instruction
run with its words consumed; none while the port holds or is stuck. -/
def stepPort (run : Instr → Over.State α → Host.Outcome (Over.State α) Fault Refusal) (p : Port)
    (s : Over.State α) : Option (Host.Outcome (Over.State α) Fault Refusal) :=
  match fetchPort p s with
  | .hold => none
  | .reject e h n => some (.next (raiseFault p (decodeErrorCode e) h (consume p n s)))
  | .packet i n => some (run i (consume p n s))

/-- One step: a packet of the port whose turn it is, else of the other port, else nothing, for "between
commands the engine is idle and keeps all its state" (60_exceptions.md R275; log 8, 9). A parameter set
that breaks R7 has no meaning (00_scope.md R7). -/
def stepBy (valid : Bool) (run : Instr → Over.State α → Host.Outcome (Over.State α) Fault Refusal)
    (s : Over.State α) : Host.Outcome (Over.State α) Fault Refusal :=
  if valid then
    match stepPort run s.turn s with
    | some o => o
    | none =>
      match stepPort run (otherPort s.turn) s with
      | some o => o
      | none => .next s
  else .refused .badParameters

/-- One step, for any NUM and parameters. -/
def stepWith (N : NumOps α) (c : Over.Params α) (s : Over.State α) :
    Host.Outcome (Over.State α) Fault Refusal :=
  stepBy (paramsValid c) (execWith N c) s

end Sys2Proof.Machine
end

