-- ==== Sys2Proof/Machine/Dispatch.lean ====
section
/-! DEFINITION. The meaning of every instruction, one arm per constructor (30_encoding.md R91), at the
values the model is instantiated with: `execWith ratNum params` (Machine/Model.lean). -/

namespace Sys2Proof.Machine

/-- What an instruction does. -/
def exec (i : Instr) (s : State) : Host.Outcome State Fault Refusal :=
  match i with
  | .setSampleRate sr => Sys2Proof.Machine.execSetSampleRate sr s
  | .tick => Sys2Proof.Machine.execTick s
  | .endBlock => Sys2Proof.Machine.execEndBlock s
  | .noteOn a => Sys2Proof.Machine.execNoteOn a s
  | .noteOff a => Sys2Proof.Machine.execNoteOff a s
  | .midi status data1 data2 port => Sys2Proof.Machine.execMidi status data1 data2 port s
  | .paramSet p v => Sys2Proof.Machine.execParamSet p v s
  | .paramWrite p v => Sys2Proof.Machine.execParamWrite p v s
  | .pushParams => Sys2Proof.Machine.execPushParams s
  | .paramMod p a v => Sys2Proof.Machine.execParamMod p a v s
  | .noteExpr e a v => Sys2Proof.Machine.execNoteExpr e a v s
  | .fltSetCoef key res srInv => Sys2Proof.Machine.execFltSetCoef key res srInv s
  | .fltSetMode m => Sys2Proof.Machine.execFltSetMode m s
  | .fltProcess l r => Sys2Proof.Machine.execFltProcess l r s
  | .fltReset => Sys2Proof.Machine.execFltReset s

end Sys2Proof.Machine
end

