-- ==== Sys2Proof/Machine/Step.lean ====
section
/-! DEFINITION. One step of the block: one packet of one port (20_memory.md R71, 30_encoding.md R92). -/

namespace Sys2Proof.Machine

/-- One step, at the values the model is instantiated with. -/
def step (s : State) : Host.Outcome State Fault Refusal := stepBy (paramsValid params) exec s

/-- The state with the packet that starts with the word w (its bits above `nbits` zero) in the buffer of
its port, and that port's turn: the next step fetches and runs it (log 12). -/
def State.withFetchWord (s : State) (nbits w : Nat) : State :=
  { setPortBytes (tablePort nbits w) (tableBytes nbits w) s with turn := tablePort nbits w }

end Sys2Proof.Machine
end

