-- ==== Sys2Proof/Safety.lean ====
section
/-! DEFINITION. What counts as a safe run (no fault recorded), the invariant that a block running from
reset keeps (ranges of the voice fields, the meaning of the filter coefficients, the size of the voice
array and of a voice's slots), and the terms statements are made in. -/

namespace Sys2Proof.Machine

/-- No fault is recorded: the premise of every claim about a run (60_exceptions.md R263). -/
def State.NoFault (s : State) : Prop := s.engine.fault = none ∧ s.filter.fault = none

/-- The coefficients of a unit that has them are those of one g and one k (40_filter_unit.md R124), with
0 ≤ g and 0 < k < 2 (R123), so that A1 is finite and positive. -/
def Over.FilterUnit.Sound (fu : Over.FilterUnit Num) : Prop :=
  fu.coefValid = true →
    0 ≤ fu.g ∧ 0 < fu.k ∧ fu.k < 2 ∧ fu.a1 * (1 + fu.g * (fu.g + fu.k)) = 1 ∧
      0 < fu.a1 ∧ fu.a1 ≤ 1 ∧ fu.a2 = fu.g * fu.a1 ∧ fu.a3 = fu.g * fu.a2

/-- The ranges of the identity fields (10_state.md R41). -/
def Identity.InRange (i : Identity) : Prop :=
  -32768 ≤ i.port ∧ i.port ≤ 32767 ∧ -1 ≤ i.chan ∧ i.chan ≤ 15 ∧ -1 ≤ i.key ∧ i.key ≤ 127 ∧
    -2147483648 ≤ i.noteId ∧ i.noteId ≤ 2147483647

/-- The ranges of a voice's fields (00_scope.md R14; 10_state.md R41, R43, R44), its two mode fields in
step (41_voice.md R153, 42_voice_pool.md R197), and its filter record. -/
def Over.Voice.Sound (v : Over.Voice Num) : Prop :=
  v.ident.InRange ∧ 1 ≤ v.unison ∧ v.unison ≤ maxUnison ∧ v.slots.length = maxUnison ∧
    (∀ sl ∈ v.slots, 0 ≤ sl.phase ∧ sl.phase < 1) ∧
    0 ≤ v.t ∧ 0 ≤ v.level ∧ v.level ≤ 1 ∧ 0 ≤ v.releaseFrom ∧ v.releaseFrom ≤ 1 ∧
    v.flt.mode = v.mode ∧ v.flt.Sound

/-- The voice can be stepped: its filter has coefficients, and every active copy has a positive phase
increment (41_voice.md R163, R167). -/
def Over.Voice.Ready (v : Over.Voice Num) : Prop :=
  v.flt.coefValid = true ∧ ∀ i sl, i < v.unison → v.slots[i]? = some sl → 0 < sl.dphase

/-- The invariant of the engine port's state (00_scope.md R13; 10_state.md R34 to R36; 41_voice.md R163,
R167). -/
def Over.Engine.Sound (e : Over.Engine Num) : Prop :=
  e.voices.length = nVoices ∧ (∀ v ∈ e.voices, v.Sound) ∧
    0 ≤ e.srInv ∧ (e.activated = true ↔ 0 < e.srInv) ∧ e.polyCount ≤ nVoices ∧
    (e.activated = true → ∀ v ∈ e.voices, v.Ready)

/-- The fault registers hold codes that their own port can raise (60_exceptions.md R261). -/
def State.FaultCodesSound (s : State) : Prop :=
  (∀ r, s.engine.fault = some r → r.code ≠ .filterNotConfigured) ∧
    (∀ r, s.filter.fault = some r → r.code ≠ .notActivated ∧ r.code ≠ .arithDomain)

/-- The invariant of the block. -/
def State.Inv (s : State) : Prop :=
  s.engine.Sound ∧ s.filter.fu0.Sound ∧ s.FaultCodesSound

/-! ### The terms statements are made in

Written from the rules again, over the state's fields and NUM's operations (clamp, wrap, snap, exp2, tan,
sqrt), not over the meanings' own helpers. -/

/-- The identity an instruction activates a voice with: NOTE_ON (42_voice_pool.md R192) and a MIDI
note-on (43_scheduler.md R230, R231). -/
def noteStarted (i : Instr) : Option Identity :=
  match i with
  | .noteOn a => some ⟨a.port.toInt, a.chan.toInt, a.key.toInt, a.noteId.toInt⟩
  | .midi st d1 d2 port =>
    if 0x90 ≤ st.toNat ∧ st.toNat < 0xA0 ∧ d1.toNat < 0x80 ∧ 0 < d2.toNat ∧ d2.toNat < 0x80 then
      some ⟨port.toInt, (st.toNat - 0x90 : Nat), (d1.toNat : Nat), -1⟩
    else none
  | _ => none

/-- The address an instruction releases voices by: NOTE_OFF (42_voice_pool.md R196) and a MIDI note-off
(43_scheduler.md R230, R232). -/
def noteReleased (i : Instr) : Option Identity :=
  match i with
  | .noteOff a => some ⟨a.port.toInt, a.chan.toInt, a.key.toInt, a.noteId.toInt⟩
  | .midi st d1 d2 port =>
    if 0x80 ≤ st.toNat ∧ st.toNat < 0x90 ∧ d1.toNat < 0x80 ∧ d2.toNat < 0x80 then
      some ⟨port.toInt, (st.toNat - 0x80 : Nat), (d1.toNat : Nat), -1⟩
    else if 0x90 ≤ st.toNat ∧ st.toNat < 0xA0 ∧ d1.toNat < 0x80 ∧ d2.toNat = 0 then
      some ⟨port.toInt, (st.toNat - 0x90 : Nat), (d1.toNat : Nat), -1⟩
    else none
  | _ => none

/-- A voice that plays: ATTACK, HOLD or RELEASING (41_voice.md R151). -/
def Playing (v : Voice) : Prop := v.env = .attack ∨ v.env = .hold ∨ v.env = .releasing

/-- The address matching of 44_mod_router.md R240. -/
def Reaches (useNoteId : Bool) (a : Identity) (v : Voice) : Prop :=
  if useNoteId = true ∧ 0 ≤ a.noteId then v.ident.noteId = a.noteId
  else if 0 ≤ a.port ∧ 0 ≤ a.chan ∧ 0 ≤ a.key then
    v.ident.port = a.port ∧ v.ident.chan = a.chan ∧ v.ident.key = a.key
  else True

/-- The legal ADDR words of 30_encoding.md R96. -/
def LegalAddr (a : Addr) : Prop :=
  -1 ≤ a.port.toInt ∧ -1 ≤ a.chan.toInt ∧ a.chan.toInt ≤ 15 ∧ -1 ≤ a.key.toInt

/-- A finite VALUE word: bits [62:52] are not all ones (60_exceptions.md R266). -/
def FiniteWord (w : Word) : Prop := w.extractLsb' 52 11 ≠ 0x7FF#11

/-- The value a finite word spells (00_scope.md R10): sign in bit 63, exponent in bits 62..52, fraction in
bits 51..0; an exponent of 0 spells a subnormal or a zero. -/
def wordValue (w : Word) : Num :=
  let e := (w.extractLsb' 52 11).toNat
  let f := (w.extractLsb' 0 52).toNat
  (if w.getLsbD 63 then -1 else 1) *
    (if e = 0 then (f : Num) * 2 ^ (-1074 : Int) else (2 ^ 52 + (f : Num)) * 2 ^ ((e : Int) - 1075))

/-- The index of the voice a note start activates: the lowest OFF one (42_voice_pool.md R191), else the one
STEAL_CHOICE draws, the host's next draw or a free value (R195; log 6). -/
def startIndex (e : Engine) : Nat :=
  match e.voices.findIdx? (fun v => v.env == .off) with
  | some j => j
  | none =>
    match e.stealDraws with
    | d :: _ => d.val
    | [] => (Config.freeStealChoice e.stealCount).val

/-- The identity in an ADDR word (30_encoding.md R88). -/
def identOf (a : Addr) : Identity := ⟨a.port.toInt, a.chan.toInt, a.key.toInt, a.noteId.toInt⟩

/-- The clamped cutoff frequency (40_filter_unit.md R122). -/
def cutoffFreq (key : Num) : Num :=
  clamp (440 * exp2 ((key - 69) / 12)) params.cutoffHzMin params.cutoffHzMax

/-- x, rounded to e decimals, is n / 10^e: how 95_test_vectors.md writes a value that is not exact. -/
def RoundsTo (x : Num) (n e : Nat) : Prop :=
  (n : Num) / 10 ^ e - 1 / (2 * 10 ^ e) ≤ x ∧ x ≤ (n : Num) / 10 ^ e + 1 / (2 * 10 ^ e)

/-- A filter record with the coefficients of 40_filter_unit.md R123 and R124. -/
def coefficientsSet (key res srInv : Num) (fu : FilterUnit) : FilterUnit :=
  let g := tan (pi * cutoffFreq key * srInv)
  let k := 2 - 2 * clamp res params.resMin params.resMax
  { fu with
    g := g, k := k, a1 := 1 / (1 + g * (g + k)), a2 := g * (1 / (1 + g * (g + k)))
    a3 := g * (g * (1 / (1 + g * (g + k)))), coefValid := true }

/-- A recomputed filter: coefficients once there is a sample rate (41_voice.md R157). -/
def filterRecomputed (key res srInv : Num) (fu : FilterUnit) : FilterUnit :=
  if 0 < srInv then coefficientsSet key res srInv fu else fu

/-- recalcFilter has nothing to fault on: no sample rate yet, or a stable cutoff (40_filter_unit.md R121,
41_voice.md R157). -/
def CutoffStable (key srInv : Num) : Prop := 0 < srInv → cutoffFreq key * srInv < 1 / 2

/-- A filter record in mode m, the integrators cleared if the mode changed (40_filter_unit.md R125,
R126). -/
def modeSet (m : FilterMode) (fu : FilterUnit) : FilterUnit :=
  if m = fu.mode then fu else { fu with mode := m, left := ⟨0, 0⟩, right := ⟨0, 0⟩ }

/-- The phase increment of copy i of voice v (41_voice.md R156). -/
def increment (v : Voice) (srInv : Num) (i : Nat) : Num :=
  let sp := v.spreadBase + v.spreadMod
  let off := if v.unison = 1 then 0 else sp * (2 * (i : Num) / ((v.unison : Num) - 1) - 1)
  let pitch := (v.ident.key : Num) + v.bend + v.tuningExpr + v.detuneBase + v.detuneMod + off
  440 * exp2 ((pitch - 69) / 12) * srInv

/-- The voice with every active copy's increment recomputed, all else as it is (41_voice.md R156). -/
def Repitched (srInv : Num) (v w : Voice) : Prop :=
  w = { v with slots := w.slots } ∧ w.slots.length = v.slots.length ∧
    ∀ i sl, v.slots[i]? = some sl →
      w.slots[i]? = some (if i < v.unison then { sl with dphase := increment v srInv i } else sl)

/-- The push of the parameters P into a voice (41_voice.md R158, 42_voice_pool.md R197). -/
def Pushed (p : ParamFile) (srInv : Num) (v w : Voice) : Prop :=
  ∃ m : FilterMode, (filterModeNumber m : Int) = snap ratNum p.filterMode 0 5 ∧
    Repitched srInv
      { v with
        spreadBase := p.unisonSpread, detuneBase := p.oscDetune, attackTime := p.ampAttack
        releaseTime := p.ampRelease, bypass := decide (1 / 2 ≤ p.ampEnvBypass)
        vcaBase := p.preFilterVca, cutoffBase := p.cutoff, resBase := p.resonance, mode := m
        flt := filterRecomputed (p.cutoff + v.cutoffMod) (p.resonance + v.resMod) srInv
          (modeSet m v.flt) } w

/-- The activation of a voice with an identity (41_voice.md R153, R154, R156, R157, R158). -/
def Activated (p : ParamFile) (srInv : Num) (ident : Identity) (v w : Voice) : Prop :=
  ∃ (m : FilterMode) (u : Nat) (sls : List Slot),
    (filterModeNumber m : Int) = snap ratNum p.filterMode 0 5 ∧ (u : Int) = snap ratNum p.unisonCount 1 7 ∧
    sls.length = v.slots.length ∧
    (∀ i sl, sls[i]? = some sl →
      (i < u → sl.phase = params.initPhase i u ∧
        sl.panL = min 1 (1 - (if u = 1 then 0 else 2 * (i : Num) / ((u : Num) - 1) - 1)) ∧
        sl.panR = min 1 (1 + (if u = 1 then 0 else 2 * (i : Num) / ((u : Num) - 1) - 1))) ∧
      (u ≤ i → sl = ⟨0, 0, 0, 0⟩)) ∧
    Repitched srInv
      { ident := ident, env := if p.ampAttack ≤ 0 then .hold else .attack, unison := u
        norm := 1 / sqrt (u : Num), slots := sls, t := 0
        level := if p.ampAttack ≤ 0 then 1 else 0, releaseFrom := if p.ampAttack ≤ 0 then 1 else 0
        attackTime := p.ampAttack, releaseTime := p.ampRelease
        bypass := decide (1 / 2 ≤ p.ampEnvBypass), spreadBase := p.unisonSpread
        detuneBase := p.oscDetune, vcaBase := p.preFilterVca, cutoffBase := p.cutoff
        resBase := p.resonance, mode := m, spreadMod := 0, detuneMod := 0, vcaMod := 0
        cutoffMod := 0, resMod := 0, volExpr := 0, tuningExpr := 0, bend := 0
        flt := filterRecomputed p.cutoff p.resonance srInv
          { v.flt with mode := m, left := ⟨0, 0⟩, right := ⟨0, 0⟩ } } w

/-- A released voice (41_voice.md R168). -/
def released (v : Voice) : Voice :=
  if v.env = .attack ∨ v.env = .hold then
    if v.releaseTime ≤ 0 then { v with releaseFrom := v.level, t := 0, env := .newlyOff, level := 0 }
    else { v with releaseFrom := v.level, t := 0, env := .releasing }
  else v

/-- The envelope transitions of 41_voice.md R152, from v to w, by an instruction in a state. -/
def EnvMoves (i : Instr) (e : Engine) (v w : Voice) : Prop :=
  match v.env, w.env with
  | .off, .attack => (noteStarted i).isSome = true ∧ 0 < e.p.ampAttack
  | .off, .hold => (noteStarted i).isSome = true ∧ e.p.ampAttack ≤ 0
  | .attack, .hold =>
    (i = .tick ∧ v.attackTime ≤ v.t + e.srInv) ∨
      ((noteStarted i).isSome = true ∧ (∀ u ∈ e.voices, u.env ≠ .off) ∧ e.p.ampAttack ≤ 0)
  | .hold, .attack =>
    (noteStarted i).isSome = true ∧ (∀ u ∈ e.voices, u.env ≠ .off) ∧ 0 < e.p.ampAttack
  | .releasing, .attack =>
    (noteStarted i).isSome = true ∧ (∀ u ∈ e.voices, u.env ≠ .off) ∧ 0 < e.p.ampAttack
  | .releasing, .hold =>
    (noteStarted i).isSome = true ∧ (∀ u ∈ e.voices, u.env ≠ .off) ∧ e.p.ampAttack ≤ 0
  | .newlyOff, .attack =>
    (noteStarted i).isSome = true ∧ (∀ u ∈ e.voices, u.env ≠ .off) ∧ 0 < e.p.ampAttack
  | .newlyOff, .hold =>
    (noteStarted i).isSome = true ∧ (∀ u ∈ e.voices, u.env ≠ .off) ∧ e.p.ampAttack ≤ 0
  | .attack, .releasing => (noteReleased i).isSome = true ∧ 0 < v.releaseTime
  | .hold, .releasing => (noteReleased i).isSome = true ∧ 0 < v.releaseTime
  | .attack, .newlyOff => (noteReleased i).isSome = true ∧ v.releaseTime ≤ 0
  | .hold, .newlyOff => (noteReleased i).isSome = true ∧ v.releaseTime ≤ 0
  | .releasing, .newlyOff => i = .tick ∧ v.releaseTime ≤ v.t + e.srInv
  | .newlyOff, .off => i = .endBlock
  | _, _ => False

/-- The identities a note-end is owed for or has been given for and not yet drained: those of the voices
that are not OFF, the stolen ones, and the records in NOTE_END_FIFO (42_voice_pool.md R190). -/
def noteEndsOwed (e : Engine) : List Identity :=
  (e.voices.filter (fun v => v.env != .off)).map Over.Voice.ident ++ e.terminated ++
    e.noteEndFifo.map NoteEnd.ident

/-- The integrators of one filter lane after the input x (40_filter_unit.md R127). -/
def laneAfter (fu : FilterUnit) (ln : Lane) (x : Num) : Lane :=
  ⟨2 * (fu.a1 * ln.ic1 + fu.a2 * (x - ln.ic2)) - ln.ic1,
    2 * (ln.ic2 + fu.a2 * ln.ic1 + fu.a3 * (x - ln.ic2)) - ln.ic2⟩

/-- The output of one filter lane for the input x, v1 the bandpass and v2 the lowpass state output
(40_filter_unit.md R127, R128). -/
def laneOut (fu : FilterUnit) (ln : Lane) (x : Num) : Num :=
  let v1 := fu.a1 * ln.ic1 + fu.a2 * (x - ln.ic2)
  let v2 := ln.ic2 + fu.a2 * ln.ic1 + fu.a3 * (x - ln.ic2)
  match fu.mode with
  | .lowpass => v2
  | .bandpass => v1
  | .highpass => x - fu.k * v1 - v2
  | .notch => x - fu.k * v1
  | .peak => x - fu.k * v1 - 2 * v2
  | .allpass => x - 2 * fu.k * v1

/-- The band-limited saw at phase phi with increment d (41_voice.md R163). -/
def sawValue (phi d : Num) : Num :=
  let G := fun x : Num => (2 * x ^ 3 - 3 * x ^ 2 + x) / 6
  (G phi - 2 * G (wrap ratNum (phi - d)) + G (wrap ratNum (phi - 2 * d))) / d ^ 2

/-- The amplitude of a voice whose envelope has been stepped (41_voice.md R164). -/
def ampOf (c : Params) (w : Voice) : Num :=
  if w.bypass = false then w.level
  else if w.env = .attack ∨ w.env = .hold then 1
  else if w.env = .releasing then
    if w.t < (1 - c.bypassFadeFrac) * w.releaseTime then 1
    else clamp ((w.releaseTime - w.t) / (c.bypassFadeFrac * w.releaseTime)) 0 1
  else 0

/-- The unison mix of one channel times the pre-filter gain, from a voice whose envelope and phases have
been stepped (41_voice.md R162, R165, R166). -/
def filterInput (c : Params) (w : Voice) (pan : Slot → Num) : Num :=
  ((w.slots.take w.unison).map fun sl => sawValue sl.phase sl.dphase * w.norm * pan sl).sum *
    (ampOf c w * w.vcaBase * (1 + w.vcaMod + w.volExpr))

/-- The stereo output of a voice's sample, (0, 0) where the sample faults. -/
def sampleOf (c : Params) (srInv : Num) (v : Voice) : Num × Num :=
  match voiceStep ratNum c srInv v with
  | .ok o => o.2
  | .error _ => (0, 0)

end Sys2Proof.Machine
end

