-- ==== Sys2Proof/Certificates/Slice0/Obligations.lean ====
section
/-! DEFINITION. The statements about the engine, in the terms of Safety.lean. -/

open Sys2Proof Sys2Proof.Machine

/-! ### Reset and the invariant -/

/-- Every element of 10_state.md R30 at the value of 70_reset_and_hazards.md R290. -/
def Obligations.ResetLeavesSpecValues : Prop :=
  let fu : FilterUnit := ⟨0, 0, 0, 0, 0, false, .lowpass, ⟨0, 0⟩, ⟨0, 0⟩⟩
  let e := State.reset.engine
  e.p = ⟨3, 1 / 10, 0, 1 / 100, 2 / 10, 0, 1, 69, 7 / 10, 0⟩ ∧ e.srInv = 0 ∧ e.activated = false ∧
    e.polyCount = 0 ∧ e.terminated = [] ∧ e.noteEndFifo = [] ∧ e.fault = none ∧ e.tickInBlock = 0 ∧
    e.voices = List.replicate 64
      { ident := ⟨-1, -1, -1, -1⟩, env := .off, unison := 1, norm := 1
        slots := List.replicate 7 ⟨0, 0, 0, 0⟩, t := 0, level := 0, releaseFrom := 0
        attackTime := 0, releaseTime := 0, bypass := false, spreadBase := 0, detuneBase := 0
        vcaBase := 0, cutoffBase := 0, resBase := 0, mode := .lowpass, spreadMod := 0
        detuneMod := 0, vcaMod := 0, cutoffMod := 0, resMod := 0, volExpr := 0, tuningExpr := 0
        bend := 0, flt := fu } ∧
    e.inBytes = [] ∧ State.reset.filter.fu0 = fu ∧ State.reset.filter.fault = none ∧
    State.reset.filter.inBytes = []

/-- The invariant of Safety.lean holds at reset. -/
def Obligations.ResetMeetsInvariant : Prop := State.reset.Inv

/-- Every step from a state that meets the invariant gives one that does: 64 voices of 7 slots, field
ranges, coefficients that belong to one g and k, ACTIVATED exactly when SR_INV is positive, and every
voice ready to be stepped once activated (derived from 00_scope.md R13, R14; 10_state.md R34, R41 to R45,
R49; 41_voice.md R163, R167). -/
def Obligations.StepKeepsInvariant : Prop :=
  ∀ s t : State, s.Inv → step s = .next t → t.Inv

/-- With the invariant, an activated engine never fails a TICK: ARITH_DOMAIN cannot arise in this NUM,
"d > 0 whenever SR_INV > 0" (41_voice.md R163). It rests on exp2 never giving 0 (log 2). -/
def Obligations.TickNeverFaultsInInvariant : Prop :=
  ∀ s : State, s.Inv → s.engine.fault = none → s.engine.activated = true →
    ∃ t, exec .tick s = .next t ∧ t.engine.fault = none ∧
      t.engine.tickInBlock = s.engine.tickInBlock + 1

/-! ### Encoding, decoding, stepping -/

/-- Words of every row of R91, most of them written out in 95_test_vectors.md, decode to the commands they
stand for; and bytes do: a word's least significant byte comes first, and the header before the operands
(20_memory.md R74). -/
def Obligations.SpecWordsDecode : Prop :=
  decodeWords .engine [0x0000000000000001#64, 0x40E7700000000000#64]
      = .packet (.setSampleRate 0x40E7700000000000#64) 2 ∧
  decodeWords .engine [0x0000000000000002#64] = .packet .tick 1 ∧
  decodeWords .engine [0x0000000000000010#64, 0x4500000000000001#64]
      = .packet (.noteOn ⟨1#32, 0#16, 0#8, 69#8⟩) 2 ∧
  decodeWords .engine [0x0000006448930012#64] = .packet (.midi 0x93#8 0x48#8 0x64#8 0#16) 1 ∧
  decodeWords .engine [0x0000000000000721#64, 0x4069000000000000#64]
      = .packet (.paramWrite 7#8 0x4069000000000000#64) 2 ∧
  decodeWords .engine [0x0000000000000728#64, 0xFFFFFFFF00000002#64, 0x4028000000000000#64]
      = .packet (.paramMod 7#8 ⟨2#32, 0xFFFF#16, 0xFF#8, 0xFF#8⟩ 0x4028000000000000#64) 3 ∧
  decodeWords .filter [0x0000000000000231#64] = .packet (.fltSetMode 2#8) 1 ∧
  decodeWords .engine [0x0000000000000003#64] = .packet .endBlock 1 ∧
  decodeWords .engine [0x0000000000000011#64, 0x3C00000000000007#64]
      = .packet (.noteOff ⟨7#32, 0#16, 0#8, 60#8⟩) 2 ∧
  decodeWords .engine [0x0000000000000920#64, 0x4000000000000000#64]
      = .packet (.paramSet 9#8 0x4000000000000000#64) 2 ∧
  decodeWords .engine [0x0000000000000022#64] = .packet .pushParams 1 ∧
  decodeWords .engine [0x0000000000000129#64, 0x3C00000000000002#64, 0x3FF0000000000000#64]
      = .packet (.noteExpr 1#8 ⟨2#32, 0#16, 0#8, 60#8⟩ 0x3FF0000000000000#64) 3 ∧
  decodeWords .filter [0x0000000000000030#64, 0x4051400000000000#64, 0x3FE0000000000000#64,
      0x3F429E4129E4129E#64]
      = .packet (.fltSetCoef 0x4051400000000000#64 0x3FE0000000000000#64 0x3F429E4129E4129E#64) 4 ∧
  decodeWords .filter [0x0000000000000032#64, 0x3FF0000000000000#64, 0x0000000000000000#64]
      = .packet (.fltProcess 0x3FF0000000000000#64 0x0000000000000000#64) 3 ∧
  decodeWords .filter [0x0000000000000033#64] = .packet .fltReset 1 ∧
  decode .engine [0x02, 0, 0, 0, 0, 0, 0, 0] = .packet .tick 1 ∧
  decode .engine [0x21, 0x07, 0, 0, 0, 0, 0, 0, 0x08, 0x07, 0x06, 0x05, 0x04, 0x03, 0x02, 0x01]
      = .packet (.paramWrite 7#8 0x0102030405060708#64) 2 ∧
  decode .engine [0x12, 0, 0x93, 0x48, 0x64, 0x01, 0x02, 0] = .packet (.midi 0x93#8 0x48#8 0x64#8 0x0201#16) 1 ∧
  decode .engine [0x10, 0, 0, 0, 0, 0, 0, 0, 0x01, 0x02, 0x03, 0x04, 0x05, 0x06, 0x07, 0x45]
      = .packet (.noteOn ⟨0x04030201#32, 0x0605#16, 7#8, 69#8⟩) 2

/-- Decoding an encoded well-formed instruction gives it back, whatever bytes follow. -/
def Obligations.DecodeEncodeRoundTrip : Prop :=
  ∀ (i : Instr) (rest : List Byte), i.WellFormed →
    decode i.portOf (encodeBytes i ++ rest) = .packet i (encode i).length

/-- Each legal packet has one spelling: a packet that decodes is the encoding of what it decodes to, on
the port it came from. -/
def Obligations.LegalPacketsHaveOneSpelling : Prop :=
  ∀ (p : Port) (ws : List Word) (i : Instr) (n : Nat), decodeWords p ws = .packet i n →
    i.WellFormed ∧ i.portOf = p ∧ n = (encode i).length ∧ encode i = ws.take n

/-- A reserved opcode, or one of the other port, faults at the header, before any operand word is read
(30_encoding.md R92 step 2, R93), on the port whose turn it is and on the other one while that port holds
or is stuck. That the header word alone is taken off and the later bytes stay is the model's choice
(log 10), and so is that the other port has the next turn (log 8). -/
def Obligations.BadOpcodeFaultsAtHeader : Prop :=
  ∀ (s : State) (p : Port) (h : Word), isFaulted p s = false →
    (p = s.turn ∨ isFaulted s.turn s = true ∨ decode s.turn (portBytes s.turn s) = .hold) →
    (wordsOfBytes (portBytes p s)).head? = some h →
    (p = .engine → h.toNat % 256 ∉ [0x01, 0x02, 0x03, 0x10, 0x11, 0x12, 0x20, 0x21, 0x22, 0x28, 0x29]) →
    (p = .filter → h.toNat % 256 ∉ [0x30, 0x31, 0x32, 0x33]) →
    step s = .next (raiseFault p .illegalCommand h (consume p 1 s))

/-- A nonzero reserved field faults with ILLEGAL_COMMAND, whatever the operand words hold: HDR bits
[63:16], MIDIHDR bits [15:8] and [63:56] (30_encoding.md R94), and SUB, HDR bits [15:8], where the row's
SUB is 0 (R95), before any VALUE check (R92). The decoder rejects such words, and the step that meets them
takes the fault. That the whole packet is taken off is the model's choice (log 10), and so is that the
other port has the next turn (log 8). -/
def Obligations.ReservedBitsFault : Prop :=
  ∀ (i : Instr) (h : Word) (ws : List Word), h.extractLsb' 0 8 = opcodeByte i.opcode →
    (i.opcode ≠ .midi → h.extractLsb' 16 48 ≠ 0#48 ∨ (h.extractLsb' 8 8 ≠ 0#8 ∧
      i.opcode ∉ [.paramSet, .paramWrite, .paramMod, .noteExpr, .fltSetMode])) →
    (i.opcode = .midi → h.extractLsb' 8 8 ≠ 0#8 ∨ h.extractLsb' 56 8 ≠ 0#8) →
    (operandsOf i).length ≤ ws.length →
    (∃ e, decodeWords i.portOf (h :: ws) = .reject e h (encode i).length ∧
      decodeErrorCode e = .illegalCommand) ∧
    ∀ s : State, isFaulted i.portOf s = false →
      (i.portOf = s.turn ∨ isFaulted s.turn s = true ∨
        decode s.turn (portBytes s.turn s) = .hold) →
      wordsOfBytes (portBytes i.portOf s) = h :: ws →
      step s = .next (raiseFault i.portOf .illegalCommand h (consume i.portOf (encode i).length s))

/-- A port with an incomplete packet holds, executing nothing, and the rest of the packet lifts the hold
(20_memory.md R75). That a held machine has a step, and that it answers the same state, is the model's choice
(log 9), and so is that the other port has the turn after the instruction (log 8). -/
def Obligations.IncompletePacketHolds : Prop :=
  ∀ (s : State) (i : Instr) (n : Nat), n < (encodeBytes i).length →
    portBytes i.portOf s = (encodeBytes i).take n → portBytes (otherPort i.portOf) s = [] →
    step s = .next s ∧
      (isFaulted i.portOf s = false → i.WellFormed →
        step (hostSend i.portOf ((encodeBytes i).drop n) s) =
          exec i { setPortBytes i.portOf [] s with turn := otherPort i.portOf })

/-- A step runs the decoded packet: of the port whose turn it is, or of the other port while that one
holds or is stuck. Around exec, it takes the packet's words off that port's bytes and gives the other
port the turn. Which port a step serves, and the turn, are the model's choice (log 8). -/
def Obligations.StepRunsDecodedPacket : Prop :=
  (∀ (s : State) (i : Instr) (n : Nat), isFaulted s.turn s = false →
    decode s.turn (portBytes s.turn s) = .packet i n →
    step s = exec i { setPortBytes s.turn ((portBytes s.turn s).drop (8 * n)) s with
      turn := otherPort s.turn }) ∧
  (∀ (s : State) (i : Instr) (n : Nat), isFaulted (otherPort s.turn) s = false →
    (isFaulted s.turn s = true ∨ decode s.turn (portBytes s.turn s) = .hold) →
    decode (otherPort s.turn) (portBytes (otherPort s.turn) s) = .packet i n →
    step s = exec i { setPortBytes (otherPort s.turn)
      ((portBytes (otherPort s.turn) s).drop (8 * n)) s with turn := s.turn })

/-- A step on the packet of an instruction, well-formed or not, is exec of it: a packet whose operands the
decoder rejects faults in the step as exec faults it (30_encoding.md R92). That exec of such operands has
this meaning is the model's choice (log 13), and so are that a rejected packet is taken off and the bytes
after it stay (log 10) and that the other port has the next turn (log 8). -/
def Obligations.StepRunsEveryEncodedPacket : Prop :=
  ∀ (s : State) (i : Instr) (rest : List Byte), s.turn = i.portOf → isFaulted i.portOf s = false →
    portBytes i.portOf s = encodeBytes i ++ rest →
    step s = exec i { setPortBytes i.portOf rest s with turn := otherPort i.portOf }

/-- exec and step always answer a next state: a fault of the engine is a register, not a stop of the
machine (log 7), and an idle machine stays as it is (log 9). The model's own choice of form. They are the
model's meaning and step at the NUM and the parameters it is instantiated with (00_scope.md R6; log 1,
log 5), which has the same form for every other NUM and parameters on this carrier, and no step for
parameters that break 00_scope.md R7. -/
def Obligations.ExecAndStepAlwaysAnswerNext : Prop :=
  (∀ i s, ∃ t, exec i s = .next t) ∧ (∀ s, ∃ t, step s = .next t) ∧
  exec = execWith ratNum params ∧ step = stepWith ratNum params ∧
  ∀ (N : NumOps Rat) (c : Params) (s : State),
    (∀ i, ∃ t, execWith N c i s = .next t) ∧
    (paramsValid c = true → ∃ t, stepWith N c s = .next t) ∧
    (paramsValid c = false → stepWith N c s = .refused .badParameters)

/-! ### Faults and ports -/

/-- Faults are precise: where a command sets a fault register, that register, holding the command's own
header, is all that changes (60_exceptions.md R262, R264). -/
def Obligations.FaultsArePrecise : Prop :=
  ∀ (i : Instr) (s t : State), exec i s = .next t →
    (t.engine.fault ≠ s.engine.fault → s.engine.fault = none ∧ i.portOf = .engine ∧
      ∃ c, t = { s with engine := { s.engine with fault := some ⟨c, headerOf i⟩ } }) ∧
    (t.filter.fault ≠ s.filter.fault → s.filter.fault = none ∧ i.portOf = .filter ∧
      ∃ c, t = { s with filter := { s.filter with fault := some ⟨c, headerOf i⟩ } })

/-- A faulted port is stuck: no command of it runs, no step changes anything of it, and the host still
drains the records already in the FIFO (60_exceptions.md R263). That its unread bytes stay too is the
model's choice, where the spec says only that they are neither decoded nor executed (log 10). -/
def Obligations.FaultedPortIsStuck : Prop :=
  (∀ (i : Instr) (s : State), isFaulted i.portOf s = true → exec i s = .next s) ∧
  (∀ s t : State, step s = .next t →
    (s.engine.fault ≠ none → t.engine = s.engine) ∧ (s.filter.fault ≠ none → t.filter = s.filter)) ∧
  (∀ (s : State) (r : NoteEnd) (rs : List NoteEnd), s.engine.noteEndFifo = r :: rs →
    hostDrain s = (some r, { s with engine := { s.engine with noteEndFifo := rs } }))

/-- Which command raises which code on which condition (60_exceptions.md R261; 40_filter_unit.md R121).
The codes of the decode checks are stated of exec on operands the decoder rejects, whose meaning is the
model's choice (log 13); that ARITH_DOMAIN has no other condition rests on NUM (log 1, log 19). -/
def Obligations.FaultCodesComeFromTheirCommands : Prop :=
  ∀ (i : Instr) (s t : State) (r : FaultRecord), exec i s = .next t →
    (s.engine.fault = none → t.engine.fault = some r →
      match r.code with
      | .illegalCommand => ∃ e, operandError i = some e ∧ e ≠ .nonFiniteValue
      | .notActivated => i = .tick ∧ s.engine.activated = false
      | .badSampleRate => ∃ w, i = .setSampleRate w ∧ toNum ratNum w ≤ 0
      | .nonFiniteValue => operandError i = some .nonFiniteValue
      | .unstableCutoff =>
        (∃ w, i = .setSampleRate w ∧ 0 < toNum ratNum w ∧ ∃ v ∈ s.engine.voices,
          1 / 2 ≤ cutoffFreq (v.cutoffBase + v.cutoffMod) * (1 / toNum ratNum w)) ∨
        ((noteStarted i).isSome = true ∧ ¬ CutoffStable s.engine.p.cutoff s.engine.srInv) ∨
        (∃ b id w, i = .paramSet b w ∧ paramIdOf b = some id ∧ ∃ v ∈ s.engine.voices, Playing v ∧
          ¬ CutoffStable ((setParam s.engine.p id (toNum ratNum w)).cutoff + v.cutoffMod)
            s.engine.srInv) ∨
        (i = .pushParams ∧ ∃ v ∈ s.engine.voices, Playing v ∧
          ¬ CutoffStable (s.engine.p.cutoff + v.cutoffMod) s.engine.srInv) ∨
        (∃ a w, i = .paramMod 7#8 a w ∧ ∃ v ∈ s.engine.voices, Playing v ∧
          Reaches true (identOf a) v ∧
          ¬ CutoffStable (v.cutoffBase + toNum ratNum w) s.engine.srInv) ∨
        (∃ a w, i = .paramMod 8#8 a w ∧ ∃ v ∈ s.engine.voices, Playing v ∧
          Reaches true (identOf a) v ∧
          ¬ CutoffStable (v.cutoffBase + v.cutoffMod) s.engine.srInv)
      | .filterNotConfigured => False
      | .arithDomain => i = .tick ∧ s.engine.activated = true ∧ ∃ v ∈ s.engine.voices, Playing v ∧
          ∃ k sl, k < v.unison ∧ v.slots[k]? = some sl ∧ sl.dphase ≤ 0) ∧
    (s.filter.fault = none → t.filter.fault = some r →
      match r.code with
      | .illegalCommand => ∃ e, operandError i = some e ∧ e ≠ .nonFiniteValue
      | .notActivated => False
      | .badSampleRate => ∃ key res w, i = .fltSetCoef key res w ∧ toNum ratNum w ≤ 0
      | .nonFiniteValue => operandError i = some .nonFiniteValue
      | .unstableCutoff => ∃ key res w, i = .fltSetCoef key res w ∧ 0 < toNum ratNum w ∧
          1 / 2 ≤ cutoffFreq (toNum ratNum key) * toNum ratNum w
      | .filterNotConfigured => ∃ l r, i = .fltProcess l r ∧ s.filter.fu0.coefValid = false
      | .arithDomain => False)

/-- A VALUE word that spells NaN or an infinity faults its command with NON_FINITE_VALUE, before it
executes, commands that would ignore the value included (60_exceptions.md R266, 30_encoding.md R92): a
claim about exec on operands the decoder rejects, whose meaning is the model's choice (log 13). And in no
NUM does a command that does not fault leave a value that is not finite in its port's state or outputs
(R266), and a value that is not finite faults where the pseudocode computes it (R265): a rate or its inverse
before the voices, a voice's pitch before its filter and before later voices, an operand of FLT_SETCOEF
before its checks. That both ports check so is the model's reading (log 19). -/
def Obligations.NonFiniteValueFaults : Prop :=
  (∀ (s : State) (w : Word), ¬ FiniteWord w →
    (s.engine.fault = none →
      (∀ i : Instr, i = .setSampleRate w ∨ (∃ p, i = .paramSet p w) ∨ (∃ p, i = .paramWrite p w) ∨
          (∃ p a, LegalAddr a ∧ i = .paramMod p a w) ∨ (∃ e a, LegalAddr a ∧ i = .noteExpr e a w) →
        exec i s = .next { s with engine :=
          { s.engine with fault := some ⟨.nonFiniteValue, headerOf i⟩ } })) ∧
    (s.filter.fault = none →
      (∀ i : Instr, (∃ x y, i = .fltSetCoef w x y ∨ i = .fltSetCoef x w y ∨ i = .fltSetCoef x y w) ∨
          (∃ x, i = .fltProcess w x ∨ i = .fltProcess x w) →
        exec i s = .next { s with filter :=
          { s.filter with fault := some ⟨.nonFiniteValue, headerOf i⟩ } }))) ∧
  ∀ (α : Type) [Add α] [Sub α] [Mul α] [Div α] [Neg α] [LT α] [LE α] [DecidableLT α] [DecidableLE α]
    [NatCast α] [IntCast α] [∀ n, OfNat α n] (N : NumOps α) (c : Over.Params α) (s : Over.State α),
    (∀ (i : Instr) (t : Over.State α), execWith N c i s = .next t →
      (i.portOf = .engine → t.engine.fault = none → allFinite N t.engine.nums = true) ∧
      (i.portOf = .filter → t.filter.fault = none → allFinite N t.filter.nums = true)) ∧
    (∀ w : Word, s.engine.fault = none → FiniteWord w →
      let sr := toNum N w
      (allFinite N [sr] = false ∨
        (0 < sr ∧ allFinite N [1 / sr] = false) ∨
        (0 < sr ∧ ∃ (us vs : List (Over.Voice α)) (v : Over.Voice α), s.engine.voices = us ++ v :: vs ∧
          (∀ u ∈ us, ∃ u', recalcBoth N c (1 / sr) u = .ok u') ∧
          allFinite N (pitchArith N (1 / sr) v) = false)) →
      execWith N c (.setSampleRate w) s = .next { s with engine := { s.engine with
        fault := some ⟨.arithDomain, headerOf (.setSampleRate w)⟩ } }) ∧
    (∀ key res w : Word, s.filter.fault = none → FiniteWord key → FiniteWord res → FiniteWord w →
      allFinite N [toNum N key, toNum N res, toNum N w] = false →
      execWith N c (.fltSetCoef key res w) s = .next { s with filter := { s.filter with
        fault := some ⟨.arithDomain, headerOf (.fltSetCoef key res w)⟩ } })

/-- An ADDR word with PORT below -1, CHAN outside -1..15 or KEY below -1 faults its command with
ILLEGAL_COMMAND, whatever its NOTEID and before its VALUE word is looked at (30_encoding.md R96), so does a
NOTE_ON whose port, channel or key is negative (R97), and so does a MIDI message with PORT below 0,
whatever its bytes (43_scheduler.md R230; log 14). No other ADDR word and no other PORT is illegal. A claim
about exec on operands the decoder rejects, whose meaning is the model's choice (log 13). -/
def Obligations.IllegalAddressFaults : Prop :=
  ∀ (s : State) (a : Addr), s.engine.fault = none →
    (∀ i : Instr, (¬ LegalAddr a ∧ (i = .noteOff a ∨ (∃ p v, i = .paramMod p a v) ∨
          (∃ e v, i = .noteExpr e a v))) ∨
        ((¬ LegalAddr a ∨ a.port.toInt < 0 ∨ a.chan.toInt < 0 ∨ a.key.toInt < 0) ∧ i = .noteOn a) →
      exec i s = .next { s with engine :=
        { s.engine with fault := some ⟨.illegalCommand, headerOf i⟩ } }) ∧
    (LegalAddr a → (Instr.noteOff a).WellFormed ∧
      (0 ≤ a.port.toInt → 0 ≤ a.chan.toInt → 0 ≤ a.key.toInt → (Instr.noteOn a).WellFormed)) ∧
    (∀ (st d1 d2 : Byte) (port : BitVec 16),
      (port.toInt < 0 → exec (.midi st d1 d2 port) s = .next { s with engine :=
        { s.engine with fault := some ⟨.illegalCommand, headerOf (.midi st d1 d2 port)⟩ } }) ∧
      (0 ≤ port.toInt → (Instr.midi st d1 d2 port).WellFormed))

/-- The two ports share no state: a command of one leaves the other's state alone, does not read it, and
the order of two commands on different ports makes no difference (20_memory.md R72). -/
def Obligations.PortsShareNoState : Prop :=
  ∀ (i j : Instr), i.portOf = .engine → j.portOf = .filter → ∀ s t : State,
    (exec i s = .next t → t.filter = s.filter ∧
      ∀ s' t', s'.engine = s.engine → exec i s' = .next t' → t'.engine = t.engine) ∧
    (exec j s = .next t → t.engine = s.engine ∧
      ∀ s' t', s'.filter = s.filter → exec j s' = .next t' → t'.filter = t.filter) ∧
    (∀ u v w, exec i s = .next u → exec j u = .next v → exec j s = .next w → exec i w = .next v)

/-! ### The filter unit -/

/-- The cutoff of the model is the clamped key frequency, for every legal parameter set
(40_filter_unit.md R122; 00_scope.md R11). The set the model is instantiated with has R122's default
limits, which is the model's choice (log 5). And the functions of NUM give the worked values of
95_test_vectors.md, exact or to 12 digits: exp2 the key frequencies of S1, sqrt the NORM of S2, tan the g of
V-F1. How they round beyond those digits is the model's choice (log 2). -/
def Obligations.CutoffIsClampedKeyFrequency : Prop :=
  (params.cutoffHzMin = 10 ∧ params.cutoffHzMax = 20000) ∧
  (∀ (c : Params) (key : Rat), paramsValid c = true →
    cutoffHz ratNum c key = clamp (440 * exp2 ((key - 69) / 12)) c.cutoffHzMin c.cutoffHzMax) ∧
  (keyToHz ratNum 69 = 440 ∧ keyToHz ratNum 81 = 880 ∧ keyToHz ratNum 57 = 220 ∧
    RoundsTo (keyToHz ratNum 60) 261625565301 9 ∧ RoundsTo (keyToHz ratNum 0) 817579891564 11 ∧
    RoundsTo (keyToHz ratNum 127) 125438539514 7) ∧
  (∀ v : Voice, let norm := (panNorm ratNum v).norm
    (v.unison = 1 → norm = 1) ∧ (v.unison = 2 → RoundsTo norm 707106781187 12) ∧
    (v.unison = 3 → RoundsTo norm 577350269190 12) ∧ (v.unison = 4 → norm = 1 / 2) ∧
    (v.unison = 5 → RoundsTo norm 447213595500 12) ∧ (v.unison = 6 → RoundsTo norm 408248290464 12) ∧
    (v.unison = 7 → RoundsTo norm 377964473009 12)) ∧
  ∀ fu : FilterUnit, let g := fun key : Rat => (coefficientsSet key (1 / 2) (1 / 48000) fu).g
    RoundsTo (g 69) 28805896209 12 ∧ RoundsTo (g 200) 373205080757 11 ∧
    RoundsTo (g (-100)) 654498562953 15 ∧ RoundsTo (g 129) 131745134659 11

/-- The damping k runs from 2 - 2 RES_MAX to 2 - 2 RES_MIN and A1 is finite and positive, for every legal
parameter set (40_filter_unit.md R123, R124). -/
def Obligations.CoefficientsStayStable : Prop :=
  ∀ (c : Params) (key res srInv : Rat) (fu fu' : FilterUnit), paramsValid c = true →
    setCoefficients ratNum c key res srInv fu = .ok fu' →
    fu'.k = 2 - 2 * clamp res c.resMin c.resMax ∧
      2 - 2 * c.resMax ≤ fu'.k ∧ fu'.k ≤ 2 - 2 * c.resMin ∧ 0 < fu'.k ∧ 0 ≤ fu'.g ∧
      0 < fu'.a1 ∧ fu'.a1 ≤ 1 ∧ fu'.a1 * (1 + fu'.g * (fu'.g + fu'.k)) = 1

/-- FLT_SETCOEF sets the coefficients and nothing else (40_filter_unit.md R124, R130). -/
def Obligations.FltSetCoefResult : Prop :=
  ∀ (s : State) (key res sr : Word), s.filter.fault = none → FiniteWord key → FiniteWord res → FiniteWord sr →
    0 < toNum ratNum sr → cutoffFreq (toNum ratNum key) * toNum ratNum sr < 1 / 2 →
    exec (.fltSetCoef key res sr) s = .next { s with filter := { s.filter with
      fu0 := coefficientsSet (toNum ratNum key) (toNum ratNum res) (toNum ratNum sr) s.filter.fu0 } }

/-- FLT_SETCOEF checks its inputs, BAD_SAMPLE_RATE before UNSTABLE_CUTOFF; a fault changes nothing but
FU0_FAULT (40_filter_unit.md R121). -/
def Obligations.FltSetCoefFaults : Prop :=
  ∀ (s : State) (key res sr : Word), s.filter.fault = none → FiniteWord key → FiniteWord res → FiniteWord sr →
    (toNum ratNum sr ≤ 0 → exec (.fltSetCoef key res sr) s = .next { s with filter :=
      { s.filter with fault := some ⟨.badSampleRate, headerOf (.fltSetCoef key res sr)⟩ } }) ∧
    (0 < toNum ratNum sr → 1 / 2 ≤ cutoffFreq (toNum ratNum key) * toNum ratNum sr →
      exec (.fltSetCoef key res sr) s = .next { s with filter :=
        { s.filter with fault := some ⟨.unstableCutoff, headerOf (.fltSetCoef key res sr)⟩ } })

/-- FLT_SETMODE sets the mode R100 numbers and clears the integrators exactly when the mode changes
(40_filter_unit.md R125, R126, R131; 30_encoding.md R100). SUB above 5 faults (30_encoding.md R95): a claim
about exec on an operand the decoder rejects, whose meaning is the model's choice (log 13). -/
def Obligations.FltSetModeResult : Prop :=
  ∀ (s : State) (b : Byte), s.filter.fault = none →
    (∀ m : FilterMode,
      [FilterMode.lowpass, .bandpass, .highpass, .notch, .peak, .allpass][b.toNat]? = some m →
      filterModeNumber m = b.toNat ∧
      exec (.fltSetMode b) s = .next { s with filter := { s.filter with
        fu0 := modeSet m s.filter.fu0 } }) ∧
    (5 < b.toNat → exec (.fltSetMode b) s = .next { s with filter :=
      { s.filter with fault := some ⟨.illegalCommand, headerOf (.fltSetMode b)⟩ } })

/-- FLT_PROCESS advances both lanes' integrators once and sends the pair the mode selects, and faults with
FILTER_NOT_CONFIGURED before the first FLT_SETCOEF (40_filter_unit.md R127, R128, R132). -/
def Obligations.FltProcessResult : Prop :=
  ∀ (s : State) (l r : Word), s.filter.fault = none → FiniteWord l → FiniteWord r →
    let fu := s.filter.fu0
    (fu.coefValid = true → exec (.fltProcess l r) s = .next { s with filter := { s.filter with
      fu0 := { fu with
        left := laneAfter fu fu.left (toNum ratNum l), right := laneAfter fu fu.right (toNum ratNum r) }
      filterOut := s.filter.filterOut ++
        [(laneOut fu fu.left (toNum ratNum l), laneOut fu fu.right (toNum ratNum r))] } }) ∧
    (fu.coefValid = false → exec (.fltProcess l r) s = .next { s with filter :=
      { s.filter with fault := some ⟨.filterNotConfigured, headerOf (.fltProcess l r)⟩ } })

/-- No lane's output or integrators depend on the other lane's input or state (40_filter_unit.md R120):
two runs of FLT_PROCESS whose units agree but for one lane's integrators, and whose inputs agree but for
that lane's, agree on the other lane's integrators and output. -/
def Obligations.FilterLanesAreIndependent : Prop :=
  ∀ (s s' t t' : State) (l r l' r' : Word), s.NoFault → s'.NoFault →
    FiniteWord l → FiniteWord r → FiniteWord l' → FiniteWord r' →
    s.filter.fu0.coefValid = true →
    exec (.fltProcess l r) s = .next t → exec (.fltProcess l' r') s' = .next t' →
    (l' = l → { s'.filter.fu0 with right := s.filter.fu0.right } = s.filter.fu0 →
      t'.filter.fu0.left = t.filter.fu0.left ∧
        (t'.filter.filterOut.getLast?).map Prod.fst = (t.filter.filterOut.getLast?).map Prod.fst) ∧
    (r' = r → { s'.filter.fu0 with left := s.filter.fu0.left } = s.filter.fu0 →
      t'.filter.fu0.right = t.filter.fu0.right ∧
        (t'.filter.filterOut.getLast?).map Prod.snd = (t.filter.filterOut.getLast?).map Prod.snd)

/-- In every mode NOTCH is LOWPASS + HIGHPASS and PEAK is HIGHPASS - LOWPASS (40_filter_unit.md R128),
and the integrators do not depend on the mode. -/
def Obligations.NotchAndPeakAreMixes : Prop :=
  ∀ (fu : FilterUnit) (ln : Lane) (x : Rat),
    let out := fun m => (processLane { fu with mode := m } ln x).2
    out .notch = out .lowpass + out .highpass ∧ out .peak = out .highpass - out .lowpass ∧
      ∀ m, (processLane { fu with mode := m } ln x).1 = (processLane fu ln x).1

/-- FLT_RESET zeroes the four integrators and keeps all else (40_filter_unit.md R126, R133). -/
def Obligations.FltResetResult : Prop :=
  ∀ s : State, s.filter.fault = none →
    exec .fltReset s = .next { s with filter := { s.filter with
      fu0 := { s.filter.fu0 with left := ⟨0, 0⟩, right := ⟨0, 0⟩ } } }

/-! ### The voice -/

/-- Away from a wrap the saw is the naive saw one sample late, 2 p1 - 1, and an increment that is not
positive faults (41_voice.md R163). -/
def Obligations.SawIsNaiveAwayFromWrap : Prop :=
  ∀ phi d : Rat, (0 < d → 2 * d ≤ phi → phi < 1 → dpw ratNum phi d = .ok (2 * (phi - d) - 1)) ∧
    (d ≤ 0 → dpw ratNum phi d = .error .arithDomain)

/-- With bypass, the amplitude is 1 until the last BYPASS_FADE_FRAC of the release and then falls
linearly to 0 (41_voice.md R164), for every legal parameter set. -/
def Obligations.BypassAmplitude : Prop :=
  ∀ (c : Params) (v : Voice), paramsValid c = true → v.bypass = true →
    (v.env = .attack ∨ v.env = .hold → amplitude c v = 1) ∧
    (v.env = .newlyOff → amplitude c v = 0) ∧
    (v.env = .releasing → 0 < v.releaseTime →
      (v.t < (1 - c.bypassFadeFrac) * v.releaseTime → amplitude c v = 1) ∧
      ((1 - c.bypassFadeFrac) * v.releaseTime ≤ v.t → v.t ≤ v.releaseTime →
        amplitude c v = (v.releaseTime - v.t) / (c.bypassFadeFrac * v.releaseTime)))

/-- A voice whose gain term 1 + VCA_MOD + VOL_EXPR is 0 and whose integrators are at rest outputs
(0, 0) (41_voice.md R166, 44_mod_router.md R243). -/
def Obligations.ZeroGainVoiceIsSilent : Prop :=
  ∀ (c : Params) (srInv : Rat) (v : Voice) (o : Voice × Rat × Rat), 1 + v.vcaMod + v.volExpr = 0 →
    v.flt.left = ⟨0, 0⟩ → v.flt.right = ⟨0, 0⟩ → voiceStep ratNum c srInv v = .ok o → o.2 = (0, 0)

/-- No envelope transition but those of 41_voice.md R152, each by its own cause. -/
def Obligations.EnvTransitionsAreTabled : Prop :=
  ∀ (i : Instr) (s t : State) (j : Nat) (v w : Voice), exec i s = .next t →
    s.engine.voices[j]? = some v → t.engine.voices[j]? = some w →
    w.env = v.env ∨ EnvMoves i s.engine v w

/-- UNISON, NORM and the pan gains of a voice change only when that voice is activated (41_voice.md R155):
the voice a note start takes, by 42_voice_pool.md R191 and R195, where a draw the host did not supply is a
free value (log 6). -/
def Obligations.UnisonIsFixedUntilActivation : Prop :=
  ∀ (i : Instr) (s t : State) (j : Nat) (v w : Voice), exec i s = .next t →
    s.engine.voices[j]? = some v → t.engine.voices[j]? = some w →
    (noteStarted i = none ∨ j ≠ startIndex s.engine) →
    w.unison = v.unison ∧ w.norm = v.norm ∧
      w.slots.map Over.Slot.panL = v.slots.map Over.Slot.panL ∧
      w.slots.map Over.Slot.panR = v.slots.map Over.Slot.panR

/-! ### The voice pool -/

/-- NOTE_ON activates the lowest-indexed OFF voice with the identity, and changes nothing else
(42_voice_pool.md R191, R192; 41_voice.md R153); where the cutoff is unstable it faults with
UNSTABLE_CUTOFF and changes nothing else (R192). -/
def Obligations.NoteOnTakesLowestFreeVoice : Prop :=
  ∀ (s : State) (a : Addr) (j : Nat) (v : Voice), s.engine.fault = none → LegalAddr a →
    0 ≤ a.port.toInt → 0 ≤ a.chan.toInt → 0 ≤ a.key.toInt →
    s.engine.voices[j]? = some v → v.env = .off →
    (∀ (i : Nat) (w : Voice), i < j → s.engine.voices[i]? = some w → w.env ≠ .off) →
    (CutoffStable s.engine.p.cutoff s.engine.srInv →
      ∃ w : Voice, Activated s.engine.p s.engine.srInv (identOf a) v w ∧
        exec (.noteOn a) s = .next { s with engine := { s.engine with
          voices := s.engine.voices.set j w } }) ∧
    (¬ CutoffStable s.engine.p.cutoff s.engine.srInv →
      exec (.noteOn a) s = .next { s with engine :=
        { s.engine with fault := some ⟨.unstableCutoff, headerOf (.noteOn a)⟩ } })

/-- With no OFF voice, NOTE_ON takes the voice STEAL_CHOICE names, whatever index it names, and its old
identity goes to TERMINATED (42_voice_pool.md R193, R195). The draw is the host's next one; without
one it is a free value (log 6). Where the cutoff is unstable it faults with UNSTABLE_CUTOFF and changes
nothing else, TERMINATED and the draws included (R192; 60_exceptions.md R264). -/
def Obligations.NoteOnStealsTheDrawnVoice : Prop :=
  ∀ (s : State) (a : Addr), s.engine.fault = none → LegalAddr a →
    0 ≤ a.port.toInt → 0 ≤ a.chan.toInt → 0 ≤ a.key.toInt → s.engine.voices.length = 64 →
    (∀ v ∈ s.engine.voices, v.env ≠ .off) →
    (CutoffStable s.engine.p.cutoff s.engine.srInv →
      (∀ d ds, s.engine.stealDraws = d :: ds → ∃ v w : Voice, s.engine.voices[d.val]? = some v ∧
        Activated s.engine.p s.engine.srInv (identOf a) v w ∧
        exec (.noteOn a) s = .next { s with engine := { s.engine with
          stealDraws := ds, terminated := s.engine.terminated ++ [v.ident]
          voices := s.engine.voices.set d.val w } }) ∧
      (s.engine.stealDraws = [] → ∃ (j : Nat) (v w : Voice), s.engine.voices[j]? = some v ∧
        Activated s.engine.p s.engine.srInv (identOf a) v w ∧
        exec (.noteOn a) s = .next { s with engine := { s.engine with
          stealCount := s.engine.stealCount + 1, terminated := s.engine.terminated ++ [v.ident]
          voices := s.engine.voices.set j w } })) ∧
    (¬ CutoffStable s.engine.p.cutoff s.engine.srInv →
      exec (.noteOn a) s = .next { s with engine :=
        { s.engine with fault := some ⟨.unstableCutoff, headerOf (.noteOn a)⟩ } })

/-- NOTE_OFF releases every playing voice its address reaches and changes nothing else
(42_voice_pool.md R196; 41_voice.md R168; 44_mod_router.md R240). -/
def Obligations.NoteOffReleasesMatchingVoices : Prop :=
  ∀ (s : State) (a : Addr), s.engine.fault = none → LegalAddr a →
    ∃ vs : List Voice, exec (.noteOff a) s = .next { s with engine := { s.engine with voices := vs } } ∧
      vs.length = s.engine.voices.length ∧
      ∀ (j : Nat) (v : Voice), s.engine.voices[j]? = some v →
        (Playing v ∧ Reaches true (identOf a) v → vs[j]? = some (released v)) ∧
        (¬ (Playing v ∧ Reaches true (identOf a) v) → vs[j]? = some v)

/-- PUSH_PARAMS copies the parameters into every playing voice, and changes nothing else
(42_voice_pool.md R197). -/
def Obligations.PushReachesPlayingVoices : Prop :=
  ∀ s : State, s.engine.fault = none →
    (∀ v ∈ s.engine.voices, Playing v →
      CutoffStable (s.engine.p.cutoff + v.cutoffMod) s.engine.srInv) →
    ∃ vs : List Voice, exec .pushParams s = .next { s with engine := { s.engine with voices := vs } } ∧
      vs.length = s.engine.voices.length ∧
      ∀ (j : Nat) (v : Voice), s.engine.voices[j]? = some v → ∃ w : Voice, vs[j]? = some w ∧
        (Playing v → Pushed s.engine.p s.engine.srInv v w) ∧ (¬ Playing v → w = v)

/-- A push that would make a playing voice's filter unstable faults, and no voice is changed
(42_voice_pool.md R197; 20_memory.md R73). -/
def Obligations.UnstablePushFaults : Prop :=
  ∀ (s : State) (v : Voice), s.engine.fault = none → v ∈ s.engine.voices → Playing v →
    ¬ CutoffStable (s.engine.p.cutoff + v.cutoffMod) s.engine.srInv →
    exec .pushParams s = .next { s with engine :=
      { s.engine with fault := some ⟨.unstableCutoff, headerOf .pushParams⟩ } }

/-- PUSH_PARAMS with no parameter change in between changes nothing the second time (41_voice.md R169;
95_test_vectors.md V-S4). -/
def Obligations.SecondPushChangesNothing : Prop :=
  ∀ s t : State, exec .pushParams s = .next t → t.engine.fault = none →
    exec .pushParams t = .next t

/-- Note-end exactly once: every command but a note start keeps the collection of identities that are
held, stolen or reported, a note start that does not fault adds its own identity once, and only
END_BLOCK writes NOTE_END_FIFO (42_voice_pool.md R190). -/
def Obligations.NoteEndsAreConserved : Prop :=
  ∀ (i : Instr) (s t : State), s.engine.voices.length = 64 → s.engine.fault = none →
    exec i s = .next t →
    (i ≠ .endBlock → t.engine.noteEndFifo = s.engine.noteEndFifo) ∧
    (match noteStarted i with
      | some ident =>
        (t.engine.fault = none →
          (noteEndsOwed t.engine).Perm (ident :: noteEndsOwed s.engine)) ∧
        (t.engine.fault ≠ none → (noteEndsOwed t.engine).Perm (noteEndsOwed s.engine))
      | none => (noteEndsOwed t.engine).Perm (noteEndsOwed s.engine))

/-- At most 64 voices are not OFF, and a NOTE_ON with a legal definite address never faults for lack of
a voice (42_voice_pool.md R198). -/
def Obligations.NoteOnNeverLacksAVoice : Prop :=
  ∀ s : State, s.Inv →
    s.engine.voices.countP (fun v : Voice => v.env != .off) ≤ 64 ∧
    ∀ (a : Addr) (t : State), s.engine.fault = none → (Instr.noteOn a).WellFormed →
      exec (.noteOn a) s = .next t →
      (t.engine.fault = none ∧ ∃ w ∈ t.engine.voices, w.ident = identOf a ∧ Playing w) ∨
        (∃ h, t.engine.fault = some ⟨.unstableCutoff, h⟩)

/-! ### The scheduler -/

/-- SET_SAMPLE_RATE at a positive rate at which every voice's cutoff is stable completes: it writes SR_INV
and ACTIVATED and recomputes every voice's increments and filter, whatever its ENV (43_scheduler.md R221).
A rate above 2 CUTOFF_HZ_MAX is such a rate whatever the voices hold (70_reset_and_hazards.md R292). -/
def Obligations.SetSampleRateRecomputesEveryVoice : Prop :=
  ∀ (s : State) (w : Word), s.engine.fault = none → FiniteWord w → 0 < toNum ratNum w →
    (2 * params.cutoffHzMax < toNum ratNum w ∨
      ∀ v ∈ s.engine.voices, cutoffFreq (v.cutoffBase + v.cutoffMod) * (1 / toNum ratNum w) < 1 / 2) →
    ∃ vs : List Voice, exec (.setSampleRate w) s = .next { s with engine := { s.engine with
        srInv := 1 / toNum ratNum w, activated := true, voices := vs } } ∧
      vs.length = s.engine.voices.length ∧
      ∀ (j : Nat) (v : Voice), s.engine.voices[j]? = some v → ∃ v' : Voice, vs[j]? = some v' ∧
        Repitched (1 / toNum ratNum w)
          { v with
            flt := coefficientsSet (v.cutoffBase + v.cutoffMod) (v.resBase + v.resMod)
              (1 / toNum ratNum w) v.flt } v'

/-- A rate that is not positive faults with BAD_SAMPLE_RATE, and a rate at or below twice the cutoff of
any voice, OFF ones included, with UNSTABLE_CUTOFF; SR_INV and ACTIVATED keep their values
(43_scheduler.md R221). -/
def Obligations.SetSampleRateFaults : Prop :=
  ∀ (s : State) (w : Word), s.engine.fault = none → FiniteWord w →
    (toNum ratNum w ≤ 0 → exec (.setSampleRate w) s = .next { s with engine :=
      { s.engine with fault := some ⟨.badSampleRate, headerOf (.setSampleRate w)⟩ } }) ∧
    (∀ v ∈ s.engine.voices, 0 < toNum ratNum w → toNum ratNum w ≤ 2 * cutoffFreq (v.cutoffBase + v.cutoffMod) →
      exec (.setSampleRate w) s = .next { s with engine :=
        { s.engine with fault := some ⟨.unstableCutoff, headerOf (.setSampleRate w)⟩ } })

/-- TICK completes where every playing voice's active copies have a positive increment: one frame of
OUT_CHANNELS values, TICK_IN_BLOCK up by one, and of each playing voice only the envelope, the active
copies' phases and the integrators (43_scheduler.md R222; 41_voice.md R162, R167). -/
def Obligations.TickStepsPlayingVoices : Prop :=
  ∀ s : State, s.engine.fault = none → s.engine.activated = true →
    (∀ v ∈ s.engine.voices, Playing v →
      ∀ i sl, i < v.unison → v.slots[i]? = some sl → 0 < sl.dphase) →
    ∃ (vs : List Voice) (frame : Frame), exec .tick s = .next { s with engine := { s.engine with
        voices := vs, tickInBlock := s.engine.tickInBlock + 1
        audioOut := s.engine.audioOut ++ [frame] } } ∧
      frame.length = params.outChannels ∧ vs.length = s.engine.voices.length ∧
      ∀ (j : Nat) (v : Voice), s.engine.voices[j]? = some v → ∃ w : Voice, vs[j]? = some w ∧ (¬ Playing v → w = v) ∧
        (Playing v → w = { v with
            env := w.env, t := w.t, level := w.level, releaseFrom := w.releaseFrom
            slots := w.slots, flt := { v.flt with left := w.flt.left, right := w.flt.right } } ∧
          w.slots.length = v.slots.length ∧
          ∀ i sl, v.slots[i]? = some sl → w.slots[i]? = some
            (if i < v.unison then { sl with phase := wrap ratNum (sl.phase + sl.dphase) } else sl))

/-- The envelope step of TICK, by the voice's state: increment, compare, then the level
(41_voice.md R159, R160, R161). -/
def Obligations.TickStepsTheEnvelope : Prop :=
  ∀ (s t : State) (j : Nat) (v w : Voice), exec .tick s = .next t → s.engine.fault = none →
    t.engine.fault = none → s.engine.voices[j]? = some v → t.engine.voices[j]? = some w →
    let T := v.t + s.engine.srInv
    (v.env = .attack → v.attackTime ≤ T →
      w.env = .hold ∧ w.t = T ∧ w.level = 1 ∧ w.releaseFrom = 1) ∧
    (v.env = .attack → T < v.attackTime → w.env = .attack ∧ w.t = T ∧
      w.level = T / v.attackTime ∧ w.releaseFrom = T / v.attackTime) ∧
    (v.env = .hold → w.env = .hold ∧ w.t = v.t ∧ w.level = 1 ∧ w.releaseFrom = 1) ∧
    (v.env = .releasing → v.releaseTime ≤ T →
      w.env = .newlyOff ∧ w.t = T ∧ w.level = 0 ∧ w.releaseFrom = v.releaseFrom) ∧
    (v.env = .releasing → T < v.releaseTime → w.env = .releasing ∧ w.t = T ∧
      w.level = v.releaseFrom * (1 - T / v.releaseTime) ∧ w.releaseFrom = v.releaseFrom)

/-- Each playing voice's sample at a TICK: its filter's lanes take the unison mix of the advanced copies
times the gain, and the frame is the sum of the voices' outputs on each channel (41_voice.md R162 to R167;
43_scheduler.md R222, R223). That there are two channels is the model's choice of OUT_CHANNELS (log 5). -/
def Obligations.TickEmitsTheMixedFrame : Prop :=
  ∀ s t : State, s.engine.fault = none → exec .tick s = .next t → t.engine.fault = none →
    let pairs := (s.engine.voices.zip t.engine.voices).filter fun q => isPlaying q.1
    t.engine.audioOut = s.engine.audioOut ++
      [[(pairs.map fun q => laneOut q.1.flt q.1.flt.left (filterInput params q.2 Over.Slot.panL)).sum,
        (pairs.map fun q => laneOut q.1.flt q.1.flt.right (filterInput params q.2 Over.Slot.panR)).sum]] ∧
    ∀ q ∈ pairs,
      q.2.flt.left = laneAfter q.1.flt q.1.flt.left (filterInput params q.2 Over.Slot.panL) ∧
      q.2.flt.right = laneAfter q.1.flt q.1.flt.right (filterInput params q.2 Over.Slot.panR)

/-- The frame of a TICK sums the playing voices' samples in ascending index from 0: left and right for
two channels, their means for one, zeros for any other count, and every playing voice is stepped whatever
the count (43_scheduler.md R223). -/
def Obligations.FrameSumsPlayingVoices : Prop :=
  ∀ (c : Params) (srInv : Rat) (vs : List Voice) (r : List Voice × Frame),
    stepVoices ratNum c srInv vs (zeroFrame c) = .ok r →
    let outs := (vs.filter isPlaying).map (sampleOf c srInv)
    (c.outChannels = 2 → r.2 = [outs.foldl (fun x o => x + o.1) 0, outs.foldl (fun x o => x + o.2) 0]) ∧
    (c.outChannels = 1 → r.2 = [outs.foldl (fun x o => x + (o.1 + o.2) / 2) 0]) ∧
    (c.outChannels ≠ 1 → c.outChannels ≠ 2 → r.2 = List.replicate c.outChannels 0) ∧
    r.1.length = vs.length ∧
    ∀ (j : Nat) (v : Voice), vs[j]? = some v → (¬ Playing v → r.1[j]? = some v) ∧
      (Playing v → ∃ o, voiceStep ratNum c srInv v = .ok o ∧ r.1[j]? = some o.1)

/-- TICK faults with NOT_ACTIVATED before a sample rate (10_state.md R35) and with ARITH_DOMAIN where a
playing voice has an active copy whose increment is not positive; no voice is stepped and no frame is
sent (43_scheduler.md R222). -/
def Obligations.TickFaults : Prop :=
  ∀ s : State, s.engine.fault = none →
    (s.engine.activated = false → exec .tick s = .next { s with engine :=
      { s.engine with fault := some ⟨.notActivated, headerOf .tick⟩ } }) ∧
    (∀ v ∈ s.engine.voices, ∀ i sl, s.engine.activated = true → Playing v → i < v.unison →
      v.slots[i]? = some sl → sl.dphase ≤ 0 → exec .tick s = .next { s with engine :=
        { s.engine with fault := some ⟨.arithDomain, headerOf .tick⟩ } })

/-- END_BLOCK reports the stolen identities in order, then the NEWLY_OFF voices in index order, stamped
with the block's last sample index (0 for a block without a TICK), reaps those voices, and resets the
block's bookkeeping (43_scheduler.md R224, R225, R226). -/
def Obligations.EndBlockReportsAndReaps : Prop :=
  ∀ s : State, s.engine.fault = none →
    ∃ (vs : List Voice) (stamp : Nat), exec .endBlock s = .next { s with engine := { s.engine with
        noteEndFifo := s.engine.noteEndFifo ++ s.engine.terminated.map (fun i : Identity => (⟨i, stamp⟩ : NoteEnd)) ++
          (s.engine.voices.filter (fun v : Voice => v.env == .newlyOff)).map (fun v : Voice => (⟨v.ident, stamp⟩ : NoteEnd))
        voices := vs, terminated := [], tickInBlock := 0
        polyCount := s.engine.voices.countP
          (fun v : Voice => v.env == .attack || v.env == .hold || v.env == .releasing) } } ∧
      (s.engine.tickInBlock = 0 → stamp = 0) ∧
      (s.engine.tickInBlock ≠ 0 → stamp + 1 = s.engine.tickInBlock) ∧
      vs.length = s.engine.voices.length ∧
      ∀ (j : Nat) (v : Voice), s.engine.voices[j]? = some v →
        vs[j]? = some (if v.env = .newlyOff then { v with env := .off } else v)

/-- POLY_COUNT is written only by END_BLOCK and is then the number of playing voices after the reap
(43_scheduler.md R226). -/
def Obligations.PolyCountIsWrittenByEndBlockOnly : Prop :=
  ∀ (i : Instr) (s t : State), exec i s = .next t →
    (i ≠ .endBlock → t.engine.polyCount = s.engine.polyCount) ∧
    (i = .endBlock → s.engine.fault = none → t.engine.polyCount = t.engine.voices.countP
      (fun v : Voice => v.env == .attack || v.env == .hold || v.env == .releasing))

/-- TICK_IN_BLOCK counts the TICKs completed since the last END_BLOCK or reset (10_state.md R40). -/
def Obligations.TickInBlockCountsTicks : Prop :=
  State.reset.engine.tickInBlock = 0 ∧
  ∀ (i : Instr) (s t : State), exec i s = .next t → s.engine.fault = none →
    t.engine.tickInBlock =
      if t.engine.fault ≠ none then s.engine.tickInBlock
      else if i = .tick then s.engine.tickInBlock + 1
      else if i = .endBlock then 0 else s.engine.tickInBlock

/-- PARAM_WRITE stores the raw value of its word in the parameter R98 numbers and changes nothing else; an
unlisted id has no effect (43_scheduler.md R228; 10_state.md R32; 30_encoding.md R98). The value is the
binary64 value the word spells, normal or subnormal, and -0.0 is 0 (00_scope.md R10, 60_exceptions.md
R266), which in this NUM is stored exactly (log 1). -/
def Obligations.ParamWriteResult : Prop :=
  ∀ (s : State) (b : Byte) (w : Word), s.engine.fault = none → FiniteWord w →
    let wrote := fun q : ParamFile =>
      (Host.Outcome.next { s with engine := { s.engine with p := q } } : Host.Outcome State Fault Refusal)
    let q := s.engine.p
    let x := wordValue w
    exec (.paramWrite 0#8 w) s = wrote { q with unisonCount := x } ∧
    exec (.paramWrite 1#8 w) s = wrote { q with unisonSpread := x } ∧
    exec (.paramWrite 2#8 w) s = wrote { q with oscDetune := x } ∧
    exec (.paramWrite 3#8 w) s = wrote { q with ampAttack := x } ∧
    exec (.paramWrite 4#8 w) s = wrote { q with ampRelease := x } ∧
    exec (.paramWrite 5#8 w) s = wrote { q with ampEnvBypass := x } ∧
    exec (.paramWrite 6#8 w) s = wrote { q with preFilterVca := x } ∧
    exec (.paramWrite 7#8 w) s = wrote { q with cutoff := x } ∧
    exec (.paramWrite 8#8 w) s = wrote { q with resonance := x } ∧
    exec (.paramWrite 9#8 w) s = wrote { q with filterMode := x } ∧
    (10 ≤ b.toNat → exec (.paramWrite b w) s = .next s) ∧
    exec (.paramWrite 7#8 0x8000000000000000#64) s = wrote { q with cutoff := 0 } ∧
    toNum ratNum w = x

/-- PARAM_SET behaves as PARAM_WRITE and then PUSH_PARAMS for a listed id, and as nothing for another
(30_encoding.md R103; 43_scheduler.md R227); a push that faults leaves the parameter as it was. -/
def Obligations.ParamSetIsWriteThenPush : Prop :=
  ∀ (s u t : State) (b : Byte) (w : Word), s.engine.fault = none → FiniteWord w →
    (10 ≤ b.toNat → exec (.paramSet b w) s = .next s) ∧
    (b.toNat ≤ 9 → exec (.paramWrite b w) s = .next u → exec .pushParams u = .next t →
      (t.engine.fault = none → exec (.paramSet b w) s = .next t) ∧
      (t.engine.fault ≠ none → exec (.paramSet b w) s = .next { s with engine :=
        { s.engine with fault := some ⟨.unstableCutoff, headerOf (.paramSet b w)⟩ } }))

/-- PARAM_SET of a listed parameter stores the value and pushes the parameters into every playing voice
(43_scheduler.md R227). -/
def Obligations.ParamSetCompletes : Prop :=
  ∀ (s : State) (b : Byte) (id : ParamId) (w : Word), s.engine.fault = none → FiniteWord w →
    paramIdOf b = some id →
    (∀ v ∈ s.engine.voices, Playing v → CutoffStable
      (getParam (setParam s.engine.p id (toNum ratNum w)) .cutoff + v.cutoffMod) s.engine.srInv) →
    ∃ vs : List Voice, exec (.paramSet b w) s = .next { s with engine := { s.engine with
        p := setParam s.engine.p id (toNum ratNum w), voices := vs } } ∧
      vs.length = s.engine.voices.length ∧
      ∀ (j : Nat) (v : Voice), s.engine.voices[j]? = some v → ∃ x : Voice, vs[j]? = some x ∧
        (Playing v → Pushed (setParam s.engine.p id (toNum ratNum w)) s.engine.srInv v x) ∧
        (¬ Playing v → x = v)

/-- A MIDI note-on has the semantics of NOTE_ON with no note-id, and a MIDI note-off that of NOTE_OFF
(43_scheduler.md R230, R231, R232); where it faults, the fault records its own header. -/
def Obligations.MidiNotesAreNotes : Prop :=
  ∀ (s t : State) (st d1 d2 : Byte) (port : BitVec 16) (a : Addr), s.engine.fault = none →
    0 ≤ port.toInt → d1.toNat < 0x80 → d2.toNat < 0x80 →
    a.port = port → a.noteId = 0xFFFFFFFF#32 → a.key = d1 →
    (0x90 ≤ st.toNat → st.toNat < 0xA0 → a.chan.toNat = st.toNat - 0x90 → 0 < d2.toNat →
      exec (.noteOn a) s = .next t →
      (t.engine.fault = none → exec (.midi st d1 d2 port) s = .next t) ∧
      (∀ r, t.engine.fault = some r → exec (.midi st d1 d2 port) s = .next { s with engine :=
        { s.engine with fault := some ⟨r.code, headerOf (.midi st d1 d2 port)⟩ } })) ∧
    ((0x80 ≤ st.toNat ∧ st.toNat < 0x90 ∧ a.chan.toNat = st.toNat - 0x80 ∨
        0x90 ≤ st.toNat ∧ st.toNat < 0xA0 ∧ a.chan.toNat = st.toNat - 0x90 ∧ d2.toNat = 0) →
      exec (.midi st d1 d2 port) s = exec (.noteOff a) s)

/-- A MIDI pitch-bend sets BEND of every playing voice, on every port and channel, and recomputes its
increments (43_scheduler.md R233). -/
def Obligations.MidiBendReachesPlayingVoices : Prop :=
  ∀ (s : State) (st d1 d2 : Byte) (port : BitVec 16), s.engine.fault = none →
    0 ≤ port.toInt → 0xE0 ≤ st.toNat → st.toNat < 0xF0 → d1.toNat < 0x80 → d2.toNat < 0x80 →
    ∃ vs : List Voice, exec (.midi st d1 d2 port) s = .next { s with engine :=
        { s.engine with voices := vs } } ∧ vs.length = s.engine.voices.length ∧
      ∀ (j : Nat) (v : Voice), s.engine.voices[j]? = some v → ∃ w : Voice, vs[j]? = some w ∧ (¬ Playing v → w = v) ∧
        (Playing v → Repitched s.engine.srInv { v with bend :=
          ((d2.toNat : Rat) * 128 + (d1.toNat : Rat) - 8192) / 8192 * params.bendRangeSemis } w)

/-! ### The modulation router -/

/-- PARAM_MOD writes the slot of every playing voice its address reaches and recomputes what depends on
it; a parameter without a slot, and an id in no table, has no effect (44_mod_router.md R242). Where a reached
voice's cutoff becomes unstable it faults with UNSTABLE_CUTOFF and changes nothing else (R242). -/
def Obligations.ParamModWritesTheSlot : Prop :=
  ∀ (s : State) (b : Byte) (a : Addr) (x : Word), s.engine.fault = none → LegalAddr a → FiniteWord x →
    let n := b.toNat
    (n ∉ [1, 2, 6, 7, 8] → exec (.paramMod b a x) s = .next s) ∧
    (n ∈ [1, 2, 6, 7, 8] →
      (n = 7 → ∀ v ∈ s.engine.voices, Playing v → Reaches true (identOf a) v →
        CutoffStable (v.cutoffBase + toNum ratNum x) s.engine.srInv) →
      (n = 8 → ∀ v ∈ s.engine.voices, Playing v → Reaches true (identOf a) v →
        CutoffStable (v.cutoffBase + v.cutoffMod) s.engine.srInv) →
      ∃ vs : List Voice, exec (.paramMod b a x) s = .next { s with engine := { s.engine with voices := vs } } ∧
        vs.length = s.engine.voices.length ∧
        ∀ (j : Nat) (v : Voice), s.engine.voices[j]? = some v → ∃ w : Voice, vs[j]? = some w ∧
          (¬ (Playing v ∧ Reaches true (identOf a) v) → w = v) ∧
          (Playing v ∧ Reaches true (identOf a) v →
            (n = 1 → Repitched s.engine.srInv { v with spreadMod := toNum ratNum x } w) ∧
            (n = 2 → Repitched s.engine.srInv { v with detuneMod := toNum ratNum x } w) ∧
            (n = 6 → w = { v with vcaMod := toNum ratNum x }) ∧
            (n = 7 → w = { v with
              cutoffMod := toNum ratNum x
              flt := filterRecomputed (v.cutoffBase + toNum ratNum x) (v.resBase + v.resMod)
                s.engine.srInv v.flt }) ∧
            (n = 8 → w = { v with
              resMod := toNum ratNum x
              flt := filterRecomputed (v.cutoffBase + v.cutoffMod) (v.resBase + toNum ratNum x)
                s.engine.srInv v.flt }))) ∧
    (∀ v ∈ s.engine.voices, Playing v → Reaches true (identOf a) v →
      (n = 7 ∧ ¬ CutoffStable (v.cutoffBase + toNum ratNum x) s.engine.srInv ∨
        n = 8 ∧ ¬ CutoffStable (v.cutoffBase + v.cutoffMod) s.engine.srInv) →
      exec (.paramMod b a x) s = .next { s with engine :=
        { s.engine with fault := some ⟨.unstableCutoff, headerOf (.paramMod b a x)⟩ } })

/-- NOTE_EXPR writes the expression slot of every playing voice its address reaches, the note-id ignored,
and recomputes the increments for TUNING; other ids have no effect (44_mod_router.md R241, R243). -/
def Obligations.NoteExprWritesTheSlot : Prop :=
  ∀ (s : State) (b : Byte) (a : Addr) (x : Word), s.engine.fault = none → LegalAddr a → FiniteWord x →
    (2 ≤ b.toNat → exec (.noteExpr b a x) s = .next s) ∧
    (b.toNat < 2 → ∃ vs : List Voice, exec (.noteExpr b a x) s = .next { s with engine :=
        { s.engine with voices := vs } } ∧ vs.length = s.engine.voices.length ∧
      ∀ (j : Nat) (v : Voice), s.engine.voices[j]? = some v → ∃ w : Voice, vs[j]? = some w ∧
        (¬ (Playing v ∧ Reaches false (identOf a) v) → w = v) ∧
        (Playing v ∧ Reaches false (identOf a) v →
          (b.toNat = 0 → w = { v with volExpr := toNum ratNum x }) ∧
          (b.toNat = 1 → Repitched s.engine.srInv { v with tuningExpr := toNum ratNum x } w)))

/-- Only playing voices are touched: a voice in OFF or NEWLY_OFF is left as it is by every command but a
note start, SET_SAMPLE_RATE (which recomputes every voice) and END_BLOCK (which reaps)
(41_voice.md R151; 44_mod_router.md R244). -/
def Obligations.DormantVoicesAreUntouched : Prop :=
  ∀ (i : Instr) (s t : State) (j : Nat) (v : Voice), exec i s = .next t →
    noteStarted i = none → (∀ w, i ≠ .setSampleRate w) → i ≠ .endBlock →
    s.engine.voices[j]? = some v → ¬ Playing v → t.engine.voices[j]? = some v

/-- The inputs that decode but have no effect and raise no fault (60_exceptions.md R276): unlisted ids,
the MIDI messages of 43_scheduler.md R234, and addresses that reach no playing voice. -/
def Obligations.IgnoredInputsChangeNothing : Prop :=
  ∀ (i : Instr) (s : State), s.engine.fault = none → i.WellFormed →
    ((∃ b w, (i = .paramSet b w ∨ i = .paramWrite b w) ∧ 10 ≤ b.toNat) ∨
      (∃ b a w, i = .paramMod b a w ∧ b.toNat ∉ [1, 2, 6, 7, 8]) ∨
      (∃ b a w, i = .noteExpr b a w ∧ 2 ≤ b.toNat) ∨
      (∃ st d1 d2 port, i = .midi st d1 d2 port ∧ (st.toNat < 0x80 ∨ 0x80 ≤ d1.toNat ∨
        0x80 ≤ d2.toNat ∨ (0xA0 ≤ st.toNat ∧ st.toNat < 0xE0) ∨ 0xF0 ≤ st.toNat)) ∨
      (∃ a, noteReleased i = some a ∧ ∀ v ∈ s.engine.voices, Playing v → ¬ Reaches true a v) ∨
      (∃ b a w, i = .paramMod b a w ∧
        ∀ v ∈ s.engine.voices, Playing v → ¬ Reaches true (identOf a) v) ∨
      (∃ b a w, i = .noteExpr b a w ∧
        ∀ v ∈ s.engine.voices, Playing v → ¬ Reaches false (identOf a) v) ∨
      (∃ st d1 d2 port, i = .midi st d1 d2 port ∧ 0xE0 ≤ st.toNat ∧ st.toNat < 0xF0 ∧
        ∀ v ∈ s.engine.voices, ¬ Playing v)) →
    exec i s = .next s
end

