-- ==== Sys2Proof/Laws/Decode.lean ====
section
/-! SUPPORT. Reading back the fields of the words the encoder writes, and the words of the bytes it
sends; the decoder's answers, said once. -/

namespace Sys2Proof

open Machine (field place addrOfWord wordOfAddr operandError)

/-! ### Fields and places -/

theorem getLsbD_field (w : Word) (lo len i : Nat) :
    (field w lo len).getLsbD i = (decide (i < len) && w.getLsbD (lo + i)) := by
  simp [field]

theorem getLsbD_place {n : Nat} (x : BitVec n) (lo i : Nat) :
    (place x lo).getLsbD i = (decide (i < 64) && (decide (lo ≤ i) && x.getLsbD (i - lo))) := by
  by_cases h1 : i < 64 <;> by_cases h2 : lo ≤ i <;> simp [place, h1, h2]

/-- A field of a union is the union of the fields. -/
@[simp] theorem field_or (a b : Word) (lo len : Nat) :
    field (a ||| b) lo len = field a lo len ||| field b lo len := by
  apply BitVec.eq_of_getLsbD_eq
  intro i hi
  simp only [getLsbD_field, BitVec.getLsbD_or]
  cases decide (i < len) <;> simp

/-- A placed field read back. -/
theorem field_place_self {n : Nat} (x : BitVec n) {lo : Nat} (h : lo + n ≤ 64) :
    field (place x lo) lo n = x := by
  apply BitVec.eq_of_getLsbD_eq
  intro i hi
  have h1 : lo + i < 64 := by omega
  simp only [getLsbD_field, getLsbD_place, hi, h1, decide_true, Bool.true_and,
    Nat.le_add_right, Nat.add_sub_cancel_left]

/-- A field outside a placed one is 0. -/
theorem field_place_of_disjoint {n : Nat} (x : BitVec n) {lo lo' len : Nat}
    (h : lo + len ≤ lo' ∨ lo' + n ≤ lo) : field (place x lo') lo len = 0#len := by
  apply BitVec.eq_of_getLsbD_eq
  intro i hi
  simp only [getLsbD_field, getLsbD_place, hi, decide_true, Bool.true_and, BitVec.getLsbD_zero]
  rcases h with h | h
  · have : ¬ lo' ≤ lo + i := by omega
    simp [this]
  · have : x.getLsbD (lo + i - lo') = false := BitVec.getLsbD_of_ge _ _ (by omega)
    simp [this]

/-- One bit of a field put back in its place. -/
theorem getLsbD_place_field (w : Word) (lo len i : Nat) :
    (place (field w lo len) lo).getLsbD i =
      (decide (lo ≤ i ∧ i < lo + len) && w.getLsbD i) := by
  rw [getLsbD_place, getLsbD_field]
  by_cases h1 : lo ≤ i
  · have h2 : lo + (i - lo) = i := by omega
    rw [h2]
    by_cases h3 : i < 64
    · by_cases h4 : i < lo + len
      · have h5 : i - lo < len := by omega
        simp [h1, h3, h4, h5]
      · have h5 : ¬ i - lo < len := by omega
        simp [h1, h3, h4, h5]
    · simp [h3, BitVec.getLsbD_of_ge w i (by omega)]
  · simp [h1]

/-! ### Headers, addresses, bytes -/

@[simp] theorem field_hdrWord_opc (opc sub : Byte) : field (hdrWord opc sub) 0 8 = opc := by
  simp only [hdrWord, field_or, field_place_self opc (show 0 + 8 ≤ 64 by omega),
    field_place_of_disjoint sub (show 0 + 8 ≤ 8 ∨ 8 + 8 ≤ 0 by omega), BitVec.zero_or]

@[simp] theorem field_hdrWord_sub (opc sub : Byte) : field (hdrWord opc sub) 8 8 = sub := by
  simp only [hdrWord, field_or, field_place_self sub (show 8 + 8 ≤ 64 by omega),
    field_place_of_disjoint opc (show 8 + 8 ≤ 0 ∨ 0 + 8 ≤ 8 by omega), BitVec.or_zero]

@[simp] theorem field_hdrWord_rsv (opc sub : Byte) : field (hdrWord opc sub) 16 48 = 0#48 := by
  simp only [hdrWord, field_or,
    field_place_of_disjoint sub (show 16 + 48 ≤ 8 ∨ 8 + 8 ≤ 16 by omega),
    field_place_of_disjoint opc (show 16 + 48 ≤ 0 ∨ 0 + 8 ≤ 16 by omega), BitVec.or_zero]

/-- The fields of a MIDI header, each read back (30_encoding.md R87). -/
theorem field_midiHdrWord (st d1 d2 : Byte) (port : BitVec 16) :
    field (midiHdrWord st d1 d2 port) 0 8 = opcodeByte .midi ∧
    field (midiHdrWord st d1 d2 port) 8 8 = 0#8 ∧
    field (midiHdrWord st d1 d2 port) 16 8 = st ∧
    field (midiHdrWord st d1 d2 port) 24 8 = d1 ∧
    field (midiHdrWord st d1 d2 port) 32 8 = d2 ∧
    field (midiHdrWord st d1 d2 port) 40 16 = port ∧
    field (midiHdrWord st d1 d2 port) 56 8 = 0#8 := by
  refine ⟨?_, ?_, ?_, ?_, ?_, ?_, ?_⟩ <;>
    simp (disch := omega) only [midiHdrWord, field_or, field_place_self, field_place_of_disjoint,
      BitVec.or_zero, BitVec.zero_or]

/-- An ADDR word read back (30_encoding.md R88). -/
@[simp] theorem addrOfWord_wordOfAddr (a : Addr) : addrOfWord (wordOfAddr a) = a := by
  cases a with
  | mk nid port chan key =>
    simp only [addrOfWord, Addr.mk.injEq]
    refine ⟨?_, ?_, ?_, ?_⟩ <;>
      simp (disch := omega) only [wordOfAddr, field_or, field_place_self, field_place_of_disjoint,
        BitVec.or_zero, BitVec.zero_or]

/-- A word's bytes make the word again (20_memory.md R74). -/
theorem wordOfBytes_bytes (w : Word) :
    wordOfBytes (field w 0 8) (field w 8 8) (field w 16 8) (field w 24 8) (field w 32 8)
      (field w 40 8) (field w 48 8) (field w 56 8) = w := by
  apply BitVec.eq_of_getLsbD_eq
  intro i hi
  simp only [wordOfBytes, BitVec.getLsbD_or, getLsbD_place_field]
  cases w.getLsbD i
  · simp
  · simp only [Bool.and_true, Bool.or_eq_true, decide_eq_true_eq]
    omega

/-- The words of a word list's bytes, followed by more bytes (20_memory.md R74, R75). -/
@[simp] theorem wordsOfBytes_append (ws : List Word) (rest : List Byte) :
    wordsOfBytes (bytesOfWords ws ++ rest) = ws ++ wordsOfBytes rest := by
  induction ws with
  | nil => rfl
  | cons w ws ih =>
    simp only [bytesOfWords, bytesOfWord, List.cons_append, List.nil_append, wordsOfBytes,
      wordOfBytes_bytes, ih]

@[simp] theorem wordsOfBytes_nil : wordsOfBytes [] = [] := rfl

@[simp] theorem bytesOfWords_length (ws : List Word) : (bytesOfWords ws).length = 8 * ws.length := by
  induction ws with
  | nil => rfl
  | cons w ws ih => simp [bytesOfWords, bytesOfWord, ih]; omega

/-- The opcode map and its inverse (30_encoding.md R91). -/
@[simp] theorem opcodeOf_opcodeByte (o : Opcode) : opcodeOf (opcodeByte o) = some o := by
  cases o <;> rfl

theorem opcodeByte_of_opcodeOf {b : Byte} {o : Opcode} (h : opcodeOf b = some o) :
    opcodeByte o = b := by
  unfold opcodeOf at h
  split at h
  all_goals first
    | (cases h; rename_i hb; exact (BitVec.eq_of_toNat_eq hb).symm)
    | cases h

end Sys2Proof
end

