-- ==== Sys2Proof/Laws/State.lean ====
section
/-! SUPPORT. One lemma per field per update of State: fault entry, the byte buffers, consuming a packet,
the parameter file. All hold by computation, so later proofs need not open a record update. -/

namespace Sys2Proof.Machine

/-! ### The reference NUM -/

/-- The reference NUM reads a word's binary64 value as it is. -/
theorem toNum_ratNum (w : Word) : toNum ratNum w = binary64 w := rfl

/-- Every value of the reference NUM is finite. -/
@[simp] theorem allFinite_ratNum (xs : List Num) : allFinite ratNum xs = true := rfl

@[simp] theorem ifFinite_ratNum {β : Type} (xs : List Num) (k : Except FaultCode β) :
    ifFinite ratNum xs k = k := rfl

/-! ### Fault entry -/

@[simp] theorem raiseFault_turn (p : Port) (c : FaultCode) (h : Word) (s : State) :
    (raiseFault p c h s).turn = s.turn := by cases p <;> rfl

@[simp] theorem raiseFault_engine_filter (c : FaultCode) (h : Word) (s : State) :
    (raiseFault .engine c h s).filter = s.filter := rfl

@[simp] theorem raiseFault_filter_engine (c : FaultCode) (h : Word) (s : State) :
    (raiseFault .filter c h s).engine = s.engine := rfl

@[simp] theorem raiseFault_engine_engine (c : FaultCode) (h : Word) (s : State) :
    (raiseFault .engine c h s).engine = { s.engine with fault := some ⟨c, h⟩ } := rfl

@[simp] theorem raiseFault_filter_filter (c : FaultCode) (h : Word) (s : State) :
    (raiseFault .filter c h s).filter = { s.filter with fault := some ⟨c, h⟩ } := rfl

@[simp] theorem raiseFault_voices (p : Port) (c : FaultCode) (h : Word) (s : State) :
    (raiseFault p c h s).engine.voices = s.engine.voices := by cases p <;> rfl

@[simp] theorem raiseFault_params (p : Port) (c : FaultCode) (h : Word) (s : State) :
    (raiseFault p c h s).engine.p = s.engine.p := by cases p <;> rfl

@[simp] theorem raiseFault_srInv (p : Port) (c : FaultCode) (h : Word) (s : State) :
    (raiseFault p c h s).engine.srInv = s.engine.srInv := by cases p <;> rfl

@[simp] theorem raiseFault_activated (p : Port) (c : FaultCode) (h : Word) (s : State) :
    (raiseFault p c h s).engine.activated = s.engine.activated := by cases p <;> rfl

@[simp] theorem raiseFault_polyCount (p : Port) (c : FaultCode) (h : Word) (s : State) :
    (raiseFault p c h s).engine.polyCount = s.engine.polyCount := by cases p <;> rfl

@[simp] theorem raiseFault_terminated (p : Port) (c : FaultCode) (h : Word) (s : State) :
    (raiseFault p c h s).engine.terminated = s.engine.terminated := by cases p <;> rfl

@[simp] theorem raiseFault_noteEndFifo (p : Port) (c : FaultCode) (h : Word) (s : State) :
    (raiseFault p c h s).engine.noteEndFifo = s.engine.noteEndFifo := by cases p <;> rfl

@[simp] theorem raiseFault_tickInBlock (p : Port) (c : FaultCode) (h : Word) (s : State) :
    (raiseFault p c h s).engine.tickInBlock = s.engine.tickInBlock := by cases p <;> rfl

@[simp] theorem raiseFault_audioOut (p : Port) (c : FaultCode) (h : Word) (s : State) :
    (raiseFault p c h s).engine.audioOut = s.engine.audioOut := by cases p <;> rfl

@[simp] theorem raiseFault_stealDraws (p : Port) (c : FaultCode) (h : Word) (s : State) :
    (raiseFault p c h s).engine.stealDraws = s.engine.stealDraws := by cases p <;> rfl

@[simp] theorem raiseFault_stealCount (p : Port) (c : FaultCode) (h : Word) (s : State) :
    (raiseFault p c h s).engine.stealCount = s.engine.stealCount := by cases p <;> rfl

@[simp] theorem raiseFault_fu0 (p : Port) (c : FaultCode) (h : Word) (s : State) :
    (raiseFault p c h s).filter.fu0 = s.filter.fu0 := by cases p <;> rfl

@[simp] theorem raiseFault_filterOut (p : Port) (c : FaultCode) (h : Word) (s : State) :
    (raiseFault p c h s).filter.filterOut = s.filter.filterOut := by cases p <;> rfl

@[simp] theorem raiseFault_portBytes (p q : Port) (c : FaultCode) (h : Word) (s : State) :
    portBytes q (raiseFault p c h s) = portBytes q s := by cases p <;> cases q <;> rfl

@[simp] theorem raiseFault_portFault (p : Port) (c : FaultCode) (h : Word) (s : State) :
    portFault p (raiseFault p c h s) = some ⟨c, h⟩ := by cases p <;> rfl

@[simp] theorem raiseFault_otherFault (p : Port) (c : FaultCode) (h : Word) (s : State) :
    portFault (otherPort p) (raiseFault p c h s) = portFault (otherPort p) s := by cases p <;> rfl

@[simp] theorem raiseFault_isFaulted (p : Port) (c : FaultCode) (h : Word) (s : State) :
    isFaulted p (raiseFault p c h s) = true := by cases p <;> rfl

theorem isFaulted_engine (s : State) : isFaulted .engine s = s.engine.fault.isSome := rfl

theorem isFaulted_filter (s : State) : isFaulted .filter s = s.filter.fault.isSome := rfl

@[simp] theorem otherPort_otherPort (p : Port) : otherPort (otherPort p) = p := by cases p <;> rfl

/-! ### Byte buffers -/

@[simp] theorem portBytes_setPortBytes (p : Port) (b : List Byte) (s : State) :
    portBytes p (setPortBytes p b s) = b := by cases p <;> rfl

@[simp] theorem portBytes_setPortBytes_other (p : Port) (b : List Byte) (s : State) :
    portBytes (otherPort p) (setPortBytes p b s) = portBytes (otherPort p) s := by cases p <;> rfl

@[simp] theorem setPortBytes_turn (p : Port) (b : List Byte) (s : State) :
    (setPortBytes p b s).turn = s.turn := by cases p <;> rfl

@[simp] theorem setPortBytes_engine_filter (b : List Byte) (s : State) :
    (setPortBytes .engine b s).filter = s.filter := rfl

@[simp] theorem setPortBytes_engine_engine (b : List Byte) (s : State) :
    (setPortBytes .engine b s).engine = { s.engine with inBytes := b } := rfl

@[simp] theorem setPortBytes_filter_engine (b : List Byte) (s : State) :
    (setPortBytes .filter b s).engine = s.engine := rfl

@[simp] theorem setPortBytes_filter_filter (b : List Byte) (s : State) :
    (setPortBytes .filter b s).filter = { s.filter with inBytes := b } := rfl

@[simp] theorem isFaulted_setPortBytes (p q : Port) (b : List Byte) (s : State) :
    isFaulted q (setPortBytes p b s) = isFaulted q s := by cases p <;> cases q <;> rfl

/-! ### Consuming a packet -/

@[simp] theorem consume_turn (p : Port) (n : Nat) (s : State) :
    (consume p n s).turn = otherPort p := rfl

@[simp] theorem consume_engine_filter (n : Nat) (s : State) :
    (consume .engine n s).filter = s.filter := rfl

@[simp] theorem consume_filter_engine (n : Nat) (s : State) :
    (consume .filter n s).engine = s.engine := rfl

@[simp] theorem consume_engine_engine (n : Nat) (s : State) :
    (consume .engine n s).engine = { s.engine with inBytes := s.engine.inBytes.drop (8 * n) } := rfl

@[simp] theorem consume_filter_filter (n : Nat) (s : State) :
    (consume .filter n s).filter = { s.filter with inBytes := s.filter.inBytes.drop (8 * n) } := rfl

@[simp] theorem isFaulted_consume (p q : Port) (n : Nat) (s : State) :
    isFaulted q (consume p n s) = isFaulted q s := by cases p <;> cases q <;> rfl

/-! ### The parameter file -/

@[simp] theorem getParam_setParam_self (f : ParamFile) (p : ParamId) (x : Num) :
    getParam (setParam f p x) p = x := by cases p <;> rfl

theorem getParam_setParam_of_ne (f : ParamFile) {p q : ParamId} (h : q ≠ p) (x : Num) :
    getParam (setParam f p x) q = getParam f q := by
  cases p <;> cases q <;> first | rfl | exact absurd rfl h

theorem Over.ParamFile.ext_getParam {f g : Over.ParamFile Num} (h : ∀ p, getParam f p = getParam g p) : f = g := by
  cases f; cases g
  simp only [Over.ParamFile.mk.injEq]
  exact ⟨h .unisonCount, h .unisonSpread, h .oscDetune, h .ampAttack, h .ampRelease,
    h .ampEnvBypass, h .preFilterVca, h .cutoff, h .resonance, h .filterMode⟩

end Sys2Proof.Machine
end

