-- ==== Sys2Proof/Laws/Run.lean ====
section
/-! SUPPORT. Everything running a command on its port can do, said once: nothing on a stuck port, the
operand fault, the rule's fault, or the rule's whole effect. -/

namespace Sys2Proof.Machine

/-- The four ways an engine-port command ends. -/
theorem runEngine_cases (i : Instr) (rule : Engine → Except FaultCode Engine) (s : State) :
    (s.engine.fault ≠ none ∧ runEngine ratNum i rule s = .next s) ∨
    (s.engine.fault = none ∧ ∃ e, operandError i = some e ∧
      runEngine ratNum i rule s = .next (raiseFault .engine (decodeErrorCode e) (headerOf i) s)) ∨
    (s.engine.fault = none ∧ operandError i = none ∧ ∃ code, rule s.engine = .error code ∧
      runEngine ratNum i rule s = .next (raiseFault .engine code (headerOf i) s)) ∨
    (s.engine.fault = none ∧ operandError i = none ∧ ∃ e, rule s.engine = .ok e ∧
      runEngine ratNum i rule s = .next { s with engine := e }) := by
  unfold runEngine
  rw [isFaulted_engine]
  cases hf : s.engine.fault with
  | some r => simp
  | none =>
    cases ho : operandError i with
    | some e => simp
    | none => cases hr : rule s.engine <;> simp

/-- The four ways a filter-port command ends. -/
theorem runFilter_cases (i : Instr) (rule : FilterPort → Except FaultCode FilterPort) (s : State) :
    (s.filter.fault ≠ none ∧ runFilter ratNum i rule s = .next s) ∨
    (s.filter.fault = none ∧ ∃ e, operandError i = some e ∧
      runFilter ratNum i rule s = .next (raiseFault .filter (decodeErrorCode e) (headerOf i) s)) ∨
    (s.filter.fault = none ∧ operandError i = none ∧ ∃ code, rule s.filter = .error code ∧
      runFilter ratNum i rule s = .next (raiseFault .filter code (headerOf i) s)) ∨
    (s.filter.fault = none ∧ operandError i = none ∧ ∃ f, rule s.filter = .ok f ∧
      runFilter ratNum i rule s = .next { s with filter := f }) := by
  unfold runFilter
  rw [isFaulted_filter]
  cases hf : s.filter.fault with
  | some r => simp
  | none =>
    cases ho : operandError i with
    | some e => simp
    | none => cases hr : rule s.filter <;> simp

theorem runEngine_ok {i : Instr} {rule : Engine → Except FaultCode Engine} {s : State} {e : Engine}
    (hf : s.engine.fault = none) (ho : operandError i = none) (hr : rule s.engine = .ok e) :
    runEngine ratNum i rule s = .next { s with engine := e } := by
  simp [runEngine, isFaulted_engine, hf, ho, hr]

/-- Whatever the NUM, a rule that faults has its fault taken. -/
theorem runEngine_error {α : Type} {N : NumOps α} {i : Instr}
    {rule : Over.Engine α → Except FaultCode (Over.Engine α)} {s : Over.State α} {code : FaultCode} (hf : s.engine.fault = none) (ho : operandError i = none)
    (hr : rule s.engine = .error code) :
    runEngine N i rule s = .next (raiseFault .engine code (headerOf i) s) := by
  simp [runEngine, isFaulted, portFault, hf, ho, hr]

theorem runEngine_operandError {i : Instr} {rule : Engine → Except FaultCode Engine} {s : State}
    {e : DecodeError} (hf : s.engine.fault = none) (ho : operandError i = some e) :
    runEngine ratNum i rule s = .next (raiseFault .engine (decodeErrorCode e) (headerOf i) s) := by
  simp [runEngine, isFaulted_engine, hf, ho]

theorem runEngine_faulted {i : Instr} {rule : Engine → Except FaultCode Engine} {s : State}
    (hf : s.engine.fault ≠ none) : runEngine ratNum i rule s = .next s := by
  simp [runEngine, isFaulted_engine, Option.isSome_iff_ne_none, hf]

theorem runFilter_ok {i : Instr} {rule : FilterPort → Except FaultCode FilterPort} {s : State}
    {f : FilterPort} (hf : s.filter.fault = none) (ho : operandError i = none)
    (hr : rule s.filter = .ok f) : runFilter ratNum i rule s = .next { s with filter := f } := by
  simp [runFilter, isFaulted_filter, hf, ho, hr]

theorem runFilter_error {α : Type} {N : NumOps α} {i : Instr}
    {rule : Over.FilterPort α → Except FaultCode (Over.FilterPort α)} {s : Over.State α} {code : FaultCode} (hf : s.filter.fault = none) (ho : operandError i = none)
    (hr : rule s.filter = .error code) :
    runFilter N i rule s = .next (raiseFault .filter code (headerOf i) s) := by
  simp [runFilter, isFaulted, portFault, hf, ho, hr]

theorem runFilter_operandError {i : Instr} {rule : FilterPort → Except FaultCode FilterPort}
    {s : State} {e : DecodeError} (hf : s.filter.fault = none) (ho : operandError i = some e) :
    runFilter ratNum i rule s = .next (raiseFault .filter (decodeErrorCode e) (headerOf i) s) := by
  simp [runFilter, isFaulted_filter, hf, ho]

theorem runFilter_faulted {i : Instr} {rule : FilterPort → Except FaultCode FilterPort} {s : State}
    (hf : s.filter.fault ≠ none) : runFilter ratNum i rule s = .next s := by
  simp [runFilter, isFaulted_filter, Option.isSome_iff_ne_none, hf]

/-! ### In any NUM -/

section

variable {α : Type}

/-- The check of a rule's values, as an if. -/
theorem ifFinite_eq {β : Type} (N : NumOps α) (xs : List α) (k : Except FaultCode β) :
    ifFinite N xs k = if allFinite N xs = true then k else .error .arithDomain := by
  unfold ifFinite allFinite; cases N.finite <;> rfl

theorem ifFinite_error {β : Type} {N : NumOps α} {xs : List α} (h : allFinite N xs = false)
    (k : Except FaultCode β) : ifFinite N xs k = .error .arithDomain := by rw [ifFinite_eq]; simp [h]

/-- A check that cannot fail otherwise faults so whatever the values are (60_exceptions.md R265). -/
theorem ifFinite_arithDomain {β : Type} (N : NumOps α) (xs : List α) {k : Except FaultCode β}
    (h : k = .error .arithDomain) : ifFinite N xs k = .error .arithDomain := by
  rw [ifFinite_eq, h]; split <;> rfl

/-- Whatever the NUM, an engine-port command answers a next state with the filter port as it was, and with
a fault recorded or every value finite (60_exceptions.md R266). -/
theorem runEngine_next (N : NumOps α) (i : Instr) (rule : Over.Engine α → Except FaultCode (Over.Engine α))
    (s : Over.State α) : ∃ t, runEngine N i rule s = .next t ∧ t.filter = s.filter ∧
      (t.engine.fault = none → allFinite N t.engine.nums = true) := by
  unfold runEngine
  split
  · rename_i h
    refine ⟨_, rfl, rfl, fun hn => ?_⟩
    simp [isFaulted, portFault, hn] at h
  · split
    · exact ⟨_, rfl, rfl, fun hn => by cases hn⟩
    · split
      · exact ⟨_, rfl, rfl, fun hn => by cases hn⟩
      · split
        · rename_i h; exact ⟨_, rfl, rfl, fun _ => h⟩
        · exact ⟨_, rfl, rfl, fun hn => by cases hn⟩

/-- The same of a filter-port command. -/
theorem runFilter_next (N : NumOps α) (i : Instr)
    (rule : Over.FilterPort α → Except FaultCode (Over.FilterPort α))
    (s : Over.State α) : ∃ t, runFilter N i rule s = .next t ∧ t.engine = s.engine ∧
      (t.filter.fault = none → allFinite N t.filter.nums = true) := by
  unfold runFilter
  split
  · rename_i h
    refine ⟨_, rfl, rfl, fun hn => ?_⟩
    simp [isFaulted, portFault, hn] at h
  · split
    · exact ⟨_, rfl, rfl, fun hn => by cases hn⟩
    · split
      · exact ⟨_, rfl, rfl, fun hn => by cases hn⟩
      · split
        · rename_i h; exact ⟨_, rfl, rfl, fun _ => h⟩
        · exact ⟨_, rfl, rfl, fun hn => by cases hn⟩

variable [Add α] [Sub α] [Mul α] [Div α] [Neg α] [LT α] [LE α] [DecidableLT α]
  [DecidableLE α] [NatCast α] [IntCast α] [∀ n, OfNat α n]

/-- Whatever the NUM and the parameters, an instruction runs a rule on its own port. -/
theorem execWith_cases (N : NumOps α) (c : Over.Params α) (i : Instr) (s : Over.State α) :
    (i.portOf = .engine ∧ ∃ rule, execWith N c i s = runEngine N i rule s) ∨
    (i.portOf = .filter ∧ ∃ rule, execWith N c i s = runFilter N i rule s) := by
  cases i with
  | endBlock => exact .inl ⟨rfl, endBlockRule, rfl⟩
  | noteOff a => exact .inl ⟨rfl, fun e => .ok (releaseNotes (addrIdent a) e), rfl⟩
  | fltReset => exact .inr ⟨rfl, fltResetRule, rfl⟩
  | _ => first | exact .inl ⟨rfl, _, rfl⟩ | exact .inr ⟨rfl, _, rfl⟩

/-- Whatever the NUM and the parameters, an instruction answers a next state. -/
theorem execWith_next (N : NumOps α) (c : Over.Params α) (i : Instr) (s : Over.State α) :
    ∃ t, execWith N c i s = .next t := by
  rcases execWith_cases N c i s with ⟨_, rule, h⟩ | ⟨_, rule, h⟩ <;> rw [h]
  · exact (runEngine_next N i rule s).imp fun _ => And.left
  · exact (runFilter_next N i rule s).imp fun _ => And.left

end

/-! ### At the values the model is instantiated with -/

/-- The rule of an engine-port instruction; the identity for a filter-port one. With `filterRule`, it
lets a proof over all instructions treat them as one. -/
def engineRule (i : Instr) : Engine → Except FaultCode Engine :=
  match i with
  | .setSampleRate sr => setSampleRateRule ratNum params sr
  | .tick => tickRule ratNum params
  | .endBlock => endBlockRule
  | .noteOn a => startNote ratNum params (addrIdent a)
  | .noteOff a => fun e => .ok (releaseNotes (addrIdent a) e)
  | .midi st d1 d2 port => midiRule ratNum params st d1 d2 port
  | .paramSet p v => paramSetRule ratNum params p v
  | .paramWrite p v => paramWriteRule ratNum p v
  | .pushParams => pushParamsRule ratNum params
  | .paramMod p a v => paramModRule ratNum params p a v
  | .noteExpr x a v => noteExprRule ratNum x a v
  | .fltSetCoef _ _ _ => .ok
  | .fltSetMode _ => .ok
  | .fltProcess _ _ => .ok
  | .fltReset => .ok

/-- The rule of a filter-port instruction; the identity for an engine-port one. -/
def filterRule (i : Instr) : FilterPort → Except FaultCode FilterPort :=
  match i with
  | .fltSetCoef key res srInv => fltSetCoefRule ratNum params key res srInv
  | .fltSetMode m => fltSetModeRule m
  | .fltProcess l r => fltProcessRule ratNum l r
  | .fltReset => fltResetRule
  | .setSampleRate _ => .ok
  | .tick => .ok
  | .endBlock => .ok
  | .noteOn _ => .ok
  | .noteOff _ => .ok
  | .midi _ _ _ _ => .ok
  | .paramSet _ _ => .ok
  | .paramWrite _ _ => .ok
  | .pushParams => .ok
  | .paramMod _ _ _ => .ok
  | .noteExpr _ _ _ => .ok

theorem exec_engine {i : Instr} (h : i.portOf = .engine) (s : State) :
    exec i s = runEngine ratNum i (engineRule i) s := by
  cases i <;> first | rfl | cases h

theorem exec_filter {i : Instr} (h : i.portOf = .filter) (s : State) :
    exec i s = runFilter ratNum i (filterRule i) s := by
  cases i <;> first | rfl | cases h

/-- Everything an instruction can do, by its port. -/
theorem exec_cases (i : Instr) (s : State) :
    (i.portOf = .engine ∧ exec i s = runEngine ratNum i (engineRule i) s) ∨
    (i.portOf = .filter ∧ exec i s = runFilter ratNum i (filterRule i) s) := by
  cases h : i.portOf with
  | engine => exact .inl ⟨rfl, exec_engine h s⟩
  | filter => exact .inr ⟨rfl, exec_filter h s⟩

end Sys2Proof.Machine
end

