-- ==== Sys2Proof/Laws/Num.lean ====
section
/-! SUPPORT. What each operation of NUM can be said to give: ranges and signs, so that no later proof
unfolds a series. -/

namespace Sys2Proof.Machine

/-! ### The operations of the reference domain -/

@[simp] theorem ratNum_floor : ratNum.floor = Rat.floor := rfl
@[simp] theorem ratNum_sqrt : ratNum.sqrt = sqrt := rfl
@[simp] theorem ratNum_exp2 : ratNum.exp2 = exp2 := rfl
@[simp] theorem ratNum_tan : ratNum.tan = tan := rfl
@[simp] theorem ratNum_pi : ratNum.pi = pi := rfl

/-! ### Ranges -/

theorem clamp_bounds {x lo hi : Num} (h : lo ≤ hi) : lo ≤ clamp x lo hi ∧ clamp x lo hi ≤ hi := by
  unfold clamp
  split_ifs with h1 h2
  · exact ⟨le_refl _, h⟩
  · exact ⟨h, le_refl _⟩
  · exact ⟨not_lt.mp h1, not_lt.mp h2⟩

theorem clamp_of_mem {x lo hi : Num} (h1 : lo ≤ x) (h2 : x ≤ hi) : clamp x lo hi = x := by
  simp [clamp, not_lt.mpr h1, not_lt.mpr h2]

theorem wrap_bounds (x : Num) : 0 ≤ wrap ratNum x ∧ wrap ratNum x < 1 := by
  have h1 : ((x.floor : Int) : Num) ≤ x := Rat.floor_le x
  have h2 : x < ((x.floor : Int) : Num) + 1 := by exact_mod_cast Rat.lt_floor_add_one x
  simp only [wrap, ratNum_floor]
  constructor <;> linarith

theorem wrap_of_mem {x : Num} (h1 : 0 ≤ x) (h2 : x < 1) : wrap ratNum x = x := by
  have : x.floor = 0 := by
    exact (Int.floor_eq_iff (a := x)).mpr ⟨by simpa using h1, by simpa using h2⟩
  simp [wrap, this]

theorem snap_bounds {x : Num} {lo hi : Int} (h : lo ≤ hi) : lo ≤ snap ratNum x lo hi ∧ snap ratNum x lo hi ≤ hi := by
  simp only [snap]
  split_ifs <;> omega

theorem timesPow2_eq (m : Nat) (s : Int) : timesPow2 m s = (m : Num) * (2 : Num) ^ s := by
  cases s with
  | ofNat k => simp [timesPow2, Rat.mkRat_eq_div]
  | negSucc k => simp [timesPow2, Rat.mkRat_eq_div, zpow_negSucc, div_eq_mul_inv]

theorem timesPow2_nonneg (m : Nat) (s : Int) : 0 ≤ timesPow2 m s := by
  rw [timesPow2_eq]; positivity

theorem roundHalfEven_ge (n d : Nat) : n / d ≤ roundHalfEven n d := by
  simp only [roundHalfEven]; split_ifs <;> omega

theorem roundQuot_nonneg (n d : Nat) : 0 ≤ roundQuot n d := by
  unfold roundQuot
  split_ifs
  · exact le_refl _
  · exact timesPow2_nonneg _ _

theorem expSeries_ge (z fuel j t : Nat) : t ≤ expSeries z (fuel + 1) j t := by
  simp [expSeries]

theorem exp2Frac_bounds (f : Num) : 2 ^ 52 ≤ exp2Frac f ∧ exp2Frac f ≤ 2 ^ 53 := by
  have h : 2 ^ 52 ≤ roundHalfEven
      (expSeries (f.num.toNat * ln2Fix / f.den) 64 1 (2 ^ fixBits)) (2 ^ (fixBits - 52)) := by
    refine le_trans ?_ (roundHalfEven_ge _ _)
    rw [Nat.le_div_iff_mul_le (by positivity)]
    refine le_trans (le_of_eq ?_) (expSeries_ge _ _ _ _)
    decide +kernel
  unfold exp2Frac
  simp only []
  split_ifs <;> omega

theorem exp2Parts_snd_bounds (x : Num) : 2 ^ 52 ≤ (exp2Parts x).2 ∧ (exp2Parts x).2 ≤ 2 ^ 53 := by
  unfold exp2Parts
  exact exp2Frac_bounds _

theorem exp2_eq (x : Num) :
    exp2 x = ((exp2Parts x).2 : Num) * (2 : Num) ^ ((exp2Parts x).1 - 52) := by
  unfold exp2
  exact timesPow2_eq _ _

/-- exp2 lies between the powers of two next to it. -/
theorem exp2_bounds (x : Num) :
    (2 : Num) ^ (exp2Parts x).1 ≤ exp2 x ∧ exp2 x ≤ (2 : Num) ^ ((exp2Parts x).1 + 1) := by
  obtain ⟨h1, h2⟩ := exp2Parts_snd_bounds x
  rw [exp2_eq]
  generalize (exp2Parts x).2 = m at *
  generalize (exp2Parts x).1 = k at *
  have h1' : (2 : Num) ^ (52 : Int) ≤ (m : Num) := by exact_mod_cast h1
  have h2' : (m : Num) ≤ (2 : Num) ^ (53 : Int) := by exact_mod_cast h2
  have hp : (0 : Num) ≤ 2 ^ (k - 52) := by positivity
  constructor
  · calc (2 : Num) ^ k = 2 ^ (52 : Int) * 2 ^ (k - 52) := by
          rw [← zpow_add₀ (by norm_num)]; congr 1; omega
      _ ≤ _ := mul_le_mul_of_nonneg_right h1' hp
  · calc _ ≤ (2 : Num) ^ (53 : Int) * 2 ^ (k - 52) := mul_le_mul_of_nonneg_right h2' hp
      _ = (2 : Num) ^ (k + 1) := by
          rw [← zpow_add₀ (by norm_num)]; congr 1; omega

theorem exp2_pos (x : Num) : 0 < exp2 x :=
  lt_of_lt_of_le (by positivity) (exp2_bounds x).1

/-- No frequency is 0 or negative (41_voice.md R163). -/
theorem keyToHz_pos (k : Num) : 0 < keyToHz ratNum k := by
  have := exp2_pos ((k - 69) / 12)
  simp only [keyToHz, ratNum_exp2]; positivity

theorem keyToHzClamped_bounds {key lo hi : Num} (h : lo ≤ hi) :
    lo ≤ keyToHzClamped key lo hi ∧ keyToHzClamped key lo hi ≤ hi := by
  simp only [keyToHzClamped]
  split_ifs
  · exact ⟨h, le_refl _⟩
  · exact ⟨le_refl _, h⟩
  · exact clamp_bounds h

theorem roundNum_nonneg {x : Num} (h : 0 ≤ x) : 0 ≤ roundNum x := by
  have : ¬ x.num < 0 := by simpa using h
  simp only [roundNum, this, if_false]
  exact roundQuot_nonneg _ _

/-- tan of an argument of at least 0 is at least 0. -/
theorem tan_nonneg {x : Num} (h : 0 ≤ x) : 0 ≤ tan x := by
  have : ¬ (roundNum x).num < 0 := by simpa using roundNum_nonneg h
  unfold tan
  simp only [this, if_false]
  exact roundQuot_nonneg _ _

theorem pi_pos : 0 < pi := by decide +kernel

end Sys2Proof.Machine
end

