-- ==== Sys2Proof/Laws/Filter.lean ====
section
/-! SUPPORT. What each filter operation changes and what it keeps. -/

namespace Sys2Proof.Machine

/-- Everything setCoefficients can do (40_filter_unit.md R121 to R124). -/
theorem setCoefficients_cases (c : Params) (key res srInv : Num) (fu : FilterUnit) :
    (srInv ≤ 0 ∧ setCoefficients ratNum c key res srInv fu = .error .badSampleRate) ∨
    (0 < srInv ∧ 1 / 2 ≤ cutoffHz ratNum c key * srInv ∧
      setCoefficients ratNum c key res srInv fu = .error .unstableCutoff) ∨
    (0 < srInv ∧ cutoffHz ratNum c key * srInv < 1 / 2 ∧
      setCoefficients ratNum c key res srInv fu =
        .ok (withCoefficients (tan (pi * cutoffHz ratNum c key * srInv)) (damping c res) fu)) := by
  by_cases h1 : 0 < srInv
  · by_cases h2 : 1 / 2 ≤ cutoffHz ratNum c key * srInv
    · exact .inr (.inl ⟨h1, h2, by simp only [setCoefficients, h1, not_true, if_false, h2, if_true, ifFinite_ratNum]⟩)
    · exact .inr (.inr ⟨h1, not_le.mp h2,
        by simp only [setCoefficients, h1, not_true, if_false, h2, ratNum_tan, ratNum_pi, ifFinite_ratNum]⟩)
  · exact .inl ⟨not_lt.mp h1, by simp only [setCoefficients, h1, not_false_iff, if_true, ifFinite_ratNum]⟩

@[simp] theorem withCoefficients_mode (g k : Num) (fu : FilterUnit) :
    (withCoefficients g k fu).mode = fu.mode := rfl

@[simp] theorem withCoefficients_left (g k : Num) (fu : FilterUnit) :
    (withCoefficients g k fu).left = fu.left := rfl

@[simp] theorem withCoefficients_right (g k : Num) (fu : FilterUnit) :
    (withCoefficients g k fu).right = fu.right := rfl

@[simp] theorem withCoefficients_coefValid (g k : Num) (fu : FilterUnit) :
    (withCoefficients g k fu).coefValid = true := rfl

@[simp] theorem withCoefficients_g (g k : Num) (fu : FilterUnit) :
    (withCoefficients g k fu).g = g := rfl

@[simp] theorem withCoefficients_k (g k : Num) (fu : FilterUnit) :
    (withCoefficients g k fu).k = k := rfl

@[simp] theorem setMode_mode (m : FilterMode) (fu : FilterUnit) : (setMode m fu).mode = m := by
  unfold setMode
  split
  · rfl
  · rename_i h; exact (not_not.mp h).symm

theorem setMode_self (fu : FilterUnit) : setMode fu.mode fu = fu := by simp [setMode]

theorem setMode_coef (m : FilterMode) (fu : FilterUnit) :
    (setMode m fu).g = fu.g ∧ (setMode m fu).k = fu.k ∧ (setMode m fu).a1 = fu.a1 ∧
      (setMode m fu).a2 = fu.a2 ∧ (setMode m fu).a3 = fu.a3 ∧
      (setMode m fu).coefValid = fu.coefValid := by
  unfold setMode
  split <;> exact ⟨rfl, rfl, rfl, rfl, rfl, rfl⟩

theorem processStereo_coef (fu : FilterUnit) (l r : Num) :
    (processStereo fu l r).1 =
      { fu with left := (processLane fu fu.left l).1, right := (processLane fu fu.right r).1 } := rfl

/-! ### The coefficient invariant -/

theorem damping_bounds {c : Params} (h1 : 0 < c.resMin) (h2 : c.resMin ≤ c.resMax)
    (h3 : c.resMax < 1) (res : Num) : 0 < damping c res ∧ damping c res < 2 := by
  have h := clamp_bounds (x := res) h2
  unfold damping
  constructor <;> linarith [h.1, h.2]

theorem withCoefficients_sound {g k : Num} (hg : 0 ≤ g) (hk : 0 < k) (hk2 : k < 2)
    (fu : FilterUnit) : (withCoefficients g k fu).Sound := by
  intro _
  have h1 : 0 ≤ g * (g + k) := by positivity
  have h2 : (0 : Num) < 1 + g * (g + k) := by linarith
  refine ⟨hg, hk, hk2, ?_, ?_, ?_, rfl, rfl⟩
  · exact one_div_mul_cancel h2.ne'
  · exact one_div_pos.mpr h2
  · exact (div_le_one h2).mpr (by linarith)

/-- A unit with the same coefficients is as sound. -/
theorem Over.FilterUnit.Sound.congr {fu fu' : Over.FilterUnit Num} (h : fu.Sound) (hv : fu'.coefValid = fu.coefValid)
    (hg : fu'.g = fu.g) (hk : fu'.k = fu.k) (h1 : fu'.a1 = fu.a1) (h2 : fu'.a2 = fu.a2)
    (h3 : fu'.a3 = fu.a3) : fu'.Sound := by
  intro hc
  rw [hg, hk, h1, h2, h3]
  exact h (hv ▸ hc)

theorem clearState_sound {fu : FilterUnit} (h : fu.Sound) : (clearState fu).Sound :=
  h.congr rfl rfl rfl rfl rfl rfl

theorem setMode_sound {fu : FilterUnit} (m : FilterMode) (h : fu.Sound) : (setMode m fu).Sound := by
  obtain ⟨h1, h2, h3, h4, h5, h6⟩ := setMode_coef m fu
  exact h.congr h6 h1 h2 h3 h4 h5

theorem processStereo_sound {fu : FilterUnit} (l r : Num) (h : fu.Sound) :
    (processStereo fu l r).1.Sound := h.congr rfl rfl rfl rfl rfl rfl

end Sys2Proof.Machine
end

