-- ==== Sys2Proof/Laws/Loop.lean ====
section
/-! SUPPORT. The loops over the voice array: `forVoices` succeeds exactly when every body does, and then
gives each voice its own body's result; `updPlaying` and `onPlaying` leave other voices alone. -/

namespace Sys2Proof.Machine

/-- The lowest-indexed voice whose body faults decides, whatever the NUM (60_exceptions.md R265). -/
theorem forVoices_error_at {α : Type} {f : Over.Voice α → Except FaultCode (Over.Voice α)} {code : FaultCode}
    {us : List (Over.Voice α)} {v : Over.Voice α} (vs : List (Over.Voice α))
    (hu : ∀ u ∈ us, ∃ u', f u = .ok u') (hv : f v = .error code) :
    forVoices f (us ++ v :: vs) = .error code := by
  induction us with
  | nil => simp [forVoices, hv]
  | cons u us ih =>
    obtain ⟨u', h⟩ := hu u (List.mem_cons_self ..)
    simp [forVoices, h, ih fun x hx => hu x (List.mem_cons_of_mem _ hx)]

theorem forVoices_ok_iff (f : Voice → Except FaultCode Voice) (vs ws : List Voice) :
    forVoices f vs = .ok ws ↔ List.Forall₂ (fun v w => f v = .ok w) vs ws := by
  induction vs generalizing ws with
  | nil =>
    constructor
    · intro h; cases h; exact .nil
    · intro h; cases h; rfl
  | cons v vs ih =>
    simp only [forVoices]
    cases hv : f v with
    | error c =>
      simp only [reduceCtorEq, false_iff]
      intro h; cases h with
      | cons h _ => rw [hv] at h; cases h
    | ok w =>
      cases hr : forVoices f vs with
      | error c =>
        simp only [reduceCtorEq, false_iff]
        intro h; cases h with
        | cons _ h => rw [(ih _).mpr h] at hr; cases hr
      | ok ws' =>
        constructor
        · intro h; cases h; exact .cons hv ((ih _).mp hr)
        · intro h; cases h with
          | cons h1 h2 =>
            rw [hv] at h1; cases h1
            rw [(ih _).mpr h2] at hr; cases hr; rfl

theorem forVoices_length {f : Voice → Except FaultCode Voice} {vs ws : List Voice}
    (h : forVoices f vs = .ok ws) : ws.length = vs.length :=
  ((forVoices_ok_iff _ _ _).mp h).length_eq.symm

theorem forVoices_getElem? {f : Voice → Except FaultCode Voice} {vs ws : List Voice}
    (h : forVoices f vs = .ok ws) {j : Nat} {v w : Voice} (hv : vs[j]? = some v)
    (hw : ws[j]? = some w) : f v = .ok w := by
  have hf := (forVoices_ok_iff _ _ _).mp h
  induction hf generalizing j with
  | nil => simp at hv
  | cons h1 h2 ih =>
    cases j with
    | zero => simp at hv hw; subst hv hw; exact h1
    | succ j => exact ih ((forVoices_ok_iff _ _ _).mpr h2) (by simpa using hv) (by simpa using hw)

theorem forVoices_mem {f : Voice → Except FaultCode Voice} {vs ws : List Voice}
    (h : forVoices f vs = .ok ws) {w : Voice} (hw : w ∈ ws) : ∃ v ∈ vs, f v = .ok w := by
  have hf := (forVoices_ok_iff _ _ _).mp h
  clear h
  induction hf with
  | nil => cases hw
  | cons h1 _ ih =>
    rcases List.mem_cons.mp hw with rfl | hw
    · exact ⟨_, List.mem_cons_self, h1⟩
    · obtain ⟨v, hv, h⟩ := ih hw; exact ⟨v, List.mem_cons_of_mem _ hv, h⟩

/-- A loop whose bodies all succeed succeeds. -/
theorem forVoices_of_forall {f : Voice → Except FaultCode Voice} {vs : List Voice}
    (h : ∀ v ∈ vs, ∃ w, f v = .ok w) : ∃ ws, forVoices f vs = .ok ws := by
  induction vs with
  | nil => exact ⟨_, rfl⟩
  | cons v vs ih =>
    obtain ⟨w, hw⟩ := h v List.mem_cons_self
    obtain ⟨ws, hws⟩ := ih fun u hu => h u (List.mem_cons_of_mem _ hu)
    exact ⟨w :: ws, by simp [forVoices, hw, hws]⟩

/-- A loop that faults has a body that faults with the same code. -/
theorem forVoices_error {f : Voice → Except FaultCode Voice} {vs : List Voice} {c : FaultCode}
    (h : forVoices f vs = .error c) : ∃ v ∈ vs, f v = .error c := by
  induction vs with
  | nil => cases h
  | cons v vs ih =>
    simp only [forVoices] at h
    cases hv : f v with
    | error c' => rw [hv] at h; cases h; exact ⟨v, List.mem_cons_self, hv⟩
    | ok w =>
      rw [hv] at h
      cases hr : forVoices f vs with
      | error c' =>
        rw [hr] at h; cases h
        obtain ⟨u, hu, hc⟩ := ih hr
        exact ⟨u, List.mem_cons_of_mem _ hu, hc⟩
      | ok ws => rw [hr] at h; cases h

theorem updPlaying_of_not {sel : Voice → Bool} {f : Voice → Voice} {v : Voice}
    (h : (isPlaying v && sel v) = false) : updPlaying sel f v = v := by simp [updPlaying, h]

theorem updPlaying_of {sel : Voice → Bool} {f : Voice → Voice} {v : Voice}
    (h : (isPlaying v && sel v) = true) : updPlaying sel f v = f v := by simp [updPlaying, h]

theorem onPlaying_of_not {sel : Voice → Bool} {f : Voice → Except FaultCode Voice} {v : Voice}
    (h : (isPlaying v && sel v) = false) : onPlaying sel f v = .ok v := by simp [onPlaying, h]

theorem onPlaying_of {sel : Voice → Bool} {f : Voice → Except FaultCode Voice} {v : Voice}
    (h : (isPlaying v && sel v) = true) : onPlaying sel f v = f v := by simp [onPlaying, h]

/-- What a voice may have become in a loop over the selected playing voices. -/
theorem onPlaying_cases {sel : Voice → Bool} {f : Voice → Except FaultCode Voice} {v w : Voice}
    (h : onPlaying sel f v = .ok w) :
    (isPlaying v = true ∧ sel v = true ∧ f v = .ok w) ∨
      ((isPlaying v && sel v) = false ∧ w = v) := by
  unfold onPlaying at h
  split at h
  · rename_i hc; rw [Bool.and_eq_true] at hc; exact .inl ⟨hc.1, hc.2, h⟩
  · rename_i hc; exact .inr ⟨by simpa using hc, by cases h; rfl⟩

end Sys2Proof.Machine
end

