-- ==== Sys2Proof/Laws/Voice.lean ====
section
/-! SUPPORT. What each voice operation changes and what it keeps. -/

namespace Sys2Proof.Machine

/-! ### Slots -/

@[simp] theorem recalcPitch_slots_length (sr : Num) (v : Voice) :
    (recalcPitch ratNum sr v).slots.length = v.slots.length := by simp [recalcPitch]

@[simp] theorem recalcPitch_env (sr : Num) (v : Voice) : (recalcPitch ratNum sr v).env = v.env := rfl

@[simp] theorem recalcPitch_ident (sr : Num) (v : Voice) : (recalcPitch ratNum sr v).ident = v.ident := rfl

@[simp] theorem recalcPitch_unison (sr : Num) (v : Voice) :
    (recalcPitch ratNum sr v).unison = v.unison := rfl

@[simp] theorem recalcPitch_norm (sr : Num) (v : Voice) : (recalcPitch ratNum sr v).norm = v.norm := rfl

@[simp] theorem recalcPitch_flt (sr : Num) (v : Voice) : (recalcPitch ratNum sr v).flt = v.flt := rfl

@[simp] theorem recalcPitch_mode (sr : Num) (v : Voice) : (recalcPitch ratNum sr v).mode = v.mode := rfl

@[simp] theorem recalcPitch_t (sr : Num) (v : Voice) : (recalcPitch ratNum sr v).t = v.t := rfl

@[simp] theorem recalcPitch_level (sr : Num) (v : Voice) : (recalcPitch ratNum sr v).level = v.level := rfl

@[simp] theorem recalcPitch_releaseFrom (sr : Num) (v : Voice) :
    (recalcPitch ratNum sr v).releaseFrom = v.releaseFrom := rfl

/-- One slot after recalcPitch (41_voice.md R156). -/
theorem recalcPitch_slot (sr : Num) (v : Voice) (i : Nat) :
    (recalcPitch ratNum sr v).slots[i]? = v.slots[i]?.map fun sl =>
      if i < v.unison then { sl with dphase := keyToHz ratNum (copyPitch v i) * sr } else sl := by
  simp [recalcPitch, List.getElem?_mapIdx]

/-- recalcPitch reads only what it does not write: running it again changes nothing
(41_voice.md R169). -/
theorem recalcPitch_idem (sr : Num) (v : Voice) :
    recalcPitch ratNum sr (recalcPitch ratNum sr v) = recalcPitch ratNum sr v := by
  have h : (recalcPitch ratNum sr (recalcPitch ratNum sr v)).slots = (recalcPitch ratNum sr v).slots := by
    apply List.ext_getElem?
    intro i
    rw [recalcPitch_slot, recalcPitch_slot]
    cases v.slots[i]? with
    | none => rfl
    | some sl =>
      by_cases hi : i < v.unison
      · simp only [Option.map_some, recalcPitch_unison, hi, if_true]; rfl
      · simp [hi]
  have h2 : recalcPitch ratNum sr (recalcPitch ratNum sr v) =
      { recalcPitch ratNum sr v with slots := (recalcPitch ratNum sr (recalcPitch ratNum sr v)).slots } := rfl
  rw [h2, h]

/-! ### Recomputation -/

/-- Everything recalcFilter can do (41_voice.md R157). -/
theorem recalcFilter_cases (c : Params) (sr : Num) (v : Voice) :
    (sr ≤ 0 ∧ recalcFilter ratNum c sr v = .ok v) ∨
    (0 < sr ∧ 1 / 2 ≤ cutoffHz ratNum c (v.cutoffBase + v.cutoffMod) * sr ∧
      recalcFilter ratNum c sr v = .error .unstableCutoff) ∨
    (0 < sr ∧ cutoffHz ratNum c (v.cutoffBase + v.cutoffMod) * sr < 1 / 2 ∧
      recalcFilter ratNum c sr v = .ok { v with
        flt := withCoefficients (tan (pi * cutoffHz ratNum c (v.cutoffBase + v.cutoffMod) * sr))
          (damping c (v.resBase + v.resMod)) v.flt }) := by
  by_cases h : 0 < sr
  · rcases setCoefficients_cases c (v.cutoffBase + v.cutoffMod) (v.resBase + v.resMod) sr v.flt
      with ⟨h1, _⟩ | ⟨_, h2, h3⟩ | ⟨_, h2, h3⟩
    · exact absurd h (not_lt.mpr h1)
    · exact .inr (.inl ⟨h, h2, by simp only [recalcFilter, h, if_true, h3, ifFinite_ratNum]⟩)
    · exact .inr (.inr ⟨h, h2, by simp only [recalcFilter, h, if_true, h3, ifFinite_ratNum]⟩)
  · exact .inl ⟨not_lt.mp h, by simp only [recalcFilter, h, if_false, ifFinite_ratNum]⟩

/-- A recalcFilter that succeeds writes only the filter's coefficients. -/
theorem recalcFilter_ok {c : Params} {sr : Num} {v w : Voice} (h : recalcFilter ratNum c sr v = .ok w) :
    ∃ fu, w = { v with flt := fu } ∧ fu.mode = v.flt.mode ∧ fu.left = v.flt.left ∧
      fu.right = v.flt.right ∧ (sr ≤ 0 → fu = v.flt) ∧
      (0 < sr → fu = withCoefficients (tan (pi * cutoffHz ratNum c (v.cutoffBase + v.cutoffMod) * sr))
          (damping c (v.resBase + v.resMod)) v.flt) := by
  rcases recalcFilter_cases c sr v with ⟨h1, h2⟩ | ⟨_, _, h2⟩ | ⟨h1, _, h2⟩
  · rw [h2] at h; cases h
    exact ⟨v.flt, rfl, rfl, rfl, rfl, fun _ => rfl, fun hs => absurd hs (not_lt.mpr h1)⟩
  · rw [h2] at h; cases h
  · rw [h2] at h; cases h
    exact ⟨_, rfl, rfl, rfl, rfl, fun hs => absurd h1 (not_lt.mpr hs), fun _ => rfl⟩

/-- The recomputations fault with UNSTABLE_CUTOFF only (40_filter_unit.md R121, 41_voice.md R157). -/
theorem recalcFilter_error {c : Params} {sr : Num} {v : Voice} {code : FaultCode}
    (h : recalcFilter ratNum c sr v = .error code) :
    code = .unstableCutoff ∧ 0 < sr ∧ 1 / 2 ≤ cutoffHz ratNum c (v.cutoffBase + v.cutoffMod) * sr := by
  rcases recalcFilter_cases c sr v with ⟨_, h2⟩ | ⟨h1, h3, h2⟩ | ⟨_, _, h2⟩
  · rw [h2] at h; cases h
  · rw [h2] at h; cases h; exact ⟨rfl, h1, h3⟩
  · rw [h2] at h; cases h

/-- recalcFilter succeeds where the cutoff is stable (40_filter_unit.md R121). -/
theorem recalcFilter_exists {c : Params} {sr : Num} {v : Voice}
    (h : cutoffHz ratNum c (v.cutoffBase + v.cutoffMod) * sr < 1 / 2) : ∃ w, recalcFilter ratNum c sr v = .ok w := by
  rcases recalcFilter_cases c sr v with ⟨_, h2⟩ | ⟨_, h3, _⟩ | ⟨_, _, h2⟩
  · exact ⟨_, h2⟩
  · exact absurd h (not_lt.mpr h3)
  · exact ⟨_, h2⟩

/-- In the rationals every value is finite, so the two recomputations follow each other. -/
theorem recalcBoth_ratNum (c : Params) (sr : Num) (v : Voice) :
    recalcBoth ratNum c sr v = recalcFilter ratNum c sr (recalcPitch ratNum sr v) := rfl

theorem recalcBoth_ok {c : Params} {sr : Num} {v w : Voice} (h : recalcBoth ratNum c sr v = .ok w) :
    ∃ fu, w = { recalcPitch ratNum sr v with flt := fu } ∧ fu.mode = v.flt.mode ∧ fu.left = v.flt.left ∧
      fu.right = v.flt.right ∧ (sr ≤ 0 → fu = v.flt) ∧
      (0 < sr → fu = withCoefficients (tan (pi * cutoffHz ratNum c (v.cutoffBase + v.cutoffMod) * sr))
          (damping c (v.resBase + v.resMod)) v.flt) :=
  recalcFilter_ok h

theorem recalcBoth_error {c : Params} {sr : Num} {v : Voice} {code : FaultCode}
    (h : recalcBoth ratNum c sr v = .error code) :
    code = .unstableCutoff ∧ 0 < sr ∧ 1 / 2 ≤ cutoffHz ratNum c (v.cutoffBase + v.cutoffMod) * sr :=
  recalcFilter_error (v := recalcPitch ratNum sr v) h

theorem recalcBoth_exists {c : Params} {sr : Num} {v : Voice}
    (h : cutoffHz ratNum c (v.cutoffBase + v.cutoffMod) * sr < 1 / 2) : ∃ w, recalcBoth ratNum c sr v = .ok w :=
  recalcFilter_exists (v := recalcPitch ratNum sr v) h

/-! ### Activation -/

@[simp] theorem activatedVoice_ident (c : Params) (p : ParamFile) (i : Identity) (v : Voice) :
    (activatedVoice ratNum c p i v).ident = i := by
  simp only [activatedVoice, initEnvelope, initPhases, panNorm, copyBase]
  split <;> rfl

theorem activatedVoice_env (c : Params) (p : ParamFile) (i : Identity) (v : Voice) :
    (activatedVoice ratNum c p i v).env = if p.ampAttack ≤ 0 then .hold else .attack := by
  simp only [activatedVoice, initEnvelope, initPhases, panNorm, copyBase]
  split <;> rfl

@[simp] theorem activatedVoice_slots_length (c : Params) (p : ParamFile) (i : Identity) (v : Voice) :
    (activatedVoice ratNum c p i v).slots.length = v.slots.length := by
  simp only [activatedVoice, initEnvelope, initPhases, panNorm, copyBase]
  split <;> simp

@[simp] theorem activatedVoice_unison (c : Params) (p : ParamFile) (i : Identity) (v : Voice) :
    (activatedVoice ratNum c p i v).unison = (snap ratNum p.unisonCount 1 7).toNat := by
  simp only [activatedVoice, initEnvelope, initPhases, panNorm, copyBase]
  split <;> rfl

/-! ### The per-sample step -/

/-- The envelope step writes ENV, T, LEVEL and RELEASE_FROM only (41_voice.md R159 to R161). -/
theorem envStep_frame (sr : Num) (v : Voice) :
    envStep sr v = { v with
      env := (envStep sr v).env, t := (envStep sr v).t, level := (envStep sr v).level,
      releaseFrom := (envStep sr v).releaseFrom } := by
  unfold envStep
  cases v.env <;> simp only [] <;> split <;> rfl

/-- dpw faults exactly at increments that are not positive (41_voice.md R163). -/
theorem dpw_cases (phi d : Num) :
    (d ≤ 0 ∧ dpw ratNum phi d = .error .arithDomain) ∨ (0 < d ∧ ∃ x, dpw ratNum phi d = .ok x) := by
  by_cases h : 0 < d
  · exact .inr ⟨h, _, by simp only [dpw, h, not_true, if_false, ifFinite_ratNum]; rfl⟩
  · exact .inl ⟨not_lt.mp h, by simp only [dpw, h, not_false_iff, if_true, ifFinite_ratNum]⟩

/-- What the oscillator step leaves of the slots: it advances the phases of the first u, into [0, 1),
and gives one saw value for each (41_voice.md R162). -/
theorem oscillate_ok {u : Nat} {sls : List Slot} {r : List Slot × List Num}
    (h : oscillate ratNum u sls = .ok r) :
    r.1.length = sls.length ∧ r.2.length = min u sls.length ∧
      ∀ i, r.1[i]? = sls[i]?.map fun sl =>
        if i < u then { sl with phase := wrap ratNum (sl.phase + sl.dphase) } else sl := by
  induction u generalizing sls r with
  | zero => cases h; refine ⟨rfl, by simp, fun i => by cases sls[i]? <;> simp⟩
  | succ u ih =>
    cases sls with
    | nil => cases h; exact ⟨rfl, by simp, fun i => by simp⟩
    | cons sl sls =>
      simp only [oscillate, ifFinite_ratNum] at h
      cases hd : dpw ratNum (wrap ratNum (sl.phase + sl.dphase)) sl.dphase with
      | error c => rw [hd] at h; cases h
      | ok x =>
        rw [hd] at h
        cases ho : oscillate ratNum u sls with
        | error c => rw [ho] at h; cases h
        | ok q =>
          rw [ho] at h; cases h
          obtain ⟨h1, h2, h3⟩ := ih ho
          refine ⟨by simp [h1], by simp only [List.length_cons, h2]; omega, fun i => ?_⟩
          cases i with
          | zero => simp
          | succ i => simpa using h3 i

/-- The oscillator step succeeds where every active copy has a positive increment. -/
theorem oscillate_exists {u : Nat} {sls : List Slot}
    (h : ∀ i sl, i < u → sls[i]? = some sl → 0 < sl.dphase) : ∃ r, oscillate ratNum u sls = .ok r := by
  induction u generalizing sls with
  | zero => exact ⟨_, rfl⟩
  | succ u ih =>
    cases sls with
    | nil => exact ⟨_, rfl⟩
    | cons sl sls =>
      have hd : 0 < sl.dphase := h 0 sl (Nat.succ_pos _) rfl
      rcases dpw_cases (wrap ratNum (sl.phase + sl.dphase)) sl.dphase with ⟨h1, _⟩ | ⟨_, x, hx⟩
      · exact absurd hd (not_lt.mpr h1)
      · obtain ⟨r, hr⟩ := ih (sls := sls) fun i sl' hi hs => h (i + 1) sl' (by omega) (by simpa using hs)
        exact ⟨_, by simp only [oscillate, hx, hr, ifFinite_ratNum]; rfl⟩

theorem oscillate_error {u : Nat} {sls : List Slot} {c : FaultCode}
    (h : oscillate ratNum u sls = .error c) : c = .arithDomain := by
  induction u generalizing sls with
  | zero => cases h
  | succ u ih =>
    cases sls with
    | nil => cases h
    | cons sl sls =>
      simp only [oscillate, ifFinite_ratNum] at h
      rcases dpw_cases (wrap ratNum (sl.phase + sl.dphase)) sl.dphase with ⟨_, hd⟩ | ⟨_, x, hd⟩
      · rw [hd] at h; cases h; rfl
      · rw [hd] at h
        cases ho : oscillate ratNum u sls with
        | error c' => rw [ho] at h; cases h; exact ih ho
        | ok q => rw [ho] at h; cases h

/-- What one sample leaves of a voice: the envelope step, advanced phases, stepped integrators
(41_voice.md R167). -/
theorem voiceStep_ok {c : Params} {sr : Num} {v : Voice} {o : Voice × Num × Num}
    (h : voiceStep ratNum c sr v = .ok o) :
    ∃ sls xs l r, oscillate ratNum v.unison v.slots = .ok (sls, xs) ∧
      o.1 = { envStep sr v with slots := sls, flt := (processStereo v.flt l r).1 } ∧
      o.2 = (processStereo v.flt l r).2 := by
  have hu : (envStep sr v).unison = v.unison := by rw [envStep_frame]
  have hs : (envStep sr v).slots = v.slots := by rw [envStep_frame]
  have hf : (envStep sr v).flt = v.flt := by rw [envStep_frame]
  have hosc : oscillate ratNum (envStep sr v).unison (envStep sr v).slots = oscillate ratNum v.unison v.slots := by
    rw [hu, hs]
  simp only [voiceStep, ifFinite_ratNum] at h
  rw [hosc] at h
  cases ho : oscillate ratNum v.unison v.slots with
  | error code => rw [ho] at h; cases h
  | ok q =>
    rw [ho] at h; cases h
    rw [← hf]
    exact ⟨q.1, q.2, _, _, rfl, rfl, rfl⟩

theorem voiceStep_exists {c : Params} {sr : Num} {v : Voice}
    (h : ∀ i sl, i < v.unison → v.slots[i]? = some sl → 0 < sl.dphase) :
    ∃ o, voiceStep ratNum c sr v = .ok o := by
  have hu : (envStep sr v).unison = v.unison := by rw [envStep_frame]
  have hs : (envStep sr v).slots = v.slots := by rw [envStep_frame]
  obtain ⟨r, hr⟩ := oscillate_exists h
  simp only [voiceStep, hu, hs, hr, ifFinite_ratNum]
  exact ⟨_, rfl⟩

theorem voiceStep_error {c : Params} {sr : Num} {v : Voice} {code : FaultCode}
    (h : voiceStep ratNum c sr v = .error code) : code = .arithDomain := by
  simp only [voiceStep, ifFinite_ratNum] at h
  cases ho : oscillate ratNum (envStep sr v).unison (envStep sr v).slots with
  | error code' => rw [ho] at h; cases h; exact oscillate_error ho
  | ok q => rw [ho] at h; cases h

/-! ### Release -/

/-- Release writes ENV, T, LEVEL and RELEASE_FROM only (41_voice.md R168). -/
theorem voiceRelease_frame (v : Voice) :
    voiceRelease v = { v with
      env := (voiceRelease v).env, t := (voiceRelease v).t, level := (voiceRelease v).level,
      releaseFrom := (voiceRelease v).releaseFrom } := by
  unfold voiceRelease
  split
  · split <;> rfl
  · rfl

theorem voiceRelease_of_not {v : Voice} (h : v.env ≠ .attack) (h' : v.env ≠ .hold) :
    voiceRelease v = v := by simp [voiceRelease, h, h']

end Sys2Proof.Machine
end

