-- ==== Sys2Proof/Laws/Engine.lean ====
section
/-! SUPPORT. What each engine-port rule can do, said once per rule: when it succeeds, with which effect,
and with which code it faults. -/

namespace Sys2Proof.Machine

/-! ### Allocation -/

theorem freeVoice_some {vs : List Voice} {j : Nat} (h : freeVoice vs = some j) :
    ∃ v, vs[j]? = some v ∧ v.env = .off ∧ ∀ i w, i < j → vs[i]? = some w → w.env ≠ .off := by
  unfold freeVoice at h
  obtain ⟨hj, h1, h2⟩ := List.findIdx?_eq_some_iff_getElem.mp h
  refine ⟨vs[j], by simp [hj], by simpa [isOff] using h1, fun i w hi hw => ?_⟩
  have hi' : i < vs.length := by omega
  have := h2 i hi
  rw [List.getElem?_eq_getElem hi'] at hw
  cases hw
  simpa [isOff] using this

theorem freeVoice_none {vs : List Voice} (h : freeVoice vs = none) : ∀ v ∈ vs, v.env ≠ .off := by
  intro v hv
  have := List.findIdx?_eq_none_iff.mp h v hv
  simpa [isOff] using this

/-- Everything an activation at an index of the array can do. -/
theorem activateAt_cases (c : Params) (j : Nat) (i : Identity) (e : Engine) (v : Voice)
    (hv : e.voices[j]? = some v) :
    (∃ code, voiceInit ratNum c e.p e.srInv i v = .error code ∧ activateAt ratNum c j i e = .error code) ∨
    (∃ w, voiceInit ratNum c e.p e.srInv i v = .ok w ∧
      activateAt ratNum c j i e = .ok { e with voices := e.voices.set j w }) := by
  simp only [activateAt, hv]
  cases h : voiceInit ratNum c e.p e.srInv i v with
  | error code => exact .inl ⟨code, rfl, rfl⟩
  | ok w => exact .inr ⟨w, rfl, rfl⟩

/-- A draw changes only the supply of draws (42_voice_pool.md R195). -/
theorem drawSteal_frame (e : Engine) :
    (drawSteal e).2 = { e with
      stealDraws := (drawSteal e).2.stealDraws, stealCount := (drawSteal e).2.stealCount } := by
  unfold drawSteal
  split <;> rfl

theorem drawSteal_cons {e : Engine} {d : Fin nVoices} {ds : List (Fin nVoices)}
    (h : e.stealDraws = d :: ds) : drawSteal e = (d, { e with stealDraws := ds }) := by
  simp [drawSteal, h]

/-! ### The push -/

theorem pushParamsRule_ok {c : Params} {e e' : Engine} (h : pushParamsRule ratNum c e = .ok e') :
    ∃ vs, forVoices (onPlaying (fun _ => true) (pushVoice ratNum c e.p e.srInv)) e.voices = .ok vs ∧
      e' = { e with voices := vs } := by
  simp only [pushParamsRule] at h
  cases hf : forVoices (onPlaying (fun _ => true) (pushVoice ratNum c e.p e.srInv)) e.voices with
  | error code => rw [hf] at h; cases h
  | ok vs => rw [hf] at h; cases h; exact ⟨vs, rfl, rfl⟩

/-! ### TICK -/

/-- The loop of TICK leaves a voice that is not playing alone and steps each playing voice
(43_scheduler.md R222). -/
theorem stepVoices_ok {c : Params} {sr : Num} {vs : List Voice} {acc : Frame}
    {r : List Voice × Frame} (h : stepVoices ratNum c sr vs acc = .ok r) :
    List.Forall₂ (fun v w => (isPlaying v = false ∧ w = v) ∨
      (isPlaying v = true ∧ ∃ o, voiceStep ratNum c sr v = .ok o ∧ w = o.1)) vs r.1 := by
  induction vs generalizing acc r with
  | nil => cases h; exact .nil
  | cons v vs ih =>
    simp only [stepVoices] at h
    split at h
    · rename_i hp
      cases hv : voiceStep ratNum c sr v with
      | error code => rw [hv] at h; cases h
      | ok o =>
        rw [hv] at h
        cases hr : stepVoices ratNum c sr vs (accumulate acc o.2.1 o.2.2) with
        | error code => simp only [hr] at h; cases h
        | ok q =>
          simp only [hr] at h; cases h
          have := ih hr
          exact .cons (.inr ⟨hp, o, hv, rfl⟩) this
    · rename_i hp
      cases hr : stepVoices ratNum c sr vs acc with
      | error code => rw [hr] at h; cases h
      | ok q =>
        rw [hr] at h; cases h
        have := ih hr
        exact .cons (.inl ⟨by simpa using hp, rfl⟩) this

theorem stepVoices_exists {c : Params} {sr : Num} {vs : List Voice} (acc : Frame)
    (h : ∀ v ∈ vs, isPlaying v = true →
      ∀ i sl, i < v.unison → v.slots[i]? = some sl → 0 < sl.dphase) :
    ∃ r, stepVoices ratNum c sr vs acc = .ok r := by
  induction vs generalizing acc with
  | nil => exact ⟨_, rfl⟩
  | cons v vs ih =>
    have ih' := fun acc => ih acc fun u hu => h u (List.mem_cons_of_mem _ hu)
    by_cases hp : isPlaying v = true
    · obtain ⟨o, ho⟩ := voiceStep_exists (c := c) (sr := sr) (h v List.mem_cons_self hp)
      obtain ⟨r, hr⟩ := ih' (accumulate acc o.2.1 o.2.2)
      exact ⟨(o.1 :: r.1, r.2), by simp only [stepVoices, hp, if_true, ho, hr]⟩
    · obtain ⟨r, hr⟩ := ih' acc
      exact ⟨(v :: r.1, r.2), by simp [stepVoices, hp, hr]⟩

theorem stepVoices_error {c : Params} {sr : Num} {vs : List Voice} {acc : Frame} {code : FaultCode}
    (h : stepVoices ratNum c sr vs acc = .error code) : code = .arithDomain := by
  induction vs generalizing acc with
  | nil => cases h
  | cons v vs ih =>
    simp only [stepVoices] at h
    split at h
    · cases hv : voiceStep ratNum c sr v with
      | error code' => rw [hv] at h; cases h; exact voiceStep_error hv
      | ok o =>
        rw [hv] at h
        cases hr : stepVoices ratNum c sr vs (accumulate acc o.2.1 o.2.2) with
        | error code' => simp only [hr] at h; cases h; have := ih hr; exact this
        | ok q => simp only [hr] at h; cases h
    · cases hr : stepVoices ratNum c sr vs acc with
      | error code' => rw [hr] at h; cases h; have := ih hr; exact this
      | ok q => rw [hr] at h; cases h

/-- A frame keeps its width while voices are summed into it (43_scheduler.md R223). -/
@[simp] theorem accumulate_length (acc : Frame) (l r : Num) :
    (accumulate acc l r).length = acc.length := by
  unfold accumulate
  split <;> rfl

theorem stepVoices_frame_length {c : Params} {sr : Num} {vs : List Voice} {acc : Frame}
    {r : List Voice × Frame} (h : stepVoices ratNum c sr vs acc = .ok r) : r.2.length = acc.length := by
  induction vs generalizing acc r with
  | nil => cases h; rfl
  | cons v vs ih =>
    simp only [stepVoices] at h
    split at h
    · cases hv : voiceStep ratNum c sr v with
      | error code => rw [hv] at h; cases h
      | ok o =>
        rw [hv] at h
        cases hr : stepVoices ratNum c sr vs (accumulate acc o.2.1 o.2.2) with
        | error code => simp only [hr] at h; cases h
        | ok q => simp only [hr] at h; cases h; have := ih hr; simpa using this
    · cases hr : stepVoices ratNum c sr vs acc with
      | error code => rw [hr] at h; cases h
      | ok q => rw [hr] at h; cases h; have := ih hr; exact this

/-- Everything TICK can do (43_scheduler.md R222). -/
theorem tickRule_cases (c : Params) (e : Engine) :
    (e.activated = false ∧ tickRule ratNum c e = .error .notActivated) ∨
    (e.activated = true ∧ tickRule ratNum c e = .error .arithDomain ∧
      stepVoices ratNum c e.srInv e.voices (zeroFrame c) = .error .arithDomain) ∨
    (e.activated = true ∧ ∃ r, stepVoices ratNum c e.srInv e.voices (zeroFrame c) = .ok r ∧
      tickRule ratNum c e = .ok { e with
        voices := r.1, tickInBlock := e.tickInBlock + 1, audioOut := e.audioOut ++ [r.2] }) := by
  unfold tickRule
  cases ha : e.activated with
  | false => exact .inl ⟨rfl, rfl⟩
  | true =>
    cases hr : stepVoices ratNum c e.srInv e.voices (zeroFrame c) with
    | error code => cases stepVoices_error hr; exact .inr (.inl ⟨rfl, rfl, rfl⟩)
    | ok r => exact .inr (.inr ⟨rfl, r, rfl, rfl⟩)

end Sys2Proof.Machine
end

