-- ==== Sys2Proof/Laws/Packet.lean ====
section
/-! SUPPORT. Packets: what the encoder's words decode to,
    what a decoded packet's words must have been, and
the words of a byte stream cut short. -/

namespace Sys2Proof

open Sys2Proof.Machine (field addrOfWord wordOfAddr operandError)

/-! ### From an instruction to its words -/

/-- The checks of a whole packet pass on a header the encoder writes, but for the operands
(30_encoding.md R92). -/
theorem packetError_headerOf (i : Instr) : packetError i.opcode (headerOf i) i = operandError i := by
  cases i with
  | midi st d1 d2 port =>
    have h := field_midiHdrWord st d1 d2 port
    simp [packetError, Instr.opcode, headerOf, reservedZero, subFree, h]
  | _ => simp [packetError, Instr.opcode, headerOf, reservedZero, subFree]

/-- The opcode field of an encoded header (30_encoding.md R91). -/
theorem field_headerOf_opc (i : Instr) : field (headerOf i) 0 8 = opcodeByte i.opcode := by
  cases i with
  | midi st d1 d2 port => exact (field_midiHdrWord st d1 d2 port).1
  | _ => simp [headerOf, Instr.opcode]

/-- An instruction has the operand words of its row (30_encoding.md R91). -/
theorem operandsOf_length (i : Instr) : (operandsOf i).length = operandWords i.opcode := by
  cases i <;> rfl

/-- The fields of encoded words spell the instruction again (30_encoding.md R86 to R89). -/
theorem assemble_encode (i : Instr) (rest : List Word) :
   assemble i.opcode (headerOf i) ((operandsOf i ++ rest).getD 0 0#64)
       ((operandsOf i ++ rest).getD 1 0#64) ((operandsOf i ++ rest).getD 2 0#64) = i := by
  cases i with
  | midi st d1 d2 port =>
    have h := field_midiHdrWord st d1 d2 port
    simp [assemble, Instr.opcode, headerOf, h]
  | _ => simp [assemble, Instr.opcode, headerOf, operandsOf]

/-! ### From words to an instruction -/

/-- A header whose reserved bits are 0 is its opcode and its SUB (30_encoding.md R86, R94). -/
theorem eq_hdrWord {h : Word} (h0 : field h 16 48 = 0#48) : h = hdrWord (field h 0 8)
    (field h 8 8) := by
  apply BitVec.eq_of_getLsbD_eq
  intro i hi
  have hz : ∀ k, k < 48 → h.getLsbD (16 + k) = false := by
    intro k hk
    have := congrArg (fun x => x.getLsbD k) h0
    simp only [getLsbD_field, hk] at this; simpa using this
  simp only [hdrWord, BitVec.getLsbD_or, getLsbD_place_field]
  by_cases h16 : 16 ≤ i
  · have := hz (i - 16) (by omega)
    rw [show 16 + (i - 16) = i by omega] at this
    simp [this]
  · cases h.getLsbD i
    · simp
    · simp only [Bool.and_true]; rw [eq_comm, Bool.or_eq_true, decide_eq_true_eq,
        decide_eq_true_eq]; omega

/-- A MIDI header whose reserved bits are 0 is its four fields (30_encoding.md R87, R94). -/
theorem eq_midiHdrWord {h : Word} (ho : field h 0 8 = opcodeByte .midi) (h0 : field h 8 8 = 0#8)
    (h1 : field h 56 8 = 0#8) :
    h = midiHdrWord (field h 16 8) (field h 24 8) (field h 32 8) (field h 40 16) := by
  apply BitVec.eq_of_getLsbD_eq
  intro i hi
  have hz : ∀ k, k < 8 → h.getLsbD (8 + k) = false := by
    intro k hk
    have := congrArg (fun x => x.getLsbD k) h0
    simp only [getLsbD_field, hk] at this; simpa using this
  have hz' : ∀ k, k < 8 → h.getLsbD (56 + k) = false := by
    intro k hk
    have := congrArg (fun x => x.getLsbD k) h1
    simp only [getLsbD_field, hk] at this; simpa using this
  rw [midiHdrWord, ← ho]
  simp only [BitVec.getLsbD_or, getLsbD_place_field]
  cases hb : h.getLsbD i
  · simp
  · simp only [Bool.and_true]; rw [eq_comm]; simp only [Bool.or_eq_true, decide_eq_true_eq]
    by_contra hc
    rcases (by omega : (8 ≤ i ∧ i < 16) ∨ 56 ≤ i) with h | h
    · have := hz (i - 8) (by omega); rw [show 8 + (i - 8) = i by omega, hb] at this; cases this
    · have := hz' (i - 56) (by omega); rw [show 56 + (i - 56) = i by omega, hb] at this; cases this

/-- An ADDR word has no reserved bit (30_encoding.md R88). -/
theorem wordOfAddr_addrOfWord (w : Word) : wordOfAddr (addrOfWord w) = w := by
  apply BitVec.eq_of_getLsbD_eq
  intro i hi
  simp only [wordOfAddr, addrOfWord, BitVec.getLsbD_or, getLsbD_place_field]
  cases w.getLsbD i
  · simp
  · simp only [Bool.and_true, Bool.or_eq_true, decide_eq_true_eq]; omega

/-- The instruction a row assembles belongs to that row. -/
theorem assemble_opcode (o : Opcode) (h a b c : Word) : (assemble o h a b c).opcode = o :=
    by cases o <;> rfl

/-- What the checks of a whole packet leave (30_encoding.md R92, R94, R95). -/
theorem packetError_none {o : Opcode} {h : Word} {i : Instr} (hp : packetError o h i = none) :
    reservedZero o h = true ∧ (subFree o = true ∨ field h 8 8 = 0#8) ∧ operandError i = none := by
  unfold packetError at hp
  split at hp
  · cases hp
  · split at hp
    · cases hp
    · rename_i h1 h2
      exact ⟨by simpa using h1, by cases hs : subFree o <;> simp_all, hp⟩

/-- Everything a decoded packet says about its words (30_encoding.md R92). -/
theorem decodeWords_cons_packet {p : Port} {h : Word} {ws : List Word} {i : Instr} {n : Nat}
    (hd : decodeWords p (h :: ws) = .packet i n) :
    ∃ o, opcodeOf (field h 0 8) = some o ∧ opcodePort o = p ∧ operandWords o ≤ ws.length ∧
      i = assemble o h (ws.getD 0 0#64) (ws.getD 1 0#64) (ws.getD 2 0#64) ∧
          packetError o h i = none ∧ n = 1 + operandWords o := by
  simp only [decodeWords] at hd
  split at hd
  · cases hd
  · rename_i o ho
    split at hd
    · cases hd
    · rename_i hp
      split at hd
      · cases hd
      · rename_i hl
        split at hd
        · cases hd
        · rename_i hpe
          cases hd
          exact ⟨o, ho, not_not.mp hp, not_lt.mp hl, rfl, hpe, rfl⟩

/-! ### Bytes cut short -/

/-- Fewer than eight bytes hold no word (20_memory.md R75). -/
theorem wordsOfBytes_short : ∀ (l : List Byte), l.length < 8 → wordsOfBytes l = [] := by
  intro l hl
  rcases l with _ | ⟨a, _ | ⟨a, _ | ⟨a, _ | ⟨a, _ | ⟨a, _ | ⟨a, _ | ⟨a, _ | ⟨a, l⟩⟩⟩⟩⟩⟩⟩⟩ <;>
      first | rfl | (simp at hl; omega)

/-- The words of the first bytes of a packet (20_memory.md R75). -/
theorem wordsOfBytes_take (ws : List Word) (n : Nat) :
    wordsOfBytes ((bytesOfWords ws).take n) = ws.take (n / 8) := by
  induction ws generalizing n with
  | nil => simp [bytesOfWords]
  | cons w ws ih =>
    by_cases hn : n < 8
    · rw [show n / 8 = 0 by omega, wordsOfBytes_short _ (by simp; omega)]; rfl
    · obtain ⟨m, rfl⟩ : ∃ m, n = 8 + m := ⟨n - 8, by omega⟩
      rw [show (8 + m) / 8 = m / 8 + 1 by omega]
      simp only [bytesOfWords, List.take_succ_cons, ← ih]
      rw [show (bytesOfWord w ++ bytesOfWords ws).take (8 + m) = bytesOfWord w ++ (bytesOfWords ws).take m by
        rw [List.take_append, List.take_of_length_le (by simp [bytesOfWord])]; simp [bytesOfWord]]
      simp only [bytesOfWord, List.cons_append, List.nil_append, wordsOfBytes, wordOfBytes_bytes]

/-- A packet cut short is not read (20_memory.md R75). -/
theorem decodeWords_take_encode (i : Instr) (n : Nat) (h : n < (encode i).length) :
    decodeWords i.portOf ((encode i).take n) = .hold := by
  cases n with
  | zero => rfl
  | succ n =>
    simp only [encode, List.take_succ_cons, decodeWords, field_headerOf_opc, opcodeOf_opcodeByte,
        Instr.portOf, ne_eq, not_true, if_false]
    rw [if_pos]
    rw [← operandsOf_length]
    simp [encode] at h ⊢; omega

end Sys2Proof
end

