-- ==== Sys2Proof/Laws/Step.lean ====
section
/-! SUPPORT. Everything one step can do: run or fault one packet of one port, or stay as it is. -/

namespace Sys2Proof.Machine

/-- The parameter set the model is instantiated with keeps the constraints of 00_scope.md R7. -/
theorem params_valid : paramsValid params = true := by decide +kernel

/-- Everything one port can do in a step. -/
theorem stepPort_cases (p : Port) (s : State) :
    (fetchPort p s = .hold ∧ stepPort exec p s = none) ∨
    (isFaulted p s = false ∧ ∃ e h n, decode p (portBytes p s) = .reject e h n ∧
      stepPort exec p s = some (.next (raiseFault p (decodeErrorCode e) h (consume p n s)))) ∨
    (isFaulted p s = false ∧ ∃ i n, decode p (portBytes p s) = .packet i n ∧
      stepPort exec p s = some (exec i (consume p n s))) := by
  unfold stepPort
  unfold fetchPort
  cases hf : isFaulted p s with
  | true => exact .inl ⟨rfl, rfl⟩
  | false =>
    simp only [Bool.false_eq_true, if_false]
    cases hd : decode p (portBytes p s) with
    | hold => exact .inl ⟨rfl, rfl⟩
    | reject e h n => exact .inr (.inl ⟨trivial, e, h, n, rfl, rfl⟩)
    | packet i n => exact .inr (.inr ⟨trivial, i, n, rfl, rfl⟩)

/-- The step in terms of its two ports. -/
theorem step_eq (s : State) :
    step s = match stepPort exec s.turn s with
      | some o => o
      | none =>
        match stepPort exec (otherPort s.turn) s with
        | some o => o
        | none => .next s := by
  unfold step stepBy
  rw [if_pos params_valid]
  cases stepPort exec s.turn s with
  | some o => rfl
  | none => cases stepPort exec (otherPort s.turn) s <;> rfl

/-- A port that holds or is stuck has no packet to run. -/
theorem stepPort_eq_none {p : Port} {s : State}
    (h : isFaulted p s = true ∨ decode p (portBytes p s) = .hold) : stepPort exec p s = none := by
  have hf : fetchPort p s = .hold := by
    unfold fetchPort
    rcases h with h | h
    · rw [h]; rfl
    · rw [h]; split <;> rfl
  rw [stepPort, hf]

/-- A port that has a packet is served where it has the turn, and where the other one has nothing to
run. -/
theorem step_of_port {p : Port} {s : State} {o : Host.Outcome State Fault Refusal}
    (hp : p = s.turn ∨ isFaulted s.turn s = true ∨ decode s.turn (portBytes s.turn s) = .hold)
    (ho : stepPort exec p s = some o) : step s = o := by
  rw [step_eq]
  by_cases ht : p = s.turn
  · rw [← ht, ho]
  · have hq : otherPort s.turn = p := by cases p <;> cases h : s.turn <;> simp_all [otherPort]
    rw [stepPort_eq_none (hp.resolve_left ht), hq, ho]

/-- The meaning of every instruction is the model's, at the values it is instantiated with. -/
theorem exec_eq_execWith : exec = execWith ratNum params := by
  funext i s; cases i <;> rfl

/-- The step is the model's, at the values it is instantiated with. -/
theorem step_eq_stepWith : step = stepWith ratNum params := by
  funext s; rw [step, stepWith, exec_eq_execWith]

/-- Whatever the NUM, legal parameters have a next state for every step. -/
theorem stepWith_next (N : NumOps Num) {c : Params} (h : paramsValid c = true) (s : State) :
    ∃ t, stepWith N c s = .next t := by
  have hp : ∀ p o, stepPort (execWith N c) p s = some o → ∃ t, o = .next t := by
    intro p o ho
    unfold stepPort at ho
    split at ho
    · cases ho
    · cases ho; exact ⟨_, rfl⟩
    · cases ho; exact execWith_next N c _ _
  simp only [stepWith, stepBy, h, if_true]
  cases h1 : stepPort (execWith N c) s.turn s with
  | some o => exact hp _ _ h1
  | none =>
    cases h2 : stepPort (execWith N c) (otherPort s.turn) s with
    | some o => exact hp _ _ h2
    | none => exact ⟨s, rfl⟩

/-- A parameter set that breaks 00_scope.md R7 has no step. -/
theorem stepWith_refused (N : NumOps Num) {c : Params} (h : paramsValid c = false) (s : State) :
    stepWith N c s = .refused .badParameters := by simp [stepWith, stepBy, h]

/-- Everything one step can do: a packet of one port runs, a packet of one port faults in the decoder,
or neither port has a packet and the state stays. -/
theorem step_cases (s : State) :
    (∃ p, isFaulted p s = false ∧ ∃ i n, decode p (portBytes p s) = .packet i n ∧
      step s = exec i (consume p n s)) ∨
    (∃ p, isFaulted p s = false ∧ ∃ e h n, decode p (portBytes p s) = .reject e h n ∧
      step s = .next (raiseFault p (decodeErrorCode e) h (consume p n s))) ∨
    ((∀ p, fetchPort p s = .hold) ∧ step s = .next s) := by
  rw [step_eq]
  rcases stepPort_cases s.turn s with ⟨h0, h1⟩ | ⟨hf, e, h, n, hd, h1⟩ | ⟨hf, i, n, hd, h1⟩
  · rcases stepPort_cases (otherPort s.turn) s with ⟨g0, g1⟩ | ⟨hf, e, h, n, hd, g1⟩ | ⟨hf, i, n, hd, g1⟩
    · refine .inr (.inr ⟨fun p => ?_, by simp [h1, g1]⟩)
      by_cases hp : p = s.turn
      · rw [hp]; exact h0
      · have : p = otherPort s.turn := by
          cases p <;> cases ht : s.turn <;> simp_all [otherPort]
        rw [this]; exact g0
    · exact .inr (.inl ⟨_, hf, e, h, n, hd, by simp [h1, g1]⟩)
    · exact .inl ⟨_, hf, i, n, hd, by simp [h1, g1]⟩
  · exact .inr (.inl ⟨_, hf, e, h, n, hd, by simp [h1]⟩)
  · exact .inl ⟨_, hf, i, n, hd, by simp [h1]⟩

end Sys2Proof.Machine
end

