-- ==== Sys2Proof/Laws/Rules.lean ====
section
/-! SUPPORT. What every engine-port and filter-port rule keeps, with which codes it can fault, and what
running one instruction can do, by its port. -/

namespace Sys2Proof.Machine

/-! ### Codes -/

/-- A loop of recomputations faults with UNSTABLE_CUTOFF only. -/
theorem forVoices_error_code {f : Voice → Except FaultCode Voice} {vs : List Voice} {c : FaultCode}
    (hf : ∀ v c, f v = .error c → c = .unstableCutoff)
        (h : forVoices f vs = .error c) : c = .unstableCutoff := by
  obtain ⟨v, _, h⟩ := forVoices_error h; exact hf v c h

/-- A push into one voice faults with UNSTABLE_CUTOFF only (42_voice_pool.md R197). -/
theorem pushVoice_error {c p sr v code} (h : pushVoice ratNum c p sr v = .error code) :
    code = .unstableCutoff :=
  (recalcBoth_error h).1

/-- A loop over the selected playing voices faults only on one of them. -/
theorem onPlaying_error {sel f code} {v : Voice} (h : onPlaying sel f v = .error code) : isPlaying v = true ∧
    sel v = true ∧ f v = .error code := by
  unfold onPlaying at h; split at h
  · rename_i hc; rw [Bool.and_eq_true] at hc; exact ⟨hc.1, hc.2, h⟩
  · cases h

/-- A push faults with UNSTABLE_CUTOFF only (42_voice_pool.md R197). -/
theorem pushParamsRule_error {c e code} (h : pushParamsRule ratNum c e = .error code) :
    code = .unstableCutoff := by
  simp only [pushParamsRule] at h
  cases hf : forVoices (onPlaying (fun _ => true) (pushVoice ratNum c e.p e.srInv)) e.voices with
  | error k => rw [hf] at h; cases h; exact forVoices_error_code (fun v c h => pushVoice_error (onPlaying_error h).2.2) hf
  | ok vs => rw [hf] at h; cases h

/-- A decode check raises ILLEGAL_COMMAND, but for a VALUE that is not finite (30_encoding.md R92). -/
theorem decodeErrorCode_cases (e : DecodeError) : (decodeErrorCode e = .illegalCommand ∧
    e ≠ .nonFiniteValue) ∨ (decodeErrorCode e = .nonFiniteValue ∧ e = .nonFiniteValue) := by
  cases e <;> simp [decodeErrorCode]

/-- An oscillator step that faults has an active copy without a positive increment. -/
theorem oscillate_error_slot {u : Nat} {sls : List Slot} {c : FaultCode}
    (h : oscillate ratNum u sls = .error c) : ∃ k sl, k < u ∧ sls[k]? = some sl ∧ sl.dphase ≤ 0 := by
  by_contra hc
  push Not at hc
  obtain ⟨r, hr⟩ := oscillate_exists (u := u) (sls := sls) hc
  rw [hr] at h; cases h

/-- A sample that faults has an active copy without a positive increment. -/
theorem voiceStep_error_slot {c sr v code} (h : voiceStep ratNum c sr v = .error code) :
   ∃ k sl, k < v.unison ∧ v.slots[k]? = some sl ∧ sl.dphase ≤ 0 := by
  by_contra hc
  push Not at hc
  obtain ⟨r, hr⟩ := voiceStep_exists (c := c) (sr := sr) (v := v) hc
  rw [hr] at h; cases h

/-- A TICK that faults in a voice has a playing voice without a positive increment. -/
theorem stepVoices_error_slot {c sr vs acc code} (h : stepVoices ratNum c sr vs acc = .error code) :
   ∃ v ∈ vs, isPlaying v = true ∧ ∃ k sl, k < v.unison ∧ v.slots[k]? = some sl ∧ sl.dphase ≤ 0 := by
  by_contra hc
  push Not at hc
  obtain ⟨r, hr⟩ := stepVoices_exists (c := c) (sr := sr) acc hc
  rw [hr] at h; cases h

/-! ### Allocation -/

/-- Everything an allocation can do (42_voice_pool.md R191 to R195). -/
theorem startNote_cases (c : Params) (i : Identity) (e : Engine) :
    (∃ j v, freeVoice e.voices = some j ∧ e.voices[j]? = some v ∧
      ((∃ code, voiceInit ratNum c e.p e.srInv i v = .error code ∧ startNote ratNum c i e = .error code) ∨
       (∃ w, voiceInit ratNum c e.p e.srInv i v = .ok w ∧
           startNote ratNum c i e = .ok { e with voices := e.voices.set j w }))) ∨
    (freeVoice e.voices = none ∧ ((e.voices[(drawSteal e).1.val]? = none ∧
        startNote ratNum c i e = .ok (drawSteal e).2) ∨
      ∃ v, e.voices[(drawSteal e).1.val]? = some v ∧
      ((∃ code, voiceInit ratNum c e.p e.srInv i v = .error code ∧ startNote ratNum c i e = .error code) ∨
       (∃ w, voiceInit ratNum c e.p e.srInv i v = .ok w ∧ startNote ratNum c i e = .ok { (drawSteal e).2 with
          terminated := e.terminated ++ [v.ident], voices :=
              e.voices.set (drawSteal e).1.val w })))) := by
  simp only [startNote]
  cases hf : freeVoice e.voices with
  | some j =>
    obtain ⟨v, hv, _⟩ := freeVoice_some hf
    refine .inl ⟨j, v, rfl, hv, ?_⟩
    simpa using activateAt_cases c j i e v hv
  | none =>
    refine .inr ⟨rfl, ?_⟩
    have hd := drawSteal_frame e
    have hv : (drawSteal e).2.voices = e.voices := by rw [hd]
    have hp : (drawSteal e).2.p = e.p := by rw [hd]
    have hs : (drawSteal e).2.srInv = e.srInv := by rw [hd]
    have ht : (drawSteal e).2.terminated = e.terminated := by rw [hd]
    cases hg : e.voices[(drawSteal e).1.val]? with
    | none =>
      left
      simp [activateAt, terminate, hv, hg]
    | some v =>
      right
      refine ⟨v, rfl, ?_⟩
      simp only [terminate, hv, hg]
      have := activateAt_cases c (drawSteal e).1.val i { (drawSteal e).2 with terminated := (drawSteal e).2.terminated ++ [v.ident] } v (by rw [← hg]; simp [hv])
      simp only [hp, hs, hv, ht] at this ⊢
      exact this

/-- An allocation faults with UNSTABLE_CUTOFF only. -/
theorem startNote_error {c i e code} (h : startNote ratNum c i e = .error code) : code = .unstableCutoff := by
  rcases startNote_cases c i e with ⟨j, v, _, _, ⟨k, h1, h2⟩ | ⟨w, h1, h2⟩⟩ | ⟨_, ⟨_, h2⟩ | ⟨v, _, ⟨k,
      h1, h2⟩ | ⟨w, h1, h2⟩⟩⟩ <;>
    rw [h2] at h <;> cases h <;> exact (recalcBoth_error h1).1

/-- An allocation writes the voices, TERMINATED and the supply of draws only. -/
theorem startNote_keeps {c i e e'} (h : startNote ratNum c i e = .ok e') :
    e' = { e with voices := e'.voices, terminated := e'.terminated, stealDraws := e'.stealDraws, stealCount := e'.stealCount } := by
  have hd := drawSteal_frame e
  rcases startNote_cases c i e with ⟨j, v, _, _, ⟨k, h1, h2⟩ | ⟨w, h1, h2⟩⟩ | ⟨_, ⟨_, h2⟩ | ⟨v, _, ⟨k,
      h1, h2⟩ | ⟨w, h1, h2⟩⟩⟩ <;>
    rw [h2] at h <;> cases h
  · rfl
  · rw [hd]
  · rw [hd]

/-- An allocation keeps the number of voices. -/
theorem startNote_length {c i e e'} (h : startNote ratNum c i e = .ok e') :
    e'.voices.length = e.voices.length := by
  have hd := drawSteal_frame e
  rcases startNote_cases c i e with ⟨k, u, hf, hu, ⟨_, h1, h2⟩ | ⟨x, h1, h2⟩⟩ | ⟨hf, ⟨_, h2⟩ | ⟨u, hu,
      ⟨_, h1, h2⟩ | ⟨x, h1, h2⟩⟩⟩ <;>
    rw [h2] at h <;> cases h
  · simp
  · rw [hd]
  · simp

/-- The lowest-indexed OFF voice is the free one (42_voice_pool.md R191). -/
theorem freeVoice_eq_some {vs : List Voice} {j : Nat} {v} (hv : vs[j]? = some v) (ho : v.env = .off)
    (hm : ∀ (i : Nat) w, i < j → vs[i]? = some w → w.env ≠ .off) : freeVoice vs = some j := by
  unfold freeVoice
  obtain ⟨hj, hv'⟩ := List.getElem?_eq_some_iff.mp hv
  rw [List.findIdx?_eq_some_iff_getElem]
  refine ⟨hj, by rw [hv']; simp [isOff, ho], fun i hi => ?_⟩
  have := hm i vs[i] hi (by simp)
  simpa [isOff] using this

/-- Without an OFF voice there is no free one. -/
theorem freeVoice_eq_none {vs : List Voice} (h : ∀ v ∈ vs, v.env ≠ .off) : freeVoice vs = none := by
  unfold freeVoice
  rw [List.findIdx?_eq_none_iff]
  intro v hv; simpa [isOff] using h v hv

/-! ### What a rule keeps -/

/-- An engine-port rule that succeeds keeps FAULT and the port's bytes. -/
theorem engineRule_keeps {i : Instr} {e e' : Engine} (h : engineRule i e = .ok e') :
    e'.fault = e.fault ∧ e'.inBytes = e.inBytes := by
  cases i with
  | setSampleRate w =>
    simp only [engineRule, setSampleRateRule, ifFinite_ratNum] at h
    split at h
    · cases h
    · split at h
      · cases h
      · cases h; exact ⟨rfl, rfl⟩
  | tick =>
    rcases tickRule_cases params e with ⟨_, h2⟩ | ⟨_, h2, _⟩ | ⟨_, r, _, h2⟩ <;>
        simp only [engineRule] at h <;> rw [h2] at h <;> cases h
    exact ⟨rfl, rfl⟩
  | endBlock => cases h; exact ⟨rfl, rfl⟩
  | noteOn a => rw [startNote_keeps h]; exact ⟨rfl, rfl⟩
  | noteOff a => cases h; exact ⟨rfl, rfl⟩
  | midi st d1 d2 p =>
    simp only [engineRule, midiRule, ifFinite_ratNum] at h
    split_ifs at h
    · cases h; exact ⟨rfl, rfl⟩
    · rw [startNote_keeps h]; exact ⟨rfl, rfl⟩
    · cases h; exact ⟨rfl, rfl⟩
    · cases h; exact ⟨rfl, rfl⟩
    · cases h; exact ⟨rfl, rfl⟩
  | paramSet p v =>
    simp only [engineRule, paramSetRule, ifFinite_ratNum] at h
    split at h
    · obtain ⟨vs, _, rfl⟩ := pushParamsRule_ok h; exact ⟨rfl, rfl⟩
    · cases h; exact ⟨rfl, rfl⟩
  | paramWrite p v =>
    simp only [engineRule, paramWriteRule, ifFinite_ratNum] at h
    split at h <;> cases h <;> exact ⟨rfl, rfl⟩
  | pushParams => obtain ⟨vs, _, rfl⟩ := pushParamsRule_ok h; exact ⟨rfl, rfl⟩
  | paramMod p a v =>
    simp only [engineRule, paramModRule] at h
    split at h
    · cases h; exact ⟨rfl, rfl⟩
    · split at h <;> cases h
      exact ⟨rfl, rfl⟩
  | noteExpr x a v =>
    simp only [engineRule, noteExprRule, ifFinite_ratNum] at h
    split at h <;> cases h <;> exact ⟨rfl, rfl⟩
  | _ => cases h; exact ⟨rfl, rfl⟩

/-- A filter-port rule that succeeds keeps FU0_FAULT and the port's bytes. -/
theorem filterRule_keeps {i : Instr} {e e' : FilterPort} (h : filterRule i e = .ok e') :
    e'.fault = e.fault ∧ e'.inBytes = e.inBytes := by
  cases i with
  | fltSetCoef a b c =>
    simp only [filterRule, fltSetCoefRule, ifFinite_ratNum] at h
    split at h <;> cases h; exact ⟨rfl, rfl⟩
  | fltSetMode m =>
    simp only [filterRule, fltSetModeRule] at h
    split at h <;> cases h; exact ⟨rfl, rfl⟩
  | fltProcess l r =>
    simp only [filterRule, fltProcessRule, ifFinite_ratNum] at h
    split at h <;> cases h; exact ⟨rfl, rfl⟩
  | _ => cases h; exact ⟨rfl, rfl⟩

/-- An engine-port rule that succeeds keeps the number of voices (00_scope.md R13). -/
theorem engineRule_length {i : Instr} {e e' : Engine} (h : engineRule i e = .ok e') :
    e'.voices.length = e.voices.length := by
  cases i with
  | setSampleRate sr =>
    simp only [engineRule, setSampleRateRule, ifFinite_ratNum] at h
    split at h
    · cases h
    · split at h
      · cases h
      · rename_i hf; cases h; exact forVoices_length hf
  | tick =>
    rcases tickRule_cases params e with ⟨_, h2⟩ | ⟨_, h2, _⟩ | ⟨_, r, hr, h2⟩ <;>
        simp only [engineRule] at h <;> rw [h2] at h <;> cases h
    exact (stepVoices_ok hr).length_eq.symm
  | endBlock => cases h; simp
  | noteOn a => exact startNote_length h
  | noteOff a => cases h; simp [releaseNotes]
  | midi st d1 d2 p =>
    simp only [engineRule, midiRule, ifFinite_ratNum] at h
    split_ifs at h with h0 h1 h2 h3
    · cases h; rfl
    · exact startNote_length h
    · cases h; simp [releaseNotes]
    · cases h; simp [bendNotes]
    · cases h; rfl
  | paramSet p v =>
    simp only [engineRule, paramSetRule, ifFinite_ratNum] at h
    split at h
    · obtain ⟨vs, hf, rfl⟩ := pushParamsRule_ok h; exact forVoices_length hf
    · cases h; rfl
  | paramWrite p v =>
    simp only [engineRule, paramWriteRule, ifFinite_ratNum] at h
    split at h <;> cases h <;> rfl
  | pushParams => obtain ⟨vs, hf, rfl⟩ := pushParamsRule_ok h; exact forVoices_length hf
  | paramMod p a v =>
    simp only [engineRule, paramModRule] at h
    split at h
    · cases h; rfl
    · split at h <;> cases h
      rename_i hfv
      exact forVoices_length hfv
  | noteExpr x a v =>
    simp only [engineRule, noteExprRule, ifFinite_ratNum] at h
    split at h <;> cases h <;> simp
  | _ => cases h; rfl

/-- The block's bookkeeping is written by TICK and END_BLOCK only (43_scheduler.md R222, R224). -/
theorem engineRule_bookkeeping {i : Instr} {e e' : Engine} (h : engineRule i e = .ok e') :
   (i ≠ .endBlock → e'.polyCount = e.polyCount ∧ e'.noteEndFifo = e.noteEndFifo) ∧ (i ≠ .tick →
       i ≠ .endBlock → e'.tickInBlock = e.tickInBlock) := by
  cases i with
  | setSampleRate w =>
    simp only [engineRule, setSampleRateRule, ifFinite_ratNum] at h
    split at h
    · cases h
    · split at h
      · cases h
      · cases h; simp
  | tick =>
    rcases tickRule_cases params e with ⟨_, h2⟩ | ⟨_, h2, _⟩ | ⟨_, r, _, h2⟩ <;>
        simp only [engineRule] at h <;> rw [h2] at h <;> cases h
    simp
  | endBlock => simp
  | noteOn a => rw [startNote_keeps h]; simp
  | noteOff a => cases h; simp [releaseNotes]
  | midi st d1 d2 p =>
    simp only [engineRule, midiRule, ifFinite_ratNum] at h
    split_ifs at h
    · cases h; simp
    · rw [startNote_keeps h]; simp
    · cases h; simp [releaseNotes]
    · cases h; simp [bendNotes]
    · cases h; simp
  | paramSet p v =>
    simp only [engineRule, paramSetRule, ifFinite_ratNum] at h
    split at h
    · obtain ⟨vs, _, rfl⟩ := pushParamsRule_ok h; simp
    · cases h; simp
  | paramWrite p v =>
    simp only [engineRule, paramWriteRule, ifFinite_ratNum] at h
    split at h <;> cases h <;> simp
  | pushParams => obtain ⟨vs, _, rfl⟩ := pushParamsRule_ok h; simp
  | paramMod p a v =>
    simp only [engineRule, paramModRule] at h
    split at h
    · cases h; simp
    · split at h <;> cases h
      simp
  | noteExpr x a v =>
    simp only [engineRule, noteExprRule, ifFinite_ratNum] at h
    split at h <;> cases h <;> simp
  | _ => cases h; simp

/-- SR_INV and ACTIVATED are written by SET_SAMPLE_RATE only (43_scheduler.md R221). -/
theorem engineRule_rate {i : Instr} {e e' : Engine} (h : engineRule i e = .ok e') :
   (e'.srInv = e.srInv ∧ e'.activated = e.activated ∧ ∀ x, i ≠ .setSampleRate x) ∨ (∃ x,
       i = .setSampleRate x ∧ 0 < toNum ratNum x ∧ e'.srInv = 1 / toNum ratNum x ∧ e'.activated = true) := by
  cases i with
  | setSampleRate w =>
    right
    simp only [engineRule, setSampleRateRule, ifFinite_ratNum] at h
    split at h
    · cases h
    · rename_i hw
      split at h
      · cases h
      · cases h; exact ⟨w, rfl, not_not.mp hw, rfl, rfl⟩
  | tick =>
    rcases tickRule_cases params e with ⟨_, h2⟩ | ⟨_, h2, _⟩ | ⟨_, r, _, h2⟩ <;>
        simp only [engineRule] at h <;> rw [h2] at h <;> cases h
    simp
  | endBlock => cases h; simp
  | noteOn a => rw [startNote_keeps h]; simp
  | noteOff a => cases h; simp [releaseNotes]
  | midi st d1 d2 p =>
    simp only [engineRule, midiRule, ifFinite_ratNum] at h
    split_ifs at h
    · cases h; simp
    · rw [startNote_keeps h]; simp
    · cases h; simp [releaseNotes]
    · cases h; simp [bendNotes]
    · cases h; simp
  | paramSet p v =>
    simp only [engineRule, paramSetRule, ifFinite_ratNum] at h
    split at h
    · obtain ⟨vs, _, rfl⟩ := pushParamsRule_ok h; simp
    · cases h; simp
  | paramWrite p v =>
    simp only [engineRule, paramWriteRule, ifFinite_ratNum] at h
    split at h <;> cases h <;> simp
  | pushParams => obtain ⟨vs, _, rfl⟩ := pushParamsRule_ok h; simp
  | paramMod p a v =>
    simp only [engineRule, paramModRule] at h
    split at h
    · cases h; simp
    · split at h <;> cases h
      simp
  | noteExpr x a v =>
    simp only [engineRule, noteExprRule, ifFinite_ratNum] at h
    split at h <;> cases h <;> simp
  | _ => cases h; simp

/-! ### Running one instruction -/

/-- The four ways an engine-port instruction ends. -/
theorem exec_engine_cases {i : Instr} (hp : i.portOf = .engine) {s t : State} (h : exec i s = .next t) :
    (s.engine.fault ≠ none ∧ t = s) ∨
    (s.engine.fault = none ∧ ∃ e, operandError i = some e ∧
        t = raiseFault .engine (decodeErrorCode e) (headerOf i) s) ∨
    (s.engine.fault = none ∧ operandError i = none ∧ ∃ code, engineRule i s.engine = .error code ∧
        t = raiseFault .engine code (headerOf i) s) ∨
    (s.engine.fault = none ∧ operandError i = none ∧ ∃ e, engineRule i s.engine = .ok e ∧
        t = { s with engine := e }) := by
  rw [exec_engine hp] at h
  rcases runEngine_cases i (engineRule i) s with ⟨h1, h2⟩ | ⟨h1, e, h3, h2⟩ | ⟨h1, h3, c, h4,
      h2⟩ | ⟨h1, h3, e, h4, h2⟩ <;> rw [h2] at h <;> cases h
  · exact .inl ⟨h1, rfl⟩
  · exact .inr (.inl ⟨h1, e, h3, rfl⟩)
  · exact .inr (.inr (.inl ⟨h1, h3, c, h4, rfl⟩))
  · exact .inr (.inr (.inr ⟨h1, h3, e, h4, rfl⟩))

/-- The four ways a filter-port instruction ends. -/
theorem exec_filter_cases {i : Instr} (hp : i.portOf = .filter) {s t : State} (h : exec i s = .next t) :
    (s.filter.fault ≠ none ∧ t = s) ∨
    (s.filter.fault = none ∧ ∃ e, operandError i = some e ∧
        t = raiseFault .filter (decodeErrorCode e) (headerOf i) s) ∨
    (s.filter.fault = none ∧ operandError i = none ∧ ∃ code, filterRule i s.filter = .error code ∧
        t = raiseFault .filter code (headerOf i) s) ∨
    (s.filter.fault = none ∧ operandError i = none ∧ ∃ e, filterRule i s.filter = .ok e ∧
        t = { s with filter := e }) := by
  rw [exec_filter hp] at h
  rcases runFilter_cases i (filterRule i) s with ⟨h1, h2⟩ | ⟨h1, e, h3, h2⟩ | ⟨h1, h3, c, h4,
      h2⟩ | ⟨h1, h3, e, h4, h2⟩ <;> rw [h2] at h <;> cases h
  · exact .inl ⟨h1, rfl⟩
  · exact .inr (.inl ⟨h1, e, h3, rfl⟩)
  · exact .inr (.inr (.inl ⟨h1, h3, c, h4, rfl⟩))
  · exact .inr (.inr (.inr ⟨h1, h3, e, h4, rfl⟩))

/-- An engine-port instruction keeps the filter port (20_memory.md R72). -/
theorem exec_engine_filter {i s t} (hp : i.portOf = .engine) (h : exec i s = .next t) :
    t.filter = s.filter := by
  rcases exec_engine_cases hp h with ⟨h1, rfl⟩ | ⟨h1, e, h3, rfl⟩ | ⟨h1, h3, c, h4, rfl⟩ | ⟨h1, h3, e,
      h4, rfl⟩ <;> rfl

/-- A filter-port instruction keeps the engine port (20_memory.md R72). -/
theorem exec_filter_engine {i s t} (hp : i.portOf = .filter) (h : exec i s = .next t) :
    t.engine = s.engine := by
  rcases exec_filter_cases hp h with ⟨h1, rfl⟩ | ⟨h1, e, h3, rfl⟩ | ⟨h1, h3, c, h4, rfl⟩ | ⟨h1, h3, e,
      h4, rfl⟩ <;> rfl

/-- An engine-port instruction reads the engine port only (20_memory.md R72). -/
theorem exec_engine_local {i : Instr} (hp : i.portOf = .engine) (s : State) :
  ∃ e, ∀ f u, exec i ⟨s.engine, f, u⟩ = .next ⟨e, f, u⟩ := by
  simp only [exec_engine hp, runEngine, isFaulted_engine]
  by_cases hf : s.engine.fault.isSome = true
  · exact ⟨s.engine, by simp [hf]⟩
  · simp only [hf]
    cases ho : operandError i with
    | some e => exact ⟨{ s.engine with fault := some ⟨decodeErrorCode e, headerOf i⟩ },
        by simp [raiseFault]⟩
    | none =>
      cases hr : engineRule i s.engine with
      | error c => exact ⟨{ s.engine with fault := some ⟨c, headerOf i⟩ }, by simp [raiseFault]⟩
      | ok e => exact ⟨e, by simp⟩

/-- A filter-port instruction reads the filter port only (20_memory.md R72). -/
theorem exec_filter_local {i : Instr} (hp : i.portOf = .filter) (s : State) :
  ∃ f, ∀ e u, exec i ⟨e, s.filter, u⟩ = .next ⟨e, f, u⟩ := by
  simp only [exec_filter hp, runFilter, isFaulted_filter]
  by_cases hf : s.filter.fault.isSome = true
  · exact ⟨s.filter, by simp [hf]⟩
  · simp only [hf]
    cases ho : operandError i with
    | some e => exact ⟨{ s.filter with fault := some ⟨decodeErrorCode e, headerOf i⟩ },
        by simp [raiseFault]⟩
    | none =>
      cases hr : filterRule i s.filter with
      | error c => exact ⟨{ s.filter with fault := some ⟨c, headerOf i⟩ }, by simp [raiseFault]⟩
      | ok e => exact ⟨e, by simp⟩

/-- Every instruction keeps the number of voices. -/
theorem exec_length {i s t} (h : exec i s = .next t) :
    t.engine.voices.length = s.engine.voices.length := by
  cases hp : i.portOf with
  | filter => rw [exec_filter_engine hp h]
  | engine =>
    rcases exec_engine_cases hp h with ⟨h1, rfl⟩ | ⟨h1, e, h3, rfl⟩ | ⟨h1, h3, c, h4, rfl⟩ | ⟨h1, h3,
        e, h4, rfl⟩
    · rfl
    · rfl
    · rfl
    · exact engineRule_length h4

/-- An engine-port instruction with an operand error faults. -/
theorem exec_engine_operandError {i : Instr} (hp : i.portOf = .engine) {s e}
    (hs : s.engine.fault = none) (h : operandError i = some e) :
   exec i s = .next { s with engine := { s.engine with fault := some ⟨decodeErrorCode e, headerOf i⟩ } } := by
  rw [exec_engine hp, runEngine_operandError hs h]; rfl

/-- A filter-port instruction with an operand error faults. -/
theorem exec_filter_operandError {i : Instr} (hp : i.portOf = .filter) {s e}
    (hs : s.filter.fault = none) (h : operandError i = some e) :
   exec i s = .next { s with filter := { s.filter with fault := some ⟨decodeErrorCode e, headerOf i⟩ } } := by
  rw [exec_filter hp, runFilter_operandError hs h]; rfl

/-- An engine-port instruction whose rule changes nothing leaves the state as it is. -/
theorem exec_of_rule_id {i : Instr} {s : State} (hp : i.portOf = .engine)
    (hs : s.engine.fault = none) (hw : i.WellFormed) (h : engineRule i s.engine = .ok s.engine) :
    exec i s = .next s := by
  rw [exec_engine hp]; exact runEngine_ok hs hw h

end Sys2Proof.Machine
end

