-- ==== Sys2Proof/Laws/Effect.lean ====
section
/-! SUPPORT. The terms of Safety.lean against the meanings: what each meaning does to one voice, said in
those terms, and which of a fixed set of things an instruction can do to a voice. -/

namespace Sys2Proof.Machine

/-! ### Terms -/

/-- The playing states (41_voice.md R151). -/
theorem isPlaying_iff (v : Voice) : isPlaying v = true ↔ Playing v := by
  unfold isPlaying Playing
  cases v.env <;> simp [envPlaying]

/-- A VALUE word that is not finite (60_exceptions.md R266). -/
theorem nonFinite_iff (w : Word) : nonFinite w = true ↔ ¬ FiniteWord w := by
  unfold nonFinite FiniteWord field; simp

/-- A finite VALUE word (60_exceptions.md R266). -/
theorem nonFinite_eq_false_iff (w : Word) : nonFinite w = false ↔ FiniteWord w := by
  unfold nonFinite FiniteWord field; simp

/-- The binary64 value of a word (00_scope.md R10). -/
theorem binary64_eq (w : Word) : binary64 w = wordValue w := by
  unfold binary64 wordValue field
  simp only [Rat.mkRat_eq_div]
  generalize (w.extractLsb' 52 11).toNat = e
  generalize (w.extractLsb' 0 52).toNat = f
  have hp : ∀ n : Nat, (2 : Rat) ^ (-(n : Int)) = 1 / 2 ^ n := fun n => by
    rw [zpow_neg, zpow_natCast, one_div]
  by_cases he : e = 0
  · simp only [he, if_true]
    by_cases hf : f = 0
    · simp [hf]
    · rw [if_neg hf, if_neg (by omega), show (-1074 : Int) = -((1074 : Nat) : Int) from rfl, hp,
        show 1075 - 1 = 1074 from rfl]
      generalize 1074 = n
      push_cast; split <;> simp <;> ring
  · simp only [he, if_false]
    rw [if_neg (by positivity)]
    split
    · rename_i h
      rw [show ((e : Int) - 1075) = ((e - 1075 : Nat) : Int) by omega, zpow_natCast]
      push_cast; split <;> norm_num
    · rename_i h
      rw [show ((e : Int) - 1075) = -((1075 - e : Nat) : Int) by omega, hp]
      push_cast; split <;> simp <;> ring

/-- The value of a VALUE word in the reference NUM. -/
theorem toNum_eq_wordValue (w : Word) : toNum ratNum w = wordValue w := by
  rw [toNum_ratNum]; exact binary64_eq w

/-- A legal ADDR word (30_encoding.md R96). -/
theorem addrLegal_iff (a : Addr) : addrLegal a = true ↔ LegalAddr a := by
  unfold addrLegal LegalAddr; simp; tauto

/-- A legal ADDR word passes its check. -/
theorem addrError_of_legal {a : Addr} (h : LegalAddr a) : addrError a = none := by
  simp [addrError, (addrLegal_iff a).mpr h]

/-- An illegal ADDR word fails its check. -/
theorem addrError_of_illegal {a : Addr} (h : ¬ LegalAddr a) : addrError a = some .illegalAddr := by
  simp [addrError, addrLegal_iff, h]

/-- The address matching (44_mod_router.md R240). -/
theorem addressed_iff (b a) (v : Voice) : addressed b a v.ident = true ↔ Reaches b a v := by
  unfold addressed Reaches
  by_cases h1 : b = true ∧ 0 ≤ a.noteId
  · simp [h1]
  · rw [if_neg h1, if_neg (by simpa using h1)]
    by_cases h2 : 0 ≤ a.port ∧ 0 ≤ a.chan ∧ 0 ≤ a.key
    · simp [h2, and_assoc]
    · rw [if_neg h2]; simp; left; omega

/-- The release (41_voice.md R168). -/
theorem voiceRelease_eq (v) : voiceRelease v = released v := rfl

/-- The lesser of two numbers. -/
theorem minNum_eq (a b : Rat) : minNum a b = min a b := by
  unfold minNum
  rcases le_total a b with h | h
  · rw [if_pos h, min_eq_left h]
  · rw [min_eq_right h]; split_ifs with h'
    · exact le_antisymm h' h
    · rfl

/-- The guarded evaluation of the clamped frequency is the clamp (log 20). -/
theorem keyToHzClamped_eq {key lo hi : Rat} (h : lo ≤ hi) :
    keyToHzClamped key lo hi = clamp (keyToHz ratNum key) lo hi := by
  have hb := exp2_bounds ((key - 69) / 12)
  simp only [keyToHzClamped]
  generalize (exp2Parts ((key - 69) / 12)).1 = k at *
  split_ifs with h1 h2
  · obtain ⟨hk, _, hh⟩ := h1
    rw [timesPow2_eq] at hh
    have h3 : (2 : Rat) ^ (4096 : Int) ≤ (2 : Rat) ^ k := zpow_le_zpow_right₀ (by norm_num) (by omega)
    have hp : (0 : Rat) < 2 ^ (4096 : Int) := by positivity
    generalize (2 : Rat) ^ (4096 : Int) = q at *
    have hx : hi < keyToHz ratNum key := by simp only [keyToHz, ratNum_exp2]; push_cast at hh; linarith [hb.1]
    unfold clamp
    rw [if_neg (by linarith), if_pos hx]
  · obtain ⟨hk, _, hh⟩ := h2
    rw [timesPow2_eq] at hh
    have h3 : (2 : Rat) ^ (k + 1) ≤ (2 : Rat) ^ (-4010 : Int) :=
        zpow_le_zpow_right₀ (by norm_num) (by omega)
    have h4 : (2 : Rat) ^ (-4000 : Int) = 2 ^ (-4010 : Int) * 1024 := by
      rw [show (-4000 : Int) = -4010 + 10 by norm_num, zpow_add₀ (by norm_num)]; norm_num
    have hp : (0 : Rat) < 2 ^ (-4010 : Int) := by positivity
    rw [h4] at hh
    generalize (2 : Rat) ^ (-4010 : Int) = q at *
    have hx : keyToHz ratNum key < lo := by simp only [keyToHz, ratNum_exp2]; push_cast at hh; linarith [hb.2]
    unfold clamp
    rw [if_pos hx]
  · rfl

/-- What 00_scope.md R7 asks of the parameters the filter and the bypass read. -/
theorem paramsValid_bounds {c : Params} (h : paramsValid c = true) : 0 < c.cutoffHzMin ∧
    c.cutoffHzMin ≤ c.cutoffHzMax ∧ 0 < c.resMin ∧ c.resMin ≤ c.resMax ∧ c.resMax < 1 ∧
    0 < c.bypassFadeFrac ∧ c.bypassFadeFrac ≤ 1 := by
  simp [paramsValid] at h; tauto

/-- The model's cutoff frequency (40_filter_unit.md R122). -/
theorem cutoffHz_eq (key : Rat) : cutoffHz ratNum params key = cutoffFreq key :=
    keyToHzClamped_eq (paramsValid_bounds params_valid).2.1

/-- The coefficient writes (40_filter_unit.md R123, R124). -/
theorem withCoefficients_eq (key res sr : Rat) (fu : FilterUnit) :
   withCoefficients (tan (pi * cutoffHz ratNum params key * sr))
       (damping params res) fu = coefficientsSet key res sr fu := by
  rw [cutoffHz_eq]; rfl

/-- The mode write (40_filter_unit.md R125). -/
theorem setMode_eq (m fu) : setMode m fu = modeSet m fu := by
  unfold setMode modeSet clearState
  by_cases h : m = fu.mode <;> simp [h]

/-- One lane of a sample (40_filter_unit.md R127, R128). -/
theorem processLane_eq (fu : FilterUnit) (ln : Lane) (x : Rat) :
    processLane fu ln x = (laneAfter fu ln x, laneOut fu ln x) := by
  cases hm : fu.mode <;> simp [processLane, laneAfter, laneOut, mixOf, hm] <;> ring

/-- A unit at rest answers silence with silence. -/
theorem processStereo_zero (fu : FilterUnit) (h1 : fu.left = ⟨0, 0⟩) (h2 : fu.right = ⟨0, 0⟩) :
    (processStereo fu 0 0).2 = (0, 0) := by
  simp [processStereo, processLane, h1, h2]

/-- The filter mode a parameter names (41_voice.md R158). -/
theorem filterModeNumber_modeOfParam (x : Rat) : (filterModeNumber (modeOfParam ratNum x) :
    Int) = snap ratNum x 0 5 := by
  have h := snap_bounds (x := x) (lo := 0) (hi := 5) (by norm_num)
  simp only [modeOfParam]
  generalize snap ratNum x 0 5 = k at *
  obtain ⟨h1, h2⟩ := h
  obtain rfl | rfl | rfl | rfl | rfl | rfl : k = 0 ∨ k = 1 ∨ k = 2 ∨ k = 3 ∨ k = 4 ∨ k = 5 := by omega
  all_goals rfl

/-- The saw value (41_voice.md R163). -/
theorem dpw_eq {phi d x} (h : dpw ratNum phi d = .ok x) : x = sawValue phi d := by
  unfold dpw at h
  split at h
  · cases h
  · cases h; simp only [sawValue, sawPoly]; ring

/-- The amplitude (41_voice.md R164). -/
theorem amplitude_eq (c v) : amplitude c v = ampOf c v := by
  unfold amplitude ampOf
  cases v.bypass <;> cases v.env <;> simp

/-! ### Recomputation, activation, push -/

/-- The recomputed increments (41_voice.md R156). -/
theorem recalcPitch_repitched (sr v) : Repitched sr v (recalcPitch ratNum sr v) := by
  refine ⟨rfl, by simp, fun i sl h => ?_⟩
  rw [recalcPitch_slot, h]
  simp only [Option.map_some, Option.some.injEq]
  split
  · rename_i hi
    have : keyToHz ratNum (copyPitch v i) * sr = increment v sr i := by
      simp only [keyToHz, copyPitch, increment, unisonPos]
      by_cases hu : v.unison = 1 <;> simp [hu]
    rw [this]
  · rfl

/-- Increments do not depend on the filter. -/
theorem Repitched.flt {sr v w fu} (h : Repitched sr v w) :
    Repitched sr { v with flt := fu } { w with flt := fu } := by
  obtain ⟨h1, h2, h3⟩ := h
  refine ⟨by rw [h1], h2, fun i sl h => h3 i sl h⟩

/-- A recomputation with a stable cutoff (41_voice.md R156, R157). -/
theorem recalcBoth_of_stable {sr v} (h : CutoffStable (v.cutoffBase + v.cutoffMod) sr) :
   recalcBoth ratNum params sr v = .ok { recalcPitch ratNum sr v with flt := filterRecomputed (v.cutoffBase + v.cutoffMod) (v.resBase + v.resMod) sr v.flt } := by
  rw [recalcBoth_ratNum]
  rcases recalcFilter_cases params sr (recalcPitch ratNum sr v) with ⟨a, b⟩ | ⟨a, d, b⟩ | ⟨a, d, b⟩ <;> rw [b]
  · simp only [filterRecomputed, not_lt.mpr a, if_false]; rfl
  · have := h a
    rw [cutoffHz_eq] at d
    exact absurd this (not_lt.mpr d)
  · simp only [filterRecomputed, a, if_true, withCoefficients_eq]; rfl

/-- A recomputation with an unstable cutoff (40_filter_unit.md R121). -/
theorem recalcBoth_of_unstable {sr v} (h : ¬ CutoffStable (v.cutoffBase + v.cutoffMod) sr) :
   recalcBoth ratNum params sr v = .error .unstableCutoff := by
  rw [recalcBoth_ratNum]
  unfold CutoffStable at h
  rcases recalcFilter_cases params sr (recalcPitch ratNum sr v) with ⟨a, b⟩ | ⟨a, d, b⟩ | ⟨a, d, b⟩ <;> rw [b]
  · exact absurd (fun hp => absurd hp (not_lt.mpr a)) h
  · rw [cutoffHz_eq] at d
    exact absurd (fun _ => d) h

/-- A recomputed filter with a stable cutoff (41_voice.md R157). -/
theorem recalcFilter_of_stable {sr v} (h : CutoffStable (v.cutoffBase + v.cutoffMod) sr) :
   recalcFilter ratNum params sr v = .ok { v with flt := filterRecomputed (v.cutoffBase + v.cutoffMod) (v.resBase + v.resMod) sr v.flt } := by
  rcases recalcFilter_cases params sr v with ⟨a, b⟩ | ⟨a, d, b⟩ | ⟨a, d, b⟩ <;> rw [b]
  · simp only [filterRecomputed, not_lt.mpr a, if_false]
  · have := h a
    rw [cutoffHz_eq] at d
    exact absurd this (not_lt.mpr d)
  · simp only [filterRecomputed, a, if_true, withCoefficients_eq]

/-- A push with a stable cutoff (42_voice_pool.md R197). -/
theorem pushVoice_of_stable {p sr v} (h : CutoffStable (p.cutoff + v.cutoffMod) sr) : ∃ w,
    pushVoice ratNum params p sr v = .ok w ∧ Pushed p sr v w := by
  refine ⟨_, recalcBoth_of_stable (v :=
      { copyBase ratNum p false v with flt := setMode (copyBase ratNum p false v).mode (copyBase ratNum p false v).flt }) h, modeOfParam ratNum p.filterMode, filterModeNumber_modeOfParam _, ?_⟩
  have := Repitched.flt (fu := filterRecomputed (p.cutoff + v.cutoffMod)
      (p.resonance + v.resMod) sr (modeSet (modeOfParam ratNum p.filterMode) v.flt))
    (recalcPitch_repitched sr { copyBase ratNum p false v with flt := setMode (copyBase ratNum p false v).mode (copyBase ratNum p false v).flt })
  have e : setMode (copyBase ratNum p false v).mode (copyBase ratNum p false v).flt = modeSet (modeOfParam ratNum p.filterMode) v.flt := setMode_eq _ _
  simp only [e] at this ⊢
  exact this

/-- An activation with a stable cutoff (41_voice.md R153). -/
theorem voiceInit_of_stable {p sr ident v} (h : CutoffStable p.cutoff sr) : ∃ w,
    voiceInit ratNum params p sr ident v = .ok w ∧ Activated p sr ident v w := by
  have hc : (activatedVoice ratNum params p ident v).cutoffBase + (activatedVoice ratNum params p ident v).cutoffMod = p.cutoff := by
    simp only [activatedVoice, initEnvelope, initPhases, panNorm, copyBase]; split <;> simp
  have hr : (activatedVoice ratNum params p ident v).resBase + (activatedVoice ratNum params p ident v).resMod = p.resonance := by
    simp only [activatedVoice, initEnvelope, initPhases, panNorm, copyBase]; split <;> simp
  refine ⟨_, recalcBoth_of_stable (by rw [hc]; exact h), modeOfParam ratNum p.filterMode, (snap ratNum p.unisonCount 1 7).toNat, (activatedVoice ratNum params p ident v).slots, filterModeNumber_modeOfParam _, ?_, by simp, ?_, ?_⟩
  · have := snap_bounds (x := p.unisonCount) (lo := 1) (hi := 7) (by norm_num); omega
  · intro i sl hi
    have hs : (activatedVoice ratNum params p ident v).slots = ((v.slots.mapIdx fun i sl => if i < (snap ratNum p.unisonCount 1 7).toNat then { sl with panL := minNum 1 (1 - unisonPos (snap ratNum p.unisonCount 1 7).toNat i), panR := minNum 1 (1 + unisonPos (snap ratNum p.unisonCount 1 7).toNat i) } else { sl with panL := 0, panR := 0 }).mapIdx fun i sl => { sl with phase := if i < (snap ratNum p.unisonCount 1 7).toNat then params.initPhase i (snap ratNum p.unisonCount 1 7).toNat else 0, dphase := 0 }) := by
      simp only [activatedVoice, initEnvelope, initPhases, panNorm, copyBase]; split <;> simp
    rw [hs] at hi
    simp only [List.getElem?_mapIdx, Option.map_map, Option.map_eq_some_iff] at hi
    obtain ⟨sl0, h0, hi⟩ := hi
    simp only [Function.comp] at hi
    generalize (snap ratNum p.unisonCount 1 7).toNat = u at *
    refine ⟨fun hu => ?_, fun hu => ?_⟩
    · simp only [hu, if_true] at hi
      subst hi
      refine ⟨rfl, ?_, ?_⟩ <;> simp only [unisonPos, minNum_eq]
    · simp only [not_lt.mpr hu, if_false] at hi
      exact hi.symm
  · rw [hc, hr]
    have := Repitched.flt (fu := filterRecomputed p.cutoff p.resonance sr (activatedVoice ratNum params p ident v).flt) (recalcPitch_repitched sr (activatedVoice ratNum params p ident v))
    have e : activatedVoice ratNum params p ident v =
        { ident := ident, env := if p.ampAttack ≤ 0 then .hold else .attack
          unison := (snap ratNum p.unisonCount 1 7).toNat
          norm := 1 / sqrt ((snap ratNum p.unisonCount 1 7).toNat : Rat)
          slots := (activatedVoice ratNum params p ident v).slots, t := 0
          level := if p.ampAttack ≤ 0 then 1 else 0
          releaseFrom := if p.ampAttack ≤ 0 then 1 else 0
          attackTime := p.ampAttack, releaseTime := p.ampRelease
          bypass := decide (1 / 2 ≤ p.ampEnvBypass), spreadBase := p.unisonSpread
          detuneBase := p.oscDetune, vcaBase := p.preFilterVca, cutoffBase := p.cutoff
          resBase := p.resonance, mode := modeOfParam ratNum p.filterMode, spreadMod := 0
          detuneMod := 0, vcaMod := 0, cutoffMod := 0, resMod := 0, volExpr := 0
          tuningExpr := 0, bend := 0
          flt := { v.flt with
            mode := modeOfParam ratNum p.filterMode, left := ⟨0, 0⟩, right := ⟨0, 0⟩ } } := by
      simp only [activatedVoice, initEnvelope, initPhases, panNorm, copyBase]; split <;> simp <;> rfl
    have ef : (activatedVoice ratNum params p ident v).flt = { v.flt with mode := modeOfParam ratNum p.filterMode, left := ⟨0, 0⟩, right := ⟨0, 0⟩ } := by rw [e]
    rw [ef] at this ⊢
    have e2 := congrArg (fun u : Voice => { u with flt := filterRecomputed p.cutoff p.resonance sr { v.flt with mode := modeOfParam ratNum p.filterMode, left := ⟨0, 0⟩, right := ⟨0, 0⟩ } }) e
    simp only [] at e2
    rw [e2] at this
    exact this

/-- A filter recomputation faults on an unstable cutoff only (40_filter_unit.md R121). -/
theorem recalcFilter_error_unstable {sr v code} (h : recalcFilter ratNum params sr v = .error code) :
    code = .unstableCutoff ∧ ¬ CutoffStable (v.cutoffBase + v.cutoffMod) sr :=
  ⟨(recalcFilter_error h).1, fun hs => by rw [recalcFilter_of_stable hs] at h; cases h⟩

/-- A filter recomputation with an unstable cutoff (40_filter_unit.md R121). -/
theorem recalcFilter_of_unstable {sr v} (h : ¬ CutoffStable (v.cutoffBase + v.cutoffMod) sr) :
    recalcFilter ratNum params sr v = .error .unstableCutoff := by
  rcases recalcFilter_cases params sr v with ⟨a, b⟩ | ⟨a, d, b⟩ | ⟨a, d, b⟩
  · exact absurd (fun hp => absurd hp (not_lt.mpr a)) h
  · exact b
  · rw [cutoffHz_eq] at d
    exact absurd (fun _ => d) h

/-- A recomputation faults on an unstable cutoff only. -/
theorem recalcBoth_error_unstable {sr v code} (h : recalcBoth ratNum params sr v = .error code) :
    code = .unstableCutoff ∧ ¬ CutoffStable (v.cutoffBase + v.cutoffMod) sr :=
  ⟨(recalcBoth_error h).1, fun hs => by rw [recalcBoth_of_stable hs] at h; cases h⟩

/-- A push faults on an unstable cutoff only (42_voice_pool.md R197). -/
theorem pushVoice_error_unstable {p sr v code} (h : pushVoice ratNum params p sr v = .error code) :
    code = .unstableCutoff ∧ ¬ CutoffStable (p.cutoff + v.cutoffMod) sr :=
  ⟨pushVoice_error h, fun hs => by
    obtain ⟨w, hw, _⟩ := pushVoice_of_stable hs
    rw [hw] at h; cases h⟩

/-- The cutoff a voice is activated at is the parameter (41_voice.md R158). -/
theorem activatedVoice_cutoff (c p ident v) : (activatedVoice ratNum c p ident v).cutoffBase +
    (activatedVoice ratNum c p ident v).cutoffMod = p.cutoff := by
  simp only [activatedVoice, initEnvelope, initPhases, panNorm, copyBase]; split <;> simp

/-- An activation with an unstable cutoff (42_voice_pool.md R192). -/
theorem voiceInit_of_unstable {p sr} (h : ¬ CutoffStable p.cutoff sr) (ident v) :
    voiceInit ratNum params p sr ident v = .error .unstableCutoff :=
  recalcBoth_of_unstable (by rw [activatedVoice_cutoff]; exact h)

/-- An activation faults on an unstable cutoff only. -/
theorem voiceInit_error_unstable {p sr ident v code}
    (h : voiceInit ratNum params p sr ident v = .error code) :
    code = .unstableCutoff ∧ ¬ CutoffStable p.cutoff sr := by
  have := recalcBoth_error_unstable h
  rw [activatedVoice_cutoff] at this
  exact this

/-- A second recomputation of the increments changes nothing, whatever the filter. -/
theorem recalcPitch_flt_idem (sr : Rat) (v : Voice) (fu : FilterUnit) :
    recalcPitch ratNum sr { recalcPitch ratNum sr v with flt := fu } = { recalcPitch ratNum sr v with flt := fu } := by
  have h := congrArg (fun u : Voice => { u with flt := fu }) (recalcPitch_idem sr v)
  exact h

/-- A second recomputation changes nothing (41_voice.md R169). -/
theorem recalcBoth_idem {c sr v w} (h : recalcBoth ratNum c sr v = .ok w) : recalcBoth ratNum c sr w = .ok w := by
  obtain ⟨fu, rfl, hm, hl, hr, h0, h1⟩ := recalcBoth_ok h
  rw [recalcBoth_ratNum]
  rw [recalcPitch_flt_idem]
  rcases recalcFilter_cases c sr { recalcPitch ratNum sr v with flt := fu } with ⟨a, b⟩ | ⟨a, d, b⟩ | ⟨a, d,
      b⟩ <;> rw [b]
  · exfalso
    rcases recalcFilter_cases c sr (recalcPitch ratNum sr v) with ⟨a', b'⟩ | ⟨a', d', b'⟩ | ⟨a', d', b'⟩
    · exact absurd a (not_lt.mpr a')
    · rw [recalcBoth_ratNum] at h; rw [b'] at h; cases h
    · exact absurd d (not_le.mpr d')
  · have := h1 a
    subst this
    rfl

/-- A second copy of the parameters changes nothing. -/
theorem copyBase_idem (p : ParamFile) (sr : Rat) (v : Voice) (fu : FilterUnit) :
   copyBase ratNum p false { recalcPitch ratNum sr { copyBase ratNum p false v with flt := setMode (copyBase ratNum p false v).mode (copyBase ratNum p false v).flt } with flt := fu }
    = { recalcPitch ratNum sr { copyBase ratNum p false v with flt := setMode (copyBase ratNum p false v).mode (copyBase ratNum p false v).flt } with flt := fu } := rfl

/-- A second push into a voice changes nothing (41_voice.md R169). -/
theorem pushVoice_idem {c p sr v w} (h : pushVoice ratNum c p sr v = .ok w) : pushVoice ratNum c p sr w = .ok w := by
  have h' := h
  obtain ⟨fu, rfl, hm, _⟩ := recalcBoth_ok h
  have h2 := recalcBoth_idem h'
  unfold pushVoice
  simp only [copyBase_idem]
  have hmode : setMode (copyBase ratNum p false v).mode fu = fu := by
    have hm' : fu.mode = (copyBase ratNum p false v).mode := hm.trans (setMode_mode _ _)
    rw [← hm']; exact setMode_self fu
  have : ∀ u : Voice, u.flt = fu → u.mode = (copyBase ratNum p false v).mode →
      { u with flt := setMode u.mode u.flt } = u := by
    clear h h' h2
    intro u h1 h2; cases u; simp only at h1 h2; subst h1 h2; simp only [hmode]
  rw [this { recalcPitch ratNum sr { copyBase ratNum p false v with flt := setMode (copyBase ratNum p false v).mode (copyBase ratNum p false v).flt } with flt := fu } rfl rfl]
  exact h2

/-! ### Loops over the array -/

/-- Two lists related element by element, at one index. -/
theorem forall₂_getElem? {R : Voice → Voice → Prop} {vs ws : List Voice}
    (h : List.Forall₂ R vs ws) {j : Nat} {v w} (hv : vs[j]? = some v) (hw : ws[j]? = some w) : R v w := by
  induction h generalizing j with
  | nil => simp at hv
  | cons a _ ih => cases j with
    | zero => simp at hv hw; subst hv hw; exact a
    | succ j => exact ih (by simpa using hv) (by simpa using hw)

/-- A loop without faults, at one index. -/
theorem map_updPlaying_getElem? {vs : List Voice} {sel f v w} {j : Nat} (hv : vs[j]? = some v)
    (hw : (vs.map (updPlaying sel f))[j]? = some w) :
   w = updPlaying sel f v := by
  rw [List.getElem?_map, hv] at hw; cases hw; rfl

/-- What a voice becomes in a loop without faults. -/
theorem updPlaying_cases (sel f) (v : Voice) : (isPlaying v = true ∧ sel v = true ∧
    updPlaying sel f v = f v) ∨ ((isPlaying v && sel v) = false ∧ updPlaying sel f v = v) := by
  cases h : (isPlaying v && sel v)
  · exact .inr ⟨rfl, updPlaying_of_not h⟩
  · have := h; rw [Bool.and_eq_true] at this; exact .inl ⟨this.1, this.2, updPlaying_of h⟩

/-- A loop whose bodies all give a result related to their voice. -/
theorem forVoices_of_result {f : Voice → Except FaultCode Voice} {vs : List Voice} {R : Voice → Voice → Prop} (h : ∀ v ∈ vs, ∃ w, f v = .ok w ∧ R v w) :
   ∃ ws, forVoices f vs = .ok ws ∧ ws.length = vs.length ∧ ∀ (j : Nat) (v : Voice), vs[j]? = some v →
       ∃ w, ws[j]? = some w ∧ R v w := by
  obtain ⟨ws, hws⟩ := forVoices_of_forall (f := f) (vs := vs) fun v hv => (h v hv).imp fun w h => h.1
  have hl := forVoices_length hws
  refine ⟨ws, hws, hl, fun j v hv => ?_⟩
  obtain ⟨hj, _⟩ := List.getElem?_eq_some_iff.mp hv
  have hw : ws[j]? = some (ws[j]'(by omega)) := List.getElem?_eq_getElem _
  refine ⟨_, hw, ?_⟩
  obtain ⟨w, h1, h2⟩ := h v (List.mem_of_getElem? hv)
  have := forVoices_getElem? hws hv hw
  rw [h1] at this; cases this; exact h2

/-- One body of a loop over the selected playing voices. -/
theorem onPlaying_of_result {sel f} {v : Voice} {R : Voice → Voice → Prop} {S : Voice → Prop}
    (hS : sel v = true ↔ S v) (h : Playing v → S v → ∃ w, f v = .ok w ∧ R v w) :
   ∃ w, onPlaying sel f v = .ok w ∧ ((Playing v ∧ S v → R v w) ∧ (¬ (Playing v ∧ S v) → w = v)) := by
  by_cases hp : Playing v ∧ S v
  · obtain ⟨w, h1, h2⟩ := h hp.1 hp.2
    exact ⟨w, by rw [onPlaying_of (by rw [Bool.and_eq_true, isPlaying_iff, hS]; exact hp)]; exact h1, fun _ => h2, fun h => absurd hp h⟩
  · exact ⟨v, by rw [onPlaying_of_not (by rw [← Bool.not_eq_true, Bool.and_eq_true, isPlaying_iff, hS]; exact hp)], fun h => absurd h hp, fun _ => rfl⟩

/-- A loop with a faulting body faults. -/
theorem forVoices_of_error {f : Voice → Except FaultCode Voice} {vs : List Voice} {v}
    (hv : v ∈ vs) {c} (h : f v = .error c)
   (hf : ∀ v c, f v = .error c → c = .unstableCutoff) : forVoices f vs = .error .unstableCutoff := by
  cases hr : forVoices f vs with
  | error c' => rw [forVoices_error_code hf hr]
  | ok ws =>
    obtain ⟨j, hj⟩ := List.getElem?_of_mem hv
    have hl := forVoices_length hr
    obtain ⟨hj', _⟩ := List.getElem?_eq_some_iff.mp hj
    have := forVoices_getElem? hr hj (List.getElem?_eq_getElem (by omega))
    rw [h] at this; cases this

/-- A loop of bodies that change nothing the second time changes nothing the second time. -/
theorem forVoices_idem {f : Voice → Except FaultCode Voice} {vs ws : List Voice}
    (h : forVoices f vs = .ok ws) (hf : ∀ v w, f v = .ok w → f w = .ok w) :
   forVoices f ws = .ok ws := by
  rw [forVoices_ok_iff] at h ⊢
  induction h with
  | nil => exact .nil
  | cons a _ ih => exact .cons (hf _ _ a) ih

/-- A loop that reaches no playing voice changes nothing. -/
theorem map_updPlaying_id {vs : List Voice} {sel f} (h : ∀ v ∈ vs, ¬ (Playing v ∧ sel v = true)) :
    vs.map (updPlaying sel f) = vs := by
  conv => rhs; rw [← List.map_id vs]
  apply List.map_congr_left
  intro v hv
  exact updPlaying_of_not (by rw [← Bool.not_eq_true, Bool.and_eq_true, isPlaying_iff]; exact h v hv)

/-- A loop that reaches no playing voice changes nothing, and does not fault. -/
theorem forVoices_onPlaying_id {vs : List Voice} {sel f} (h : ∀ v ∈ vs, ¬ (Playing v ∧
    sel v = true)) : forVoices (onPlaying sel f) vs = .ok vs := by
  rw [forVoices_ok_iff]
  induction vs with
  | nil => exact .nil
  | cons v vs ih =>
    refine .cons ?_ (ih fun u hu => h u (List.mem_cons_of_mem _ hu))
    exact onPlaying_of_not (by rw [← Bool.not_eq_true, Bool.and_eq_true, isPlaying_iff]; exact h v List.mem_cons_self)

/-! ### The sample -/

/-- The unison mix of the copies an oscillator step leaves (41_voice.md R162, R165). -/
theorem oscillate_mix {u : Nat} {sls : List Slot} {r : List Slot × List Rat}
    (h : oscillate ratNum u sls = .ok r) (norm : Rat) (pan : Slot → Rat) (acc : Rat) :
   (r.1.zip r.2).foldl (fun acc q => acc + q.2 * norm * pan q.1) acc = acc + ((r.1.take u).map fun sl => sawValue sl.phase sl.dphase * norm * pan sl).sum := by
  induction u generalizing sls r acc with
  | zero => cases h; simp
  | succ u ih =>
    cases sls with
    | nil => cases h; simp
    | cons sl sls =>
      simp only [oscillate, ifFinite_ratNum] at h
      cases hd : dpw ratNum (wrap ratNum (sl.phase + sl.dphase)) sl.dphase with
      | error c => rw [hd] at h; cases h
      | ok x =>
        rw [hd] at h
        cases ho : oscillate ratNum u sls with
        | error c => rw [ho] at h; cases h
        | ok q =>
          rw [ho] at h; cases h
          simp only [List.zip_cons_cons, List.foldl_cons, List.take_succ_cons, List.map_cons,
              List.sum_cons]
          rw [ih ho, dpw_eq hd]
          ring

/-- The filter lanes and the output of a voice's sample (41_voice.md R166, R167). -/
theorem voiceStep_lanes {c sr v o} (h : voiceStep ratNum c sr v = .ok o) :
    o.1.flt = { v.flt with left := laneAfter v.flt v.flt.left (filterInput c o.1 Over.Slot.panL), right := laneAfter v.flt v.flt.right (filterInput c o.1 Over.Slot.panR) } ∧
    o.2 = (laneOut v.flt v.flt.left (filterInput c o.1 Over.Slot.panL),
        laneOut v.flt v.flt.right (filterInput c o.1 Over.Slot.panR)) := by
  have hf : (envStep sr v).flt = v.flt := by rw [envStep_frame]
  simp only [voiceStep, ifFinite_ratNum] at h
  cases ho : oscillate ratNum (envStep sr v).unison (envStep sr v).slots with
  | error c => rw [ho] at h; cases h
  | ok q =>
    rw [ho] at h; cases h
    have key : ∀ pan, unisonMix (envStep sr v).norm pan q.1 q.2 * (amplitude c (envStep sr v) * (envStep sr v).vcaBase * (1 + (envStep sr v).vcaMod + (envStep sr v).volExpr)) =
       filterInput c { envStep sr v with slots := q.1, flt := (processStereo (envStep sr v).flt (unisonMix (envStep sr v).norm Over.Slot.panL q.1 q.2 * (amplitude c (envStep sr v) * (envStep sr v).vcaBase * (1 + (envStep sr v).vcaMod + (envStep sr v).volExpr))) (unisonMix (envStep sr v).norm Over.Slot.panR q.1 q.2 * (amplitude c (envStep sr v) * (envStep sr v).vcaBase * (1 + (envStep sr v).vcaMod + (envStep sr v).volExpr)))).1 } pan := by
      intro pan
      unfold filterInput unisonMix
      rw [oscillate_mix ho, zero_add, amplitude_eq]; rfl
    rw [← key Over.Slot.panL, ← key Over.Slot.panR]
    simp only [processStereo, processLane_eq, hf]
    exact ⟨trivial, trivial⟩

/-- The frame of a TICK, voice by voice (43_scheduler.md R223). -/
theorem stepVoices_frame {c sr vs acc r} (h : stepVoices ratNum c sr vs acc = .ok r) :
   r.2 = ((vs.filter isPlaying).map (sampleOf c sr)).foldl (fun a o => accumulate a o.1 o.2) acc := by
  induction vs generalizing acc r with
  | nil => cases h; rfl
  | cons v vs ih =>
    simp only [stepVoices] at h
    split at h
    · rename_i hp
      cases hv : voiceStep ratNum c sr v with
      | error code => rw [hv] at h; cases h
      | ok o =>
        rw [hv] at h
        cases hr : stepVoices ratNum c sr vs (accumulate acc o.2.1 o.2.2) with
        | error code => simp only [hr] at h; cases h
        | ok q =>
          simp only [hr] at h; cases h
          have := ih hr
          simp only [List.filter_cons, hp, if_true, List.map_cons, List.foldl_cons, sampleOf, hv]
          exact this
    · rename_i hp
      cases hr : stepVoices ratNum c sr vs acc with
      | error code => rw [hr] at h; cases h
      | ok q =>
        rw [hr] at h; cases h
        have := ih hr
        simp only [List.filter_cons, hp]; exact this

/-- A frame of two channels sums (43_scheduler.md R223). -/
theorem accumulate_pair (outs : List (Rat × Rat)) : ∀ x y : Rat,
    outs.foldl (fun a o => accumulate a o.1 o.2) [x, y] = [x + (outs.map Prod.fst).sum, y + (outs.map Prod.snd).sum] := by
  induction outs with
  | nil => intro x y; simp
  | cons o os ih => intro x y; exact (ih (x + o.1) (y + o.2)).trans (by simp [add_assoc])

/-! ### Which things an instruction can do to a voice -/

/-- What a recomputation, a push or a slot write keeps of a voice. -/
structure Tuned (v w : Voice) : Prop where
  env : w.env = v.env
  ident : w.ident = v.ident
  unison : w.unison = v.unison
  norm : w.norm = v.norm
  slots : w.slots = v.slots ∨ ∃ (sr : Rat) (u : Voice),
      w.slots = (recalcPitch ratNum sr { u with slots := v.slots }).slots

/-- The filter recomputation. -/
theorem recalcFilter_tuned {c sr v w} (h : recalcFilter ratNum c sr v = .ok w) : Tuned v w := by
  obtain ⟨fu, rfl, _⟩ := recalcFilter_ok h; exact ⟨rfl, rfl, rfl, rfl, .inl rfl⟩

/-- Both recomputations. -/
theorem recalcBoth_tuned {c sr v w} (h : recalcBoth ratNum c sr v = .ok w) : Tuned v w := by
  obtain ⟨fu, rfl, _⟩ := recalcBoth_ok h; exact ⟨rfl, rfl, rfl, rfl, .inr ⟨sr, v, rfl⟩⟩

/-- The push. -/
theorem pushVoice_tuned {c p sr v w} (h : pushVoice ratNum c p sr v = .ok w) : Tuned v w := by
  obtain ⟨fu, rfl, _⟩ := recalcBoth_ok h; exact ⟨rfl, rfl, rfl, rfl, .inr ⟨sr, _, rfl⟩⟩

/-- A modulation. -/
theorem modVoice_tuned {c sr p x f v w} (hf : modVoice ratNum c sr p x = some f) (h : f v = .ok w) :
    Tuned v w := by
  cases p <;> simp only [modVoice] at hf <;> cases hf
  · cases h; exact ⟨rfl, rfl, rfl, rfl, .inr ⟨sr, { v with spreadMod := x }, rfl⟩⟩
  · cases h; exact ⟨rfl, rfl, rfl, rfl, .inr ⟨sr, { v with detuneMod := x }, rfl⟩⟩
  · cases h; exact ⟨rfl, rfl, rfl, rfl, .inl rfl⟩
  · obtain ⟨a, b, c, d, e⟩ := recalcFilter_tuned h; exact ⟨a, b, c, d, e⟩
  · obtain ⟨a, b, c, d, e⟩ := recalcFilter_tuned h; exact ⟨a, b, c, d, e⟩

/-- An expression. -/
theorem exprVoice_tuned {sr p x v} : Tuned v (exprVoice ratNum sr p x v) := by
  cases p
  · exact ⟨rfl, rfl, rfl, rfl, .inl rfl⟩
  · exact ⟨rfl, rfl, rfl, rfl, .inr ⟨sr, { v with tuningExpr := x }, rfl⟩⟩

/-- Everything an instruction that does not fault can do to one voice. -/
inductive Effect (i : Instr) (e : Engine) (v w : Voice) : Prop where
  | same (h : w = v)
  | start (ident : Identity) (h : noteStarted i = some ident) (h2 : v.env = .off ∨ ∀ u ∈ e.voices,
      u.env ≠ .off)
      (h3 : voiceInit ratNum params e.p e.srInv ident v = .ok w)
  | tick (h : i = .tick) (hp : isPlaying v = true) (o : Voice × Rat × Rat)
      (h2 : voiceStep ratNum params e.srInv v = .ok o) (h3 : w = o.1)
  | reap (h : i = .endBlock) (h2 : w = reapVoice v)
  | release (a : Identity) (h : noteReleased i = some a) (hp : isPlaying v = true)
      (h2 : w = voiceRelease v)
  | rate (sr : Word) (h : i = .setSampleRate sr) (h2 : recalcBoth ratNum params (1 / toNum ratNum sr) v = .ok w)
  | tune (hp : isPlaying v = true) (h : Tuned v w)

/-- An allocation, at one voice. -/
theorem startNote_effect {i ident e e'} {j : Nat} {v w} (hn : noteStarted i = some ident)
    (h : startNote ratNum params ident e = .ok e')
   (hv : e.voices[j]? = some v) (hw : e'.voices[j]? = some w) : Effect i e v w := by
  have key : ∀ k u x, e.voices[k]? = some u → (u.env = .off ∨ ∀ u ∈ e.voices, u.env ≠ .off) →
      voiceInit ratNum params e.p e.srInv ident u = .ok x → (e.voices.set k x)[j]? = some w →
      Effect i e v w := by
    intro k u x hu ho hx hs
    by_cases hk : k = j
    · subst hk
      rw [hu] at hv; cases hv
      rw [List.getElem?_set_self (by obtain ⟨h, _⟩ := List.getElem?_eq_some_iff.mp hu; exact h)] at hs
      cases hs
      exact .start ident hn ho hx
    · rw [List.getElem?_set_ne hk, hv] at hs; cases hs; exact .same rfl
  have hd := drawSteal_frame e
  rcases startNote_cases params ident e with ⟨k, u, hf, hu, ⟨_, h1, h2⟩ | ⟨x, h1, h2⟩⟩ | ⟨hf, ⟨_,
      h2⟩ | ⟨u, hu, ⟨_, h1, h2⟩ | ⟨x, h1, h2⟩⟩⟩ <;>
    rw [h2] at h <;> cases h
  · obtain ⟨u', hu', ho, _⟩ := freeVoice_some hf
    rw [hu] at hu'; cases hu'
    exact key k u x hu (.inl ho) h1 hw
  · rw [hd] at hw; simp only [hv] at hw; cases hw; exact .same rfl
  · exact key _ u x hu (.inr (freeVoice_none hf)) h1 hw

/-- A push, at one voice. -/
theorem push_effect {i e p sr vs v w} {j : Nat}
    (h : forVoices (onPlaying (fun _ => true) (pushVoice ratNum params p sr)) e.voices = .ok vs)
   (hv : e.voices[j]? = some v) (hw : vs[j]? = some w) : Effect i e v w := by
  have := forVoices_getElem? h hv hw
  rcases onPlaying_cases this with ⟨a, _, b⟩ | ⟨_, b⟩
  · exact .tune a (pushVoice_tuned b)
  · exact .same b

/-- The note a MIDI message starts or releases (43_scheduler.md R230 to R232). -/
theorem midi_notes {st d1 d2 : Byte} {port : BitVec 16}
    (h : ¬ (st.toNat < 0x80 ∨ 0x80 ≤ d1.toNat ∨ 0x80 ≤ d2.toNat)) :
   (st.toNat / 16 = 9 ∧ 0 < d2.toNat →
       noteStarted (.midi st d1 d2 port) = some (midiIdent st d1 port) ∧
       noteReleased (.midi st d1 d2 port) = none) ∧
   (¬ (st.toNat / 16 = 9 ∧ 0 < d2.toNat) → st.toNat / 16 = 8 ∨ st.toNat / 16 = 9 →
       noteReleased (.midi st d1 d2 port) = some (midiIdent st d1 port) ∧
       noteStarted (.midi st d1 d2 port) = none) ∧
   (st.toNat / 16 ≠ 8 → st.toNat / 16 ≠ 9 → noteReleased (.midi st d1 d2 port) = none ∧
       noteStarted (.midi st d1 d2 port) = none) := by
  have e1 : 144 ≤ st.toNat → st.toNat < 160 → st.toNat - 144 = st.toNat % 16 := by omega
  have e2 : 128 ≤ st.toNat → st.toNat < 144 → st.toNat - 128 = st.toNat % 16 := by omega
  simp only [noteStarted, noteReleased, midiIdent]
  refine ⟨fun a => ?_, fun a b => ?_, fun a b => ?_⟩
  · rw [if_pos (show 0x90 ≤ st.toNat ∧ st.toNat < 0xA0 ∧ d1.toNat < 0x80 ∧ 0 < d2.toNat ∧
      d2.toNat < 0x80 by omega),
      if_neg (show ¬ (0x80 ≤ st.toNat ∧ st.toNat < 0x90 ∧ d1.toNat < 0x80 ∧ d2.toNat < 0x80) by omega),
      if_neg (show ¬ (0x90 ≤ st.toNat ∧ st.toNat < 0xA0 ∧ d1.toNat < 0x80 ∧ d2.toNat = 0) by omega),
          e1 (by omega) (by omega)]
    exact ⟨rfl, rfl⟩
  · rw [if_neg (show ¬ (0x90 ≤ st.toNat ∧ st.toNat < 0xA0 ∧ d1.toNat < 0x80 ∧ 0 < d2.toNat ∧
      d2.toNat < 0x80) by omega)]
    rcases b with b | b
    · rw [if_pos (show 0x80 ≤ st.toNat ∧ st.toNat < 0x90 ∧ d1.toNat < 0x80 ∧
        d2.toNat < 0x80 by omega), e2 (by omega) (by omega)]; exact ⟨rfl, rfl⟩
    · rw [if_neg (show ¬ (0x80 ≤ st.toNat ∧ st.toNat < 0x90 ∧ d1.toNat < 0x80 ∧
        d2.toNat < 0x80) by omega),
        if_pos (show 0x90 ≤ st.toNat ∧ st.toNat < 0xA0 ∧ d1.toNat < 0x80 ∧ d2.toNat = 0 by omega),
            e1 (by omega) (by omega)]; exact ⟨rfl, rfl⟩
  · rw [if_neg (show ¬ (0x90 ≤ st.toNat ∧ st.toNat < 0xA0 ∧ d1.toNat < 0x80 ∧ 0 < d2.toNat ∧
      d2.toNat < 0x80) by omega),
      if_neg (show ¬ (0x80 ≤ st.toNat ∧ st.toNat < 0x90 ∧ d1.toNat < 0x80 ∧ d2.toNat < 0x80) by omega),
      if_neg (show ¬ (0x90 ≤ st.toNat ∧ st.toNat < 0xA0 ∧ d1.toNat < 0x80 ∧ d2.toNat = 0) by omega)]
    exact ⟨rfl, rfl⟩

/-- Every engine-port rule, at one voice. -/
theorem engineRule_effect {i : Instr} {e e' : Engine}
    (h : engineRule i e = .ok e') {j : Nat} {v w} (hv : e.voices[j]? = some v)
    (hw : e'.voices[j]? = some w) :
    Effect i e v w := by
  have same : e' = e → Effect i e v w := by rintro rfl; rw [hv] at hw; cases hw; exact .same rfl
  cases i with
  | setSampleRate sr =>
    simp only [engineRule, setSampleRateRule, ifFinite_ratNum] at h
    split at h
    · cases h
    · split at h
      · cases h
      · rename_i hf; cases h
        exact .rate sr rfl (forVoices_getElem? hf hv hw)
  | tick =>
    rcases tickRule_cases params e with ⟨_, h2⟩ | ⟨_, h2, _⟩ | ⟨_, r, hr, h2⟩ <;>
        simp only [engineRule] at h <;> rw [h2] at h <;> cases h
    rcases forall₂_getElem? (stepVoices_ok hr) hv hw with ⟨_, a⟩ | ⟨a, o, b, c⟩
    · exact .same a
    · exact .tick rfl a o b c
  | endBlock => cases h; simp only [List.getElem?_map, hv] at hw; cases hw; exact .reap rfl rfl
  | noteOn a => exact startNote_effect rfl h hv hw
  | noteOff a =>
    cases h
    have := map_updPlaying_getElem? hv hw
    rcases updPlaying_cases (fun v => addressed true (addrIdent a) v.ident) voiceRelease v with ⟨p, _, b⟩ | ⟨_, b⟩ <;> rw [b] at this
    · exact .release _ rfl p this
    · exact .same this
  | midi st d1 d2 p =>
    simp only [engineRule, midiRule, ifFinite_ratNum] at h
    split_ifs at h with h0 h1 h2 h3
    · cases h; exact same rfl
    · exact startNote_effect ((midi_notes h0).1 h1).1 h hv hw
    · cases h
      have := map_updPlaying_getElem? hv hw
      rcases updPlaying_cases (fun v => addressed true (midiIdent st d1 p) v.ident) voiceRelease v with ⟨p, _, b⟩ | ⟨_, b⟩ <;> rw [b] at this
      · exact .release _ ((midi_notes h0).2.1 h1 h2).1 p this
      · exact .same this
    · cases h
      have := map_updPlaying_getElem? hv hw
      rcases updPlaying_cases (fun _ => true) (fun v => recalcPitch ratNum e.srInv { v with bend := bendSemis params d1 d2 }) v with ⟨p, _, b⟩ | ⟨_, b⟩ <;> rw [b] at this
      · exact .tune p (this ▸ ⟨rfl, rfl, rfl, rfl, .inr ⟨_, { v with bend := bendSemis params d1 d2 },
          rfl⟩⟩)
      · exact .same this
    · cases h; exact same rfl
  | paramSet p v =>
    simp only [engineRule, paramSetRule, ifFinite_ratNum] at h
    split at h
    · obtain ⟨vs, hf, rfl⟩ := pushParamsRule_ok h; exact push_effect hf hv hw
    · cases h; exact same rfl
  | paramWrite p v =>
    simp only [engineRule, paramWriteRule, ifFinite_ratNum] at h
    split at h <;> cases h <;> rw [hv] at hw <;> cases hw <;> exact .same rfl
  | pushParams => obtain ⟨vs, hf, rfl⟩ := pushParamsRule_ok h; exact push_effect hf hv hw
  | paramMod p a v =>
    simp only [engineRule, paramModRule] at h
    split at h
    · cases h; exact same rfl
    · rename_i f hf
      split at h <;> cases h
      rename_i hfv
      obtain ⟨id, _, hm⟩ := Option.bind_eq_some_iff.mp hf
      rcases onPlaying_cases (forVoices_getElem? hfv hv hw) with ⟨a, _, b⟩ | ⟨_, b⟩
      · exact .tune a (modVoice_tuned hm b)
      · exact .same b
  | noteExpr x a v =>
    simp only [engineRule, noteExprRule, ifFinite_ratNum] at h
    split at h
    · cases h; exact same rfl
    · cases h
      have := map_updPlaying_getElem? hv hw
      rename_i id hid
      rcases updPlaying_cases (fun v => addressed false (addrIdent a) v.ident) (exprVoice ratNum e.srInv id (toNum ratNum v)) _ with ⟨p, _, b⟩ | ⟨_, b⟩ <;> rw [b] at this
      · exact .tune p (this ▸ exprVoice_tuned)
      · exact .same this
  | _ => cases h; exact same rfl

/-- Every instruction, at one voice. -/
theorem exec_effect {i : Instr} {s t : State} (h : exec i s = .next t) {j : Nat} {v w}
    (hv : s.engine.voices[j]? = some v) (hw : t.engine.voices[j]? = some w) :
    Effect i s.engine v w := by
  have same : t.engine.voices = s.engine.voices → Effect i s.engine v w := by
    intro ht; rw [ht, hv] at hw; cases hw; exact .same rfl
  cases hp : i.portOf with
  | filter => exact same (by rw [exec_filter_engine hp h])
  | engine =>
    rcases exec_engine_cases hp h with ⟨h1, rfl⟩ | ⟨h1, e, h3, rfl⟩ | ⟨h1, h3, c, h4, rfl⟩ | ⟨h1, h3,
        e, h4, rfl⟩
    · exact same rfl
    · exact same rfl
    · exact same rfl
    · exact engineRule_effect h4 hv hw

/-- The envelope state of an activated voice (41_voice.md R153). -/
theorem voiceInit_env {c p sr ident v w} (h : voiceInit ratNum c p sr ident v = .ok w) :
    w.env = if p.ampAttack ≤ 0 then .hold else .attack := by
  obtain ⟨fu, rfl, _⟩ := recalcBoth_ok h
  exact activatedVoice_env c p ident v

/-- An activated voice plays and has its identity (41_voice.md R153). -/
theorem voiceInit_facts {c p sr ident v w} (h : voiceInit ratNum c p sr ident v = .ok w) : w.ident = ident ∧
    w.env ≠ .off ∧ isPlaying w = true := by
  have he := voiceInit_env h
  obtain ⟨fu, rfl, _⟩ := recalcBoth_ok h
  refine ⟨activatedVoice_ident _ _ _ _, ?_, ?_⟩
  · rw [he]; split <;> simp
  · unfold isPlaying; rw [he]; split <;> rfl

/-- The recomputation of the increments keeps the pan gains. -/
theorem recalcPitch_pan (sr u) : (recalcPitch ratNum sr u).slots.map Over.Slot.panL = u.slots.map Over.Slot.panL ∧
    (recalcPitch ratNum sr u).slots.map Over.Slot.panR = u.slots.map Over.Slot.panR := by
  constructor <;> apply List.ext_getElem? <;> intro i <;> rw [List.getElem?_map, List.getElem?_map,
      recalcPitch_slot] <;>
    cases u.slots[i]? <;> simp <;> split <;> rfl

/-- What changes no activation keeps UNISON, NORM and the pan gains (41_voice.md R155). -/
theorem Tuned.pan {v w} (h : Tuned v w) : w.unison = v.unison ∧ w.norm = v.norm ∧
    w.slots.map Over.Slot.panL = v.slots.map Over.Slot.panL ∧ w.slots.map Over.Slot.panR = v.slots.map Over.Slot.panR := by
  refine ⟨h.unison, h.norm, ?_⟩
  rcases h.slots with hs | ⟨sr, u, hs⟩ <;> rw [hs]
  · exact ⟨rfl, rfl⟩
  · exact recalcPitch_pan _ _

/-- An allocation faults on an unstable cutoff only (42_voice_pool.md R192). -/
theorem startNote_error_unstable {ident e code} (h : startNote ratNum params ident e = .error code) :
    code = .unstableCutoff ∧ ¬ CutoffStable e.p.cutoff e.srInv := by
  rcases startNote_cases params ident e with ⟨j, v, _, _, ⟨k, h1, h2⟩ | ⟨w, h1, h2⟩⟩ | ⟨_, ⟨_, h2⟩ |
      ⟨v, _, ⟨k, h1, h2⟩ | ⟨w, h1, h2⟩⟩⟩ <;>
    rw [h2] at h <;> cases h <;> exact voiceInit_error_unstable h1

/-- The voice an allocation takes (42_voice_pool.md R191, R195). -/
theorem startIndex_eq (e : Engine) :
    startIndex e = (freeVoice e.voices).getD (drawSteal e).1.val := by
  show (match freeVoice e.voices with | some j => j | none => _) = _
  cases freeVoice e.voices with
  | some j => rfl
  | none => unfold drawSteal; cases e.stealDraws <;> rfl

/-- An allocation changes no voice but the one it takes. -/
theorem startNote_voices {ident e e'} (h : startNote ratNum params ident e = .ok e') {j : Nat}
    (hj : j ≠ startIndex e) : e'.voices[j]? = e.voices[j]? := by
  rw [startIndex_eq] at hj
  have hd := drawSteal_frame e
  rcases startNote_cases params ident e with ⟨k, u, hf, hu, ⟨_, h1, h2⟩ | ⟨x, h1, h2⟩⟩ | ⟨hf, ⟨_,
      h2⟩ | ⟨u, hu, ⟨_, h1, h2⟩ | ⟨x, h1, h2⟩⟩⟩ <;>
    rw [h2] at h <;> cases h <;> rw [hf] at hj
  · exact List.getElem?_set_ne (Ne.symm hj)
  · rw [hd]
  · simp [List.getElem?_set_ne (Ne.symm (show j ≠ (drawSteal e).1.val from hj))]

/-- A push faults on an unstable cutoff of a playing voice only (42_voice_pool.md R197). -/
theorem pushParamsRule_error_unstable {e code} (h : pushParamsRule ratNum params e = .error code) :
    code = .unstableCutoff ∧
      ∃ v ∈ e.voices, Playing v ∧ ¬ CutoffStable (e.p.cutoff + v.cutoffMod) e.srInv := by
  simp only [pushParamsRule] at h
  split at h <;> cases h
  rename_i hf
  obtain ⟨v, hv, he⟩ := forVoices_error hf
  obtain ⟨hp, _, he⟩ := onPlaying_error he
  obtain ⟨a, b⟩ := pushVoice_error_unstable he
  exact ⟨a, v, hv, (isPlaying_iff v).mp hp, b⟩

/-- A MIDI message faults as a note-on with an unstable cutoff only (43_scheduler.md R231). -/
theorem midiRule_error_unstable {st d1 d2 port e code}
    (h : midiRule ratNum params st d1 d2 port e = .error code) : code = .unstableCutoff ∧
      (noteStarted (.midi st d1 d2 port)).isSome = true ∧ ¬ CutoffStable e.p.cutoff e.srInv := by
  simp only [midiRule, ifFinite_ratNum] at h
  split_ifs at h with h0 h1
  obtain ⟨a, b⟩ := startNote_error_unstable h
  exact ⟨a, by rw [((midi_notes h0).1 h1).1]; rfl, b⟩

/-- The rule of an instruction that starts a note. -/
theorem noteStarted_rule {i ident} (h : noteStarted i = some ident) : i.portOf = .engine ∧
    engineRule i = startNote ratNum params ident := by
  cases i <;> simp only [noteStarted] at h <;> try cases h
  · exact ⟨rfl, rfl⟩
  · rename_i st d1 d2 port
    split at h
    · rename_i hc
      cases h
      refine ⟨rfl, ?_⟩
      funext e
      have e1 : st.toNat - 144 = st.toNat % 16 := by omega
      simp only [engineRule, midiRule, midiIdent, ifFinite_ratNum]
      rw [if_neg (show ¬ (st.toNat < 0x80 ∨ 0x80 ≤ d1.toNat ∨ 0x80 ≤ d2.toNat) by omega),
          if_pos (show st.toNat / 16 = 0x9 ∧ 0 < d2.toNat by omega), e1]
    · cases h

/-- The rule of an instruction that releases notes. -/
theorem noteReleased_rule {i a} (h : noteReleased i = some a) : i.portOf = .engine ∧ ∀ e,
    engineRule i e = .ok (releaseNotes a e) := by
  have h' := h
  cases i <;> simp only [noteReleased] at h <;> try cases h
  · exact ⟨rfl, fun e => rfl⟩
  · rename_i st d1 d2 port
    refine ⟨rfl, fun e => ?_⟩
    by_cases h0 : st.toNat < 0x80 ∨ 0x80 ≤ d1.toNat ∨ 0x80 ≤ d2.toNat
    · exfalso; split_ifs at h <;> omega
    · by_cases h1 : st.toNat / 16 = 9 ∧ 0 < d2.toNat
      · rw [((midi_notes h0).1 h1).2] at h'; cases h'
      · by_cases h2 : st.toNat / 16 = 8 ∨ st.toNat / 16 = 9
        · rw [((midi_notes h0).2.1 h1 h2).1] at h'; cases h'
          simp only [engineRule, midiRule, ifFinite_ratNum]
          rw [if_neg h0, if_neg h1, if_pos h2]
        · rw [((midi_notes h0).2.2 (by tauto) (by tauto)).1] at h'; cases h'

/-- An instruction that starts a note, run. -/
theorem exec_noteStarted {i ident s t} (hn : noteStarted i = some ident) (h : exec i s = .next t) :
   (t.engine.voices = s.engine.voices) ∨ (s.engine.fault = none ∧ ∃ e,
       startNote ratNum params ident s.engine = .ok e ∧ t = { s with engine := e }) := by
  obtain ⟨hp, hr⟩ := noteStarted_rule hn
  rcases exec_engine_cases hp h with ⟨h1, rfl⟩ | ⟨h1, e, h3, rfl⟩ | ⟨h1, h3, c, h4, rfl⟩ | ⟨h1, h3, e,
      h4, rfl⟩
  · exact .inl rfl
  · exact .inl rfl
  · exact .inl rfl
  · rw [hr] at h4; exact .inr ⟨h1, e, h4, rfl⟩

end Sys2Proof.Machine
end

