-- ==== Sys2Proof/Laws/PerInstr.lean ====
section
/-! SUPPORT. One statement for every instruction as syntax: its encoded packet starts with the opcode of its
row of 30_encoding.md R91, with the reserved header bits 0, and has the row's number of operand words. -/

namespace Sys2Proof.Laws.PacketShape

open Sys2Proof Sys2Proof.Machine

/-- The packet of an instruction has the shape of its row (30_encoding.md R86, R87, R91, R94). -/
def Statement (i : Instr) : Prop :=
  field (headerOf i) 0 8 = opcodeByte i.opcode ∧ reservedZero i.opcode (headerOf i) = true ∧
    (encode i).length = 1 + operandWords i.opcode

theorem of_hdr {i : Instr} (sub : Byte) (h : headerOf i = hdrWord (opcodeByte i.opcode) sub)
    (hm : i.opcode ≠ .midi) : Statement i := by
  refine ⟨field_headerOf_opc i, ?_, by simp [encode, operandsOf_length, Nat.add_comm]⟩
  rw [h]
  cases ho : i.opcode <;> first | exact absurd ho hm | simp [reservedZero]

theorem setSampleRate (sr : Word) : Statement (.setSampleRate sr) :=
  of_hdr 0#8 rfl (by simp [Instr.opcode])

theorem tick : Statement .tick :=
  of_hdr 0#8 rfl (by decide)

theorem endBlock : Statement .endBlock :=
  of_hdr 0#8 rfl (by decide)

theorem noteOn (a : Addr) : Statement (.noteOn a) :=
  of_hdr 0#8 rfl (by simp [Instr.opcode])

theorem noteOff (a : Addr) : Statement (.noteOff a) :=
  of_hdr 0#8 rfl (by simp [Instr.opcode])

theorem midi (st d1 d2 : Byte) (port : BitVec 16) : Statement (.midi st d1 d2 port) := by
  have h := field_midiHdrWord st d1 d2 port
  exact ⟨field_headerOf_opc _, by simp [reservedZero, Instr.opcode, headerOf, h], rfl⟩

theorem paramSet (p : Byte) (v : Word) : Statement (.paramSet p v) :=
  of_hdr p rfl (by simp [Instr.opcode])

theorem paramWrite (p : Byte) (v : Word) : Statement (.paramWrite p v) :=
  of_hdr p rfl (by simp [Instr.opcode])

theorem pushParams : Statement .pushParams :=
  of_hdr 0#8 rfl (by decide)

theorem paramMod (p : Byte) (a : Addr) (v : Word) : Statement (.paramMod p a v) :=
  of_hdr p rfl (by simp [Instr.opcode])

theorem noteExpr (x : Byte) (a : Addr) (v : Word) : Statement (.noteExpr x a v) :=
  of_hdr x rfl (by simp [Instr.opcode])

theorem fltSetCoef (key res srInv : Word) : Statement (.fltSetCoef key res srInv) :=
  of_hdr 0#8 rfl (by simp [Instr.opcode])

theorem fltSetMode (m : Byte) : Statement (.fltSetMode m) :=
  of_hdr m rfl (by simp [Instr.opcode])

theorem fltProcess (l r : Word) : Statement (.fltProcess l r) :=
  of_hdr 0#8 rfl (by simp [Instr.opcode])

theorem fltReset : Statement .fltReset :=
  of_hdr 0#8 rfl (by decide)

end Sys2Proof.Laws.PacketShape
end

