-- ==== Sys2Proof/Laws/Sound.lean ====
section
/-! SUPPORT. The voice operations keep the ranges of Safety.lean,
    and a recomputation at a sample rate leaves
a voice ready to be stepped. -/

namespace Sys2Proof.Machine

/-- Coefficients of this parameter set. -/
theorem withCoefficients_params_sound {key res sr : Rat} {fu : FilterUnit} (h : 0 < sr) :
    (withCoefficients (tan (pi * cutoffHz ratNum params key * sr)) (damping params res) fu).Sound := by
  obtain ⟨c1, c2, r1, r2, r3, _, _⟩ := paramsValid_bounds params_valid
  have hk := damping_bounds r1 r2 r3 res
  have hg : 0 ≤ tan (pi * cutoffHz ratNum params key * sr) := by
    apply tan_nonneg
    have := (keyToHzClamped_bounds (key := key) c2).1
    have : 0 ≤ cutoffHz ratNum params key := le_trans c1.le this
    have := pi_pos
    positivity
  exact withCoefficients_sound hg hk.1 hk.2 fu

/-- The filter recomputation keeps the ranges. -/
theorem recalcFilter_sound {sr v w} (h : recalcFilter ratNum params sr v = .ok w) (hv : v.Sound) :
    w.Sound := by
  obtain ⟨fu, rfl, hm, _, _, h0, h1⟩ := recalcFilter_ok h
  obtain ⟨a1, a2, a3, a4, a5, a6, a7, a8, a9, a10, a11, a12⟩ := hv
  refine ⟨a1, a2, a3, a4, a5, a6, a7, a8, a9, a10, hm.trans a11, ?_⟩
  by_cases hs : 0 < sr
  · rw [h1 hs]; exact withCoefficients_params_sound hs
  · rw [h0 (not_lt.mp hs)]; exact a12

/-- The filter recomputation at a sample rate leaves coefficients. -/
theorem recalcFilter_ready {sr v w} (h : recalcFilter ratNum params sr v = .ok w) (hs : 0 < sr)
    (hv : ∀ (i : Nat) sl, i < v.unison → v.slots[i]? = some sl → 0 < sl.dphase) : w.Ready := by
  obtain ⟨fu, rfl, hm, _, _, h0, h1⟩ := recalcFilter_ok h
  exact ⟨by rw [h1 hs]; rfl, hv⟩

/-- The increment recomputation keeps the ranges. -/
theorem recalcPitch_sound {sr v} (hv : v.Sound) : (recalcPitch ratNum sr v).Sound := by
  obtain ⟨a1, a2, a3, a4, a5, a6, a7, a8, a9, a10, a11, a12⟩ := hv
  refine ⟨a1, a2, a3, by simp [a4], ?_, a6, a7, a8, a9, a10, a11, a12⟩
  intro sl hsl
  obtain ⟨i, hi⟩ := List.getElem?_of_mem hsl
  rw [recalcPitch_slot] at hi
  obtain ⟨sl0, h0, h1⟩ := Option.map_eq_some_iff.mp hi
  have := a5 sl0 (List.mem_of_getElem? h0)
  subst h1; split <;> exact this

/-- The increment recomputation at a sample rate leaves positive increments (41_voice.md R163). -/
theorem recalcPitch_ready {sr : Rat} {v : Voice} (hs : 0 < sr) : ∀ (i : Nat) sl,
    i < (recalcPitch ratNum sr v).unison → (recalcPitch ratNum sr v).slots[i]? = some sl → 0 < sl.dphase := by
  intro i sl hi hsl
  rw [recalcPitch_slot] at hsl
  obtain ⟨sl0, h0, h1⟩ := Option.map_eq_some_iff.mp hsl
  rw [if_pos (by exact hi)] at h1
  subst h1
  exact mul_pos (keyToHz_pos _) hs

/-- Both recomputations keep the ranges. -/
theorem recalcBoth_sound {sr v w} (h : recalcBoth ratNum params sr v = .ok w) (hv : v.Sound) : w.Sound :=
    recalcFilter_sound h (recalcPitch_sound hv)

/-- Both recomputations leave the voice ready. -/
theorem recalcBoth_ready {sr v w} (h : recalcBoth ratNum params sr v = .ok w) (hs : 0 < sr) : w.Ready :=
    recalcFilter_ready h hs (recalcPitch_ready hs)

/-- A push keeps the ranges. -/
theorem pushVoice_sound {p sr v w} (h : pushVoice ratNum params p sr v = .ok w) (hv : v.Sound) : w.Sound := by
  refine recalcBoth_sound h ?_
  obtain ⟨a1, a2, a3, a4, a5, a6, a7, a8, a9, a10, a11, a12⟩ := hv
  exact ⟨a1, a2, a3, a4, a5, a6, a7, a8, a9, a10, setMode_mode _ _, setMode_sound _ a12⟩

/-- This parameter set starts every copy at phase 0. -/
theorem params_initPhase (i u : Nat) : params.initPhase i u = 0 := rfl

/-- An activation keeps the ranges. -/
theorem activatedVoice_sound {p ident v} (hv : v.Sound) (hi : ident.InRange) :
    (activatedVoice ratNum params p ident v).Sound := by
  obtain ⟨a1, a2, a3, a4, a5, a6, a7, a8, a9, a10, a11, a12⟩ := hv
  have hsn := snap_bounds (x := p.unisonCount) (lo := 1) (hi := 7) (by norm_num)
  refine ⟨by simpa using hi, by rw [activatedVoice_unison]; omega,
      by rw [activatedVoice_unison]; unfold maxUnison; omega, by simpa using a4, ?_, ?_⟩
  · intro sl hsl
    have hs : (activatedVoice ratNum params p ident v).slots = ((v.slots.mapIdx fun i sl => if i < (snap ratNum p.unisonCount 1 7).toNat then { sl with panL := minNum 1 (1 - unisonPos (snap ratNum p.unisonCount 1 7).toNat i), panR := minNum 1 (1 + unisonPos (snap ratNum p.unisonCount 1 7).toNat i) } else { sl with panL := 0, panR := 0 }).mapIdx fun i sl => { sl with phase := if i < (snap ratNum p.unisonCount 1 7).toNat then params.initPhase i (snap ratNum p.unisonCount 1 7).toNat else 0, dphase := 0 }) := by
      simp only [activatedVoice, initEnvelope, initPhases, panNorm, copyBase]; split <;> simp
    rw [hs] at hsl
    obtain ⟨i, _, rfl⟩ := List.mem_mapIdx.mp hsl
    simp only [params_initPhase]
    split <;> simp
  · simp only [activatedVoice, initEnvelope, initPhases, panNorm, copyBase]
    split <;> refine ⟨?_, ?_, ?_, ?_, ?_, rfl, clearState_sound (Over.FilterUnit.Sound.congr (fu :=
        v.flt) a12 rfl rfl rfl rfl rfl rfl)⟩ <;> simp

/-- A modulation keeps the ranges. -/
theorem modVoice_sound {sr p x f v w} (hf : modVoice ratNum params sr p x = some f) (h : f v = .ok w)
    (hv : v.Sound) : w.Sound := by
  obtain ⟨a1, a2, a3, a4, a5, a6, a7, a8, a9, a10, a11, a12⟩ := hv
  cases p <;> simp only [modVoice] at hf <;> cases hf
  · cases h; exact recalcPitch_sound (v := { v with spreadMod := x }) ⟨a1, a2, a3, a4, a5, a6, a7, a8,
      a9, a10, a11, a12⟩
  · cases h; exact recalcPitch_sound (v := { v with detuneMod := x }) ⟨a1, a2, a3, a4, a5, a6, a7, a8,
      a9, a10, a11, a12⟩
  · cases h; exact ⟨a1, a2, a3, a4, a5, a6, a7, a8, a9, a10, a11, a12⟩
  · exact recalcFilter_sound (v := { v with cutoffMod := x }) h ⟨a1, a2, a3, a4, a5, a6, a7, a8, a9,
      a10, a11, a12⟩
  · exact recalcFilter_sound (v := { v with resMod := x }) h ⟨a1, a2, a3, a4, a5, a6, a7, a8, a9, a10,
      a11, a12⟩

/-- A modulation keeps a voice ready. -/
theorem modVoice_ready {sr p x f v w} (hf : modVoice ratNum params sr p x = some f) (h : f v = .ok w)
    (hs : 0 < sr) (hv : v.Ready) : w.Ready := by
  cases p <;> simp only [modVoice] at hf <;> cases hf
  · cases h; exact ⟨hv.1, recalcPitch_ready (v := { v with spreadMod := x }) hs⟩
  · cases h; exact ⟨hv.1, recalcPitch_ready (v := { v with detuneMod := x }) hs⟩
  · cases h; exact hv
  · exact recalcFilter_ready (v := { v with cutoffMod := x }) h hs hv.2
  · exact recalcFilter_ready (v := { v with resMod := x }) h hs hv.2

/-- An expression keeps the ranges. -/
theorem exprVoice_sound {sr p x v} (hv : v.Sound) : (exprVoice ratNum sr p x v).Sound := by
  obtain ⟨a1, a2, a3, a4, a5, a6, a7, a8, a9, a10, a11, a12⟩ := hv
  cases p
  · exact ⟨a1, a2, a3, a4, a5, a6, a7, a8, a9, a10, a11, a12⟩
  · exact recalcPitch_sound (v := { v with tuningExpr := x }) ⟨a1, a2, a3, a4, a5, a6, a7, a8, a9,
      a10, a11, a12⟩

/-- An expression keeps a voice ready. -/
theorem exprVoice_ready {sr p x v} (hs : 0 < sr) (hv : v.Ready) : (exprVoice ratNum sr p x v).Ready := by
  cases p
  · exact hv
  · exact ⟨hv.1, recalcPitch_ready (v := { v with tuningExpr := x }) hs⟩

/-- A release keeps the ranges. -/
theorem voiceRelease_sound {v} (hv : v.Sound) : (voiceRelease v).Sound := by
  obtain ⟨a1, a2, a3, a4, a5, a6, a7, a8, a9, a10, a11, a12⟩ := hv
  unfold voiceRelease
  split
  · split
    · exact ⟨a1, a2, a3, a4, a5, le_refl _, le_refl _, zero_le_one, a7, a8, a11, a12⟩
    · exact ⟨a1, a2, a3, a4, a5, le_refl _, a7, a8, a7, a8, a11, a12⟩
  · exact ⟨a1, a2, a3, a4, a5, a6, a7, a8, a9, a10, a11, a12⟩

/-- The envelope step keeps the ranges (41_voice.md R159 to R161). -/
theorem envStep_sound {sr v} (hs : 0 ≤ sr) (hv : v.Sound) : (envStep sr v).Sound := by
  obtain ⟨a1, a2, a3, a4, a5, a6, a7, a8, a9, a10, a11, a12⟩ := hv
  have ht : 0 ≤ v.t + sr := by linarith
  unfold envStep
  cases v.env <;> simp only []
  · exact ⟨a1, a2, a3, a4, a5, a6, a7, a8, a9, a10, a11, a12⟩
  · split
    · exact ⟨a1, a2, a3, a4, a5, ht, zero_le_one, le_refl _, zero_le_one, le_refl _, a11, a12⟩
    · rename_i h
      have h := not_le.mp h
      have hp : 0 < v.attackTime := by linarith
      have q1 : 0 ≤ (v.t + sr) / v.attackTime := by positivity
      have q2 : (v.t + sr) / v.attackTime ≤ 1 := by rw [div_le_one hp]; linarith
      exact ⟨a1, a2, a3, a4, a5, ht, q1, q2, q1, q2, a11, a12⟩
  · exact ⟨a1, a2, a3, a4, a5, a6, zero_le_one, le_refl _, zero_le_one, le_refl _, a11, a12⟩
  · split
    · exact ⟨a1, a2, a3, a4, a5, ht, le_refl _, zero_le_one, a9, a10, a11, a12⟩
    · rename_i h
      have h := not_le.mp h
      have hp : 0 < v.releaseTime := by linarith
      have q1 : 0 ≤ (v.t + sr) / v.releaseTime := by positivity
      have q2 : (v.t + sr) / v.releaseTime ≤ 1 := by rw [div_le_one hp]; linarith
      refine ⟨a1, a2, a3, a4, a5, ht, ?_, ?_, a9, a10, a11, a12⟩
      · exact mul_nonneg a9 (by linarith)
      · exact mul_le_one₀ a10 (by linarith) (by linarith)
  · exact ⟨a1, a2, a3, a4, a5, a6, a7, a8, a9, a10, a11, a12⟩

/-- A sample keeps the ranges. -/
theorem voiceStep_sound {sr v o} (hs : 0 ≤ sr) (hv : v.Sound) (h : voiceStep ratNum params sr v = .ok o) :
    o.1.Sound := by
  obtain ⟨sls, xs, l, rr, h1, h2, _⟩ := voiceStep_ok h
  obtain ⟨q1, _, q3⟩ := oscillate_ok h1
  obtain ⟨a1, a2, a3, a4, a5, a6, a7, a8, a9, a10, a11, a12⟩ := envStep_sound hs hv
  have hf : (envStep sr v).flt = v.flt := by rw [envStep_frame]
  have hsl : (envStep sr v).slots = v.slots := by rw [envStep_frame]
  have a5' : ∀ sl ∈ v.slots, 0 ≤ sl.phase ∧ sl.phase < 1 := hv.2.2.2.2.1
  rw [h2]
  refine ⟨a1, a2, a3, ?_, ?_, a6, a7, a8, a9, a10, ?_, ?_⟩
  · rw [← a4, hsl]; exact q1
  · intro sl hsl
    obtain ⟨i, hi⟩ := List.getElem?_of_mem hsl
    change sls[i]? = some sl at hi
    have := q3 i
    simp only at this
    rw [this] at hi
    obtain ⟨sl0, h0, h1⟩ := Option.map_eq_some_iff.mp hi
    subst h1
    split
    · exact wrap_bounds _
    · exact a5' sl0 (List.mem_of_getElem? h0)
  · rw [← a11, hf]; rfl
  · exact processStereo_sound _ _ hv.2.2.2.2.2.2.2.2.2.2.2

/-- A sample keeps a voice ready. -/
theorem voiceStep_ready {sr v o} (hv : v.Ready) (h : voiceStep ratNum params sr v = .ok o) : o.1.Ready := by
  obtain ⟨sls, xs, l, rr, h1, h2, _⟩ := voiceStep_ok h
  obtain ⟨q1, _, q3⟩ := oscillate_ok h1
  rw [h2]
  refine ⟨hv.1, ?_⟩
  intro i sl hi hsl
  change sls[i]? = some sl at hsl
  have hu : (envStep sr v).unison = v.unison := by rw [envStep_frame]
  change i < (envStep sr v).unison at hi
  rw [hu] at hi
  have := q3 i
  simp only at this
  rw [this] at hsl
  obtain ⟨sl0, h0, h1⟩ := Option.map_eq_some_iff.mp hsl
  rw [if_pos hi] at h1
  subst h1
  exact hv.2 i sl0 hi h0

/-- The range of a signed byte. -/
theorem toInt_bounds8 (b : BitVec 8) : -128 ≤ b.toInt ∧ b.toInt < 128 := by
  have := b.isLt; rw [BitVec.toInt_eq_toNat_cond]; split <;> omega

/-- The range of a signed 16-bit field. -/
theorem toInt_bounds16 (b : BitVec 16) : -32768 ≤ b.toInt ∧ b.toInt < 32768 := by
  have := b.isLt; rw [BitVec.toInt_eq_toNat_cond]; split <;> omega

/-- The range of a signed 32-bit field. -/
theorem toInt_bounds32 (b : BitVec 32) : -2147483648 ≤ b.toInt ∧ b.toInt < 2147483648 := by
  have := b.isLt; rw [BitVec.toInt_eq_toNat_cond]; split <;> omega

/-- The identity of a started note is in range (10_state.md R41). -/
theorem noteStarted_range {i ident} (hw : i.WellFormed) (h : noteStarted i = some ident) :
    ident.InRange := by
  cases i <;> simp only [noteStarted] at h <;> try cases h
  · rename_i a
    have hl : LegalAddr a := by
      by_contra hc
      have : operandError (.noteOn a) = none := hw
      simp [operandError, addrError_of_illegal hc] at this
    obtain ⟨l1, l2, l3, l4⟩ := hl
    have := toInt_bounds16 a.port; have := toInt_bounds8 a.key; have := toInt_bounds32 a.noteId
    unfold Identity.InRange; simp only; omega
  · rename_i st d1 d2 port
    split at h
    · cases h
      have := toInt_bounds16 port
      unfold Identity.InRange; simp only; omega
    · cases h

end Sys2Proof.Machine
end

