-- ==== Sys2Proof/Tests/Slice0.lean ====
section
/-! SUPPORT. Tests. Expected values are those of 95_test_vectors.md (the vector is named at each test) or
words written out from 30_encoding.md. The last part gives, for every statement with hypotheses, a state and
operands that meet them. -/

namespace Sys2Proof.Tests

set_option Elab.async false

open Sys2Proof.Machine

/-! ### Helpers -/

/-- The outcome is a next state with the property. -/
def ends (o : Host.Outcome State Fault Refusal) (f : State → Bool) : Bool :=
  match o with
  | .next t => f t
  | .fault _ => false
  | .refused _ => false

theorem next_of_ends {o : Host.Outcome State Fault Refusal} (f : State → Bool)
    (h : ends o f = true) : ∃ t, o = .next t ∧ f t = true := by
  cases o with
  | next t => exact ⟨t, rfl, h⟩
  | fault _ => cases h
  | refused _ => cases h

/-- An activated engine at 48 kHz with the given voices. -/
def live (vs : List Voice) : State :=
  { State.reset with
    engine := { Engine.reset with voices := vs, srInv := 1 / 48000, activated := true } }

/-- The engine at 22050 Hz with CUTOFF 200 and the given voices. -/
def unstable (vs : List Voice) : State :=
  { live vs with engine := { (live vs).engine with
      srInv := 1 / 22050, p := { ParamFile.reset with cutoff := 200 } } }

/-- The reference NUM, but for the elements of 1000 or more, which are not finite in it: enough to see the
check of a result. -/
def below1000 : NumOps Num := { ratNum with finite := some fun x => decide (x < 1000) }

/-- Exactly representable coefficients: g = 0, k = 1. -/
def unit1 : FilterUnit := { Over.FilterUnit.reset with k := 1, a1 := 1, coefValid := true }

/-- V-F2's record: G = K = 1, A1 = A2 = A3 = 1/3. -/
def unitThirds (m : FilterMode) : FilterUnit :=
  { Over.FilterUnit.reset with
    g := 1, k := 1, a1 := 1 / 3, a2 := 1 / 3, a3 := 1 / 3, coefValid := true, mode := m }

/-- An OFF voice that can be stepped. -/
def vOff : Voice :=
  { Over.Voice.reset with slots := List.replicate 7 ⟨0, 1 / 100, 0, 0⟩, flt := unit1 }

/-- A voice in HOLD with identity (0, 0, 69, 1). -/
def vHold : Voice :=
  { vOff with
    ident := ⟨0, 0, 69, 1⟩, env := .hold, level := 1, releaseFrom := 1, attackTime := 1 / 100
    releaseTime := 1 / 5, vcaBase := 1, cutoffBase := 69, resBase := 7 / 10 }

/-- The same voice in another envelope state at time t. -/
def vAt (env : Env) (t : Num) : Voice := { vHold with env := env, t := t }

/-- The same voice with another identity. -/
def vId (i : Identity) : Voice := { vHold with ident := i }

/-- The fault code of the engine port. -/
def ecode (s : State) : Option FaultCode := s.engine.fault.map FaultRecord.code

/-- The fault code of the filter port. -/
def fcode (s : State) : Option FaultCode := s.filter.fault.map FaultRecord.code

/-- Two numbers agree to 12 digits behind the point. -/
def near (x y : Num) : Bool := decide (x - y < 1 / 10 ^ 12) && decide (y - x < 1 / 10 ^ 12)

/-- A property of voice j. -/
def voiceIs (j : Nat) (f : Voice → Bool) (s : State) : Bool :=
  match s.engine.voices[j]? with
  | some v => f v
  | none => false

/-- A filter port with the given unit. -/
def filterWith (fu : FilterUnit) : State :=
  { State.reset with filter := { Over.FilterPort.reset with fu0 := fu } }

/-- The words as bytes in the buffer of a port whose turn it is. -/
def fed (p : Port) (ws : List Word) (s : State) : State :=
  { setPortBytes p (bytesOfWords ws) s with turn := p }

abbrev w0 : Word := 0#64
abbrev wOne : Word := 0x3FF0000000000000#64
abbrev wHalf : Word := 0x3FE0000000000000#64
abbrev wNan : Word := 0x7FF8000000000000#64
abbrev wInf : Word := 0x7FF0000000000000#64
abbrev w200 : Word := 0x4069000000000000#64
abbrev w48000 : Word := 0x40E7700000000000#64
abbrev w20 : Word := 0x403400068DB8BAC7#64
abbrev wInv48000 : Word := 0x3EF5D867C3ECE2A5#64
abbrev aAll : Addr := ⟨0xFFFFFFFF#32, 0xFFFF#16, 0xFF#8, 0xFF#8⟩
abbrev a69 : Addr := ⟨1#32, 0#16, 0#8, 69#8⟩

/-! ### Decoding: each row's word from 30_encoding.md R86 to R91 -/

theorem test_decode_setSampleRate : decodeWords .engine [0x0000000000000001#64, w48000] =
    .packet (.setSampleRate w48000) 2 := by decide

theorem test_decode_tick : decodeWords .engine [0x0000000000000002#64] = .packet .tick 1 := by decide

theorem test_decode_endBlock :
    decodeWords .engine [0x0000000000000003#64] = .packet .endBlock 1 := by decide

/-- The ADDR word of V-D2. -/
theorem test_decode_noteOn : decodeWords .engine [0x0000000000000010#64, 0x43010000FFFFFFFF#64] =
    .packet (.noteOn ⟨0xFFFFFFFF#32, 0#16, 1#8, 67#8⟩) 2 := by decide

theorem test_decode_noteOff : decodeWords .engine [0x0000000000000011#64, 0xFFFFFFFF00000002#64] =
    .packet (.noteOff ⟨2#32, 0xFFFF#16, 0xFF#8, 0xFF#8⟩) 2 := by decide

/-- V-D2. -/
theorem test_decode_midi : decodeWords .engine [0x0000006448930012#64] =
    .packet (.midi 0x93#8 72#8 100#8 0#16) 1 := by decide

theorem test_decode_paramSet : decodeWords .engine [0x0000000000000720#64, w200] =
    .packet (.paramSet 7#8 w200) 2 := by decide

theorem test_decode_paramWrite : decodeWords .engine [0x0000000000000421#64, w0] =
    .packet (.paramWrite 4#8 w0) 2 := by decide

theorem test_decode_pushParams :
    decodeWords .engine [0x0000000000000022#64] = .packet .pushParams 1 := by decide

theorem test_decode_paramMod :
    decodeWords .engine [0x0000000000000828#64, 0x3C01000200000009#64, wHalf] =
      .packet (.paramMod 8#8 ⟨9#32, 2#16, 1#8, 60#8⟩ wHalf) 3 := by decide

theorem test_decode_noteExpr :
    decodeWords .engine [0x0000000000000129#64, 0x3C00000000000002#64, wOne] =
      .packet (.noteExpr 1#8 ⟨2#32, 0#16, 0#8, 60#8⟩ wOne) 3 := by decide

/-- P6. -/
theorem test_decode_fltSetCoef :
    decodeWords .filter [0x0000000000000030#64, 0x4051400000000000#64, wHalf, wInv48000] =
      .packet (.fltSetCoef 0x4051400000000000#64 wHalf wInv48000) 4 := by decide

theorem test_decode_fltSetMode :
    decodeWords .filter [0x0000000000000231#64] = .packet (.fltSetMode 2#8) 1 := by decide

theorem test_decode_fltProcess : decodeWords .filter [0x0000000000000032#64, wOne, w0] =
    .packet (.fltProcess wOne w0) 3 := by decide

theorem test_decode_fltReset :
    decodeWords .filter [0x0000000000000033#64] = .packet .fltReset 1 := by decide

/-- V-D1: reserved opcodes, and an opcode of the other port, at the header. -/
theorem test_decode_bad_opcode :
    decodeWords .engine [0#64] = .reject .reservedOpcode 0#64 1 ∧
    decodeWords .engine [4#64] = .reject .reservedOpcode 4#64 1 ∧
    decodeWords .engine [0x30#64] = .reject .otherPort 0x30#64 1 ∧
    decodeWords .filter [2#64] = .reject .otherPort 2#64 1 := by decide

/-- V-D1: a reserved bit, a SUB where none is allowed, and a reserved bit before a NaN. -/
theorem test_decode_bad_header :
    decodeWords .engine [0x0000000000100002#64] = .reject .reservedField 0x100002#64 1 ∧
    decodeWords .engine [0x0000000000000102#64] = .reject .badSub 0x102#64 1 ∧
    decodeWords .engine [0x0000010000000720#64, wNan] = .reject .reservedField 0x10000000720#64 2 ∧
    decodeWords .engine [0x000000643C900112#64] = .reject .reservedField 0x643C900112#64 1 ∧
    decodeWords .filter [0x0000000000000631#64] = .reject .badSub 0x631#64 1 := by decide

/-- V-D1: addresses. -/
theorem test_decode_bad_addr :
    decodeWords .engine [0x10#64, 0x3CFF000000000001#64] = .reject .indefiniteAddr 0x10#64 2 ∧
    decodeWords .engine [0x10#64, 0x3C10000000000001#64] = .reject .illegalAddr 0x10#64 2 ∧
    decodeWords .engine [0x11#64, 0x3C00FFFE00000001#64] = .reject .illegalAddr 0x11#64 2 ∧
    decodeWords .engine [0x00FFFF643C900012#64] =
      .reject .negativeMidiPort 0x00FFFF643C900012#64 1 := by decide

/-- A packet whose operand words have not arrived holds; seven bytes hold no word (20_memory.md R75). -/
theorem test_decode_holds :
    decodeWords .engine [0x10#64] = .hold ∧ decode .engine (List.replicate 7 0#8) = .hold := by decide

/-- 00_scope.md R10: 1, -2, the largest value, the smallest normal and subnormal ones, and both zeros. -/
theorem test_toNum :
    [wOne, 0xC000000000000000#64, 0x7FEFFFFFFFFFFFFF#64, 0x0010000000000000#64, 1#64,
        0x8000000000000001#64, 0x8000000000000000#64, w0].map (toNum ratNum) =
      [1, -2, mkRat ((2 ^ 53 - 1) * 2 ^ 971) 1, mkRat 1 (2 ^ 1022), mkRat 1 (2 ^ 1074),
        mkRat (-1) (2 ^ 1074), 0, 0] := by
  decide +kernel

/-! ### WellFormed: one ill-formed term for each check -/

theorem test_wf_value : ¬ (Instr.setSampleRate wNan).WellFormed ∧ ¬ (Instr.paramSet 10#8 wInf).WellFormed ∧
    ¬ (Instr.paramWrite 0#8 wNan).WellFormed ∧ ¬ (Instr.paramMod 5#8 aAll wNan).WellFormed ∧
    ¬ (Instr.noteExpr 9#8 aAll wInf).WellFormed ∧ ¬ (Instr.fltSetCoef w0 wNan w0).WellFormed ∧
    ¬ (Instr.fltProcess w0 wInf).WellFormed := by
  unfold Instr.WellFormed; decide

theorem test_wf_port : ¬ (Instr.noteOff ⟨0#32, 0xFFFE#16, 0#8, 0#8⟩).WellFormed := by
  unfold Instr.WellFormed; decide

theorem test_wf_chan_low : ¬ (Instr.noteOff ⟨0#32, 0#16, 0xFE#8, 0#8⟩).WellFormed := by
  unfold Instr.WellFormed; decide

theorem test_wf_chan_high : ¬ (Instr.noteOff ⟨0#32, 0#16, 16#8, 0#8⟩).WellFormed := by
  unfold Instr.WellFormed; decide

theorem test_wf_key : ¬ (Instr.noteExpr 0#8 ⟨0#32, 0#16, 0#8, 0xFE#8⟩ w0).WellFormed := by
  unfold Instr.WellFormed; decide

theorem test_wf_definite : ¬ (Instr.noteOn aAll).WellFormed ∧ (Instr.noteOff aAll).WellFormed := by
  unfold Instr.WellFormed; decide

theorem test_wf_mode : ¬ (Instr.fltSetMode 6#8).WellFormed ∧ (Instr.fltSetMode 5#8).WellFormed := by
  unfold Instr.WellFormed; decide

theorem test_wf_midi_port :
    ¬ (Instr.midi 0x90#8 60#8 1#8 0xFFFF#16).WellFormed ∧ (Instr.midi 0x90#8 60#8 1#8 0#16).WellFormed := by
  unfold Instr.WellFormed; decide

/-! ### One step per test -/

/-- V-O2: key 69 with one copy at 48 kHz has DPHASE 11/1200, whatever ENV. -/
theorem test_setSampleRate_pitch :
    ends (exec (.setSampleRate w48000) (live [{ vHold with env := .off }]))
      (voiceIs 0 fun v => v.slots.map Over.Slot.dphase ==
        [11 / 1200, 1 / 100, 1 / 100, 1 / 100, 1 / 100, 1 / 100, 1 / 100]) = true := by
  decide +kernel

/-- V-S2: from reset, 20.0 faults for the OFF voices and 20.0001 succeeds. -/
theorem test_setSampleRate_unstable :
    ends (exec (.setSampleRate 0x4034000000000000#64) State.reset)
      (fun t => ecode t == some .unstableCutoff && !t.engine.activated) = true ∧
    ends (exec (.setSampleRate 0x403400068DB8BAC7#64) State.reset)
      (fun t => ecode t == none && t.engine.activated) = true := by
  decide +kernel

/-- V-E1, step 479: T reaches ATTACK_TIME and enters HOLD at 1; step 478 is at 479/480. -/
theorem test_tick_attack :
    ends (exec .tick (live [vAt .attack (479 / 48000)]))
      (voiceIs 0 fun v => v.env == .hold && v.level == 1) = true ∧
    ends (exec .tick (live [vAt .attack (478 / 48000)]))
      (voiceIs 0 fun v => v.env == .attack && v.level == 479 / 480) = true := by
  decide +kernel

/-- P1's first frame is (0, 0), for dpw(d, d) = 0, and the phase has moved by DPHASE (V-O1). -/
theorem test_tick_first_frame :
    ends (exec .tick (live [{ vHold with slots := List.replicate 7 ⟨0, 11 / 1200, 1, 1⟩ }]))
      (fun t => t.engine.audioOut == [[0, 0]] && t.engine.tickInBlock == 1 &&
        voiceIs 0 (fun v => v.slots.map Over.Slot.phase == [11 / 1200, 0, 0, 0, 0, 0, 0]) t) = true := by
  decide +kernel

/-- V-N3 step 5: no TICK in the block, one record for the stolen identity. -/
theorem test_endBlock_stolen :
    ends (exec .endBlock { live [vHold] with
        engine := { (live [vHold]).engine with terminated := [⟨0, 0, 10, 10⟩] } })
      (fun t => t.engine.noteEndFifo == [⟨⟨0, 0, 10, 10⟩, 0⟩] && t.engine.terminated == [] &&
        t.engine.polyCount == 1) = true := by
  decide +kernel

/-- P2: three TICKs, a NEWLY_OFF voice: record (0, 0, 60, 7, 2), voice OFF with its identity. -/
theorem test_endBlock_reap :
    ends (exec .endBlock { State.reset with engine := { Engine.reset with
        voices := [vOff, { vHold with ident := ⟨0, 0, 60, 7⟩, env := .newlyOff }], tickInBlock := 3 } })
      (fun t => t.engine.noteEndFifo == [⟨⟨0, 0, 60, 7⟩, 2⟩] && t.engine.polyCount == 0 &&
        t.engine.tickInBlock == 0 &&
        voiceIs 1 (fun v => v.env == .off && v.ident == ⟨0, 0, 60, 7⟩) t) = true := by
  decide +kernel

/-- V-A1. -/
theorem test_noteOn_activates :
    ends (exec (.noteOn a69) (live [vOff]))
      (voiceIs 0 fun v => v.ident == ⟨0, 0, 69, 1⟩ && v.env == .attack && v.level == 0 &&
        v.unison == 3 && near v.norm (57735026919 / 10 ^ 11) &&
        v.slots.map Over.Slot.panL == [1, 1, 0, 0, 0, 0, 0] &&
        v.slots.map Over.Slot.panR == [0, 1, 1, 0, 0, 0, 0] && v.flt.k == 6 / 10 &&
        near v.flt.g (28805896209 / 10 ^ 12)) = true := by
  decide +kernel

/-- V-N3 step 4: STEAL_CHOICE = 1 takes a NEWLY_OFF voice of a full pool. -/
theorem test_noteOn_steals :
    ends (exec (.noteOn ⟨200#32, 0#16, 0#8, 100#8⟩) { live [vHold, vId ⟨0, 0, 10, 10⟩] with
        engine := { (live [vHold, { vId ⟨0, 0, 10, 10⟩ with env := .newlyOff }]).engine with
          stealDraws := [1] } })
      (fun t => t.engine.terminated == [⟨0, 0, 10, 10⟩] && t.engine.stealDraws == [] &&
        voiceIs 0 (fun v => v == vHold) t &&
        voiceIs 1 (fun v => v.ident == ⟨0, 0, 100, 200⟩ && v.env == .attack) t) = true := by
  decide +kernel

/-- V-N2: NOTE_OFF by note-id releases both voices that carry it. -/
theorem test_noteOff_by_id :
    ends (exec (.noteOff ⟨1#32, 0xFFFF#16, 0xFF#8, 0xFF#8⟩)
        (live [vHold, vId ⟨0, 0, 69, 2⟩, vAt .attack 1]))
      (fun t => t.engine.voices.map Over.Voice.env == [.releasing, .hold, .releasing]) = true := by
  decide +kernel

/-- V-E4: a RELEASING voice is left alone; RELEASE_TIME 0 goes straight to NEWLY_OFF. -/
theorem test_noteOff_edges :
    ends (exec (.noteOff aAll) (live [vAt .releasing 1, { vHold with releaseTime := 0 }]))
      (fun t => voiceIs 0 (fun v => v == vAt .releasing 1) t &&
        voiceIs 1 (fun v => v.env == .newlyOff && v.level == 0) t) = true := by
  decide +kernel

/-- V-I1: note-on, and note-on with velocity 0 as note-off. -/
theorem test_midi_notes :
    ends (exec (.midi 0x90#8 60#8 100#8 0#16) (live [vOff]))
      (voiceIs 0 fun v => v.ident == ⟨0, 0, 60, -1⟩ && v.env == .attack) = true ∧
    ends (exec (.midi 0x90#8 60#8 0#8 0#16) (live [vId ⟨0, 0, 60, -1⟩]))
      (voiceIs 0 fun v => v.env == .releasing) = true := by
  decide +kernel

/-- V-I1: bend (0x00, 0x60) is +1 semitone, (0x7F, 0x7F) is 8191/4096, and 0xB0 is ignored. -/
theorem test_midi_bend :
    ends (exec (.midi 0xE3#8 0x00#8 0x60#8 0#16) (live [vHold])) (voiceIs 0 fun v => v.bend == 1) =
      true ∧
    ends (exec (.midi 0xE0#8 0x7F#8 0x7F#8 0#16) (live [vHold]))
      (voiceIs 0 fun v => v.bend == 8191 / 4096) = true ∧
    ends (exec (.midi 0xB0#8 7#8 100#8 0#16) (live [vHold])) (fun t => t == live [vHold]) = true := by
  decide +kernel

/-- P1: cutoff key 200 clamps to 20000 Hz, g 3.73205080757 (V-F1). -/
theorem test_paramSet_cutoff :
    ends (exec (.paramSet 7#8 w200) (live [vHold]))
      (fun t => t.engine.p.cutoff == 200 &&
        voiceIs 0 (fun v => v.cutoffBase == 200 &&
          decide (373205080756 / 10 ^ 11 < v.flt.g) && decide (v.flt.g < 373205080758 / 10 ^ 11)) t) =
      true := by
  decide +kernel

/-- V-D1: PARAM_SET #10 has no effect. -/
theorem test_paramSet_unlisted :
    ends (exec (.paramSet 10#8 0x4014000000000000#64) (live [vHold])) (fun t => t == live [vHold]) =
      true := by
  decide +kernel

/-- V-S3: PARAM_WRITE leaves the playing voice at 69. -/
theorem test_paramWrite :
    ends (exec (.paramWrite 7#8 0x4054400000000000#64) (live [vHold]))
      (fun t => t.engine.p == { ParamFile.reset with cutoff := 81 } &&
        voiceIs 0 (fun v => v == vHold) t) = true := by
  decide +kernel

/-- V-N4: the push reaches the playing voice and not the NEWLY_OFF one; UNISON stays (41_voice.md R155). -/
theorem test_pushParams :
    ends (exec .pushParams (live [vHold, vAt .newlyOff 0]))
      (fun t => voiceIs 0 (fun v => v.detuneBase == 0 && v.spreadBase == 1 / 10 && v.unison == 1) t &&
        voiceIs 1 (fun v => v == vAt .newlyOff 0) t) = true := by
  decide +kernel

/-- V-M1: a partial triple is the third tier and reaches every playing voice. -/
theorem test_paramMod_partial :
    ends (exec (.paramMod 6#8 ⟨0xFFFFFFFF#32, 0#16, 0xFF#8, 60#8⟩ wHalf)
        (live [vHold, vId ⟨1, 0, 62, -1⟩, vOff]))
      (fun t => t.engine.voices.map Over.Voice.vcaMod == [1 / 2, 1 / 2, 0]) = true := by
  decide +kernel

/-- P3: the cutoff modulation by note-id: 12 semitones on key 69, g 0.057659637212. -/
theorem test_paramMod_cutoff :
    ends (exec (.paramMod 7#8 ⟨2#32, 0xFFFF#16, 0xFF#8, 0xFF#8⟩ 0x4028000000000000#64)
        (live [vHold, vId ⟨0, 0, 64, 2⟩]))
      (fun t => voiceIs 0 (fun v => v == vHold) t &&
        voiceIs 1 (fun v => v.cutoffMod == 12 && near v.flt.g (57659637212 / 10 ^ 12) &&
          v.flt.k == 6 / 10) t) = true := by
  decide +kernel

/-- V-M1: NOTE_EXPR ignores the note-id and follows the triple. -/
theorem test_noteExpr_volume :
    ends (exec (.noteExpr 0#8 ⟨1#32, 0#16, 1#8, 60#8⟩ 0xBFF0000000000000#64)
        (live [vId ⟨0, 0, 60, 1⟩, vId ⟨0, 1, 60, 2⟩, vId ⟨1, 0, 62, -1⟩]))
      (fun t => t.engine.voices.map Over.Voice.volExpr == [0, -1, 0]) = true := by
  decide +kernel

/-- V-F1: key 69, resonance 1.5 clamped to 0.99, so k = 0.02. -/
theorem test_fltSetCoef :
    ends (exec (.fltSetCoef 0x4051400000000000#64 0x3FF8000000000000#64 wInv48000) State.reset)
      (fun t => t.filter.fu0.k == 2 / 100 && near t.filter.fu0.g (28805896209 / 10 ^ 12) &&
        near t.filter.fu0.a1 (998596076192 / 10 ^ 12) && t.filter.fu0.coefValid) = true := by
  decide +kernel

/-- V-F3: the current mode changes nothing, HIGHPASS clears the integrators. -/
theorem test_fltSetMode :
    let s := filterWith { unitThirds .lowpass with left := ⟨-(2 / 3), 2 / 3⟩ }
    ends (exec (.fltSetMode 0#8) s) (fun t => t == s) = true ∧
    ends (exec (.fltSetMode 2#8) s) (fun t => t.filter.fu0 == unitThirds .highpass) = true := by
  decide +kernel

/-- V-F2, second sample, from the integrators (2/3 - 0, 2/3) the first leaves: LOWPASS 2/3 and
HIGHPASS -2/3. -/
theorem test_fltProcess_second :
    let fu := fun m => { unitThirds m with left := ⟨2 / 3, 2 / 3⟩ }
    ends (exec (.fltProcess w0 w0) (filterWith (fu .lowpass)))
      (fun t => t.filter.filterOut == [(2 / 3, 0)] && t.filter.fu0.left == ⟨-(2 / 3), 2 / 3⟩) = true ∧
    ends (exec (.fltProcess w0 w0) (filterWith (fu .highpass)))
      (fun t => t.filter.filterOut == [(-(2 / 3), 0)]) = true := by
  decide +kernel

/-- V-F2, first sample, ALLPASS and PEAK, with the mirrored right lane. -/
theorem test_fltProcess_modes :
    ends (exec (.fltProcess wOne 0xBFF0000000000000#64) (filterWith (unitThirds .allpass)))
      (fun t => t.filter.filterOut == [(1 / 3, -(1 / 3))]) = true ∧
    ends (exec (.fltProcess wOne w0) (filterWith (unitThirds .peak)))
      (fun t => t.filter.filterOut == [(0, 0)]) = true := by
  decide +kernel

/-- V-F3: FLT_RESET keeps the mode and the coefficients. -/
theorem test_fltReset :
    ends (exec .fltReset (filterWith { unitThirds .notch with right := ⟨1, 2⟩ }))
      (fun t => t.filter.fu0 == unitThirds .notch) = true := by
  decide +kernel

/-- V-D3: TICK at reset faults; with the fault set, SET_SAMPLE_RATE does nothing. -/
theorem test_stuck_port :
    ends (step (State.reset.withFetchWord 64 2))
      (fun t => ecode t == some .notActivated && !t.engine.activated &&
        ends (exec (.setSampleRate w48000) t) (fun u => u == t)) = true := by
  decide +kernel

/-- V-E3, steps 9407, 9408 and 9598 of a bypassed release: amplitude 1, 191/192, 1/192. -/
theorem test_bypass_amplitude :
    [9408, 9409, 9599].map (fun n : Nat =>
        amplitude params { vAt .releasing ((n : Num) / 48000) with bypass := true }) =
      [1, 191 / 192, 1 / 192] := by
  decide +kernel

/-- A binary operation of a NUM with one element that is not finite, none, above the others, for the numbers
above 10^9 in size. It turns finite again as a divisor, in exp2 and in a clamp, as an infinity of IEEE 754. -/
def bounded (f : Num → Num → Num) (x y : Option Num) : Option Num :=
  match x, y with
  | some a, some b => if f a b < -10 ^ 9 ∨ 10 ^ 9 < f a b then none else some (f a b)
  | _, _ => none

/-- A comparison in that NUM. -/
def boundedBool (f : Num → Num → Bool) (x y : Option Num) : Bool :=
  match x, y with
  | some a, some b => f a b
  | some _, none => true
  | none, _ => false

/-- The code in the fault register of an instruction's port after it, in that NUM, with OUT_CHANNELS, on an
engine at 48 kHz whose voices are edits of the reset voice. -/
def boundedFault (outs : Nat) (edits : List (Over.Voice (Option Num) → Over.Voice (Option Num))) (i : Instr) :
    Option FaultCode :=
  let one := fun (f : Num → Num) (x : Option Num) => bounded (fun a _ => f a) x x
  letI : Add (Option Num) := ⟨bounded (· + ·)⟩
  letI : Sub (Option Num) := ⟨bounded (· - ·)⟩
  letI : Mul (Option Num) := ⟨bounded (· * ·)⟩
  letI : Div (Option Num) := ⟨fun x y => if x.isSome && y.isNone then some 0 else bounded (· / ·) x y⟩
  letI : Neg (Option Num) := ⟨one (- ·)⟩
  letI : LT (Option Num) := ⟨fun x y => boundedBool (fun a b => decide (a < b)) x y = true⟩
  letI : LE (Option Num) := ⟨fun x y => boundedBool (fun a b => decide (a ≤ b)) x y = true⟩
  letI : DecidableLT (Option Num) := fun _ _ => decEq _ true
  letI : DecidableLE (Option Num) := fun _ _ => decEq _ true
  letI : NatCast (Option Num) := ⟨fun n => some n⟩
  letI : IntCast (Option Num) := ⟨fun n => some n⟩
  letI : ∀ n, OfNat (Option Num) n := fun n => ⟨some n⟩
  let N : NumOps (Option Num) :=
    { floor := fun x => (x.getD 0).floor, sqrt := one sqrt, exp2 := fun x => if x.isNone then some 0 else one exp2 x
      tan := one tan, pi := some pi
      ofRat := fun x => one id (some x), finite := some Option.isSome, clampedHz := none }
  let c : Over.Params (Option Num) :=
    { cutoffHzMin := 10, cutoffHzMax := 20000, resMin := some (1 / 100), resMax := some (99 / 100)
      bypassFadeFrac := some (2 / 100), bendRangeSemis := 2, outChannels := outs, initPhase := fun _ _ => 0 }
  let s := Over.State.resetWith fun p => some (paramReset p)
  let s := { s with engine := { s.engine with
    activated := true, srInv := some (1 / 48000), voices := edits.map fun f => f Over.Voice.reset } }
  match execWith N c i s with
  | .next t => (portFault i.portOf t).map FaultRecord.code
  | .fault _ => none
  | .refused _ => none

abbrev wBig : Word := 0x4202A05F20000000#64

/-- R266 in another NUM: key 200 has a finite frequency, and key 2000 has none, though the clamp would bring
it to 20000 Hz; an srInv, a rate and the inverse of a rate that are not finite fault before R121 and R221
compare them; a parameter does, and is ignored under an id that R276 ignores. -/
theorem test_boundedNum :
    boundedFault 2 [] (.fltSetCoef w200 wHalf wInv48000) = none ∧
    boundedFault 2 [] (.fltSetCoef 0x409F400000000000#64 wHalf wInv48000) = some .arithDomain ∧
    boundedFault 2 [] (.fltSetCoef w200 wHalf wBig) = some .arithDomain ∧
    boundedFault 2 [id] (.setSampleRate w48000) = none ∧
    boundedFault 2 [id] (.setSampleRate wBig) = some .arithDomain ∧
    boundedFault 2 [id] (.setSampleRate 0x3DDB7CDFD9D7BDBB#64) = some .arithDomain ∧
    boundedFault 2 [] (.paramWrite 7#8 wBig) = some .arithDomain ∧
    boundedFault 2 [] (.paramWrite 10#8 wBig) = none ∧
    ends (exec (.fltSetCoef 0x409F400000000000#64 wHalf wInv48000) State.reset) (fun t => fcode t == none) =
      true := by
  decide +kernel

/-- R265 in that NUM, at a rate of 30 Hz: in one voice the pitch that is not finite comes before the cutoff
that is not stable, and of two voices the lower one decides. At a TICK, an output that is not finite faults
though a frame of three channels leaves it out (R223). -/
theorem test_boundedNum_order :
    let high : Over.Voice (Option Num) → Over.Voice (Option Num) := fun v => { v with bend := some 2000 }
    let wild : Over.Voice (Option Num) → Over.Voice (Option Num) := fun v => { v with cutoffBase := some 69 }
    let loud : Num → Over.Voice (Option Num) → Over.Voice (Option Num) := fun k v =>
      { v with
        env := .hold, slots := v.slots.map fun sl => { sl with dphase := some (1 / 100) }
        flt := { v.flt with mode := .highpass, k := some k, a1 := some 1, left := ⟨some 100, some 0⟩ } }
    boundedFault 2 [id] (.setSampleRate 0x403E000000000000#64) = none ∧
    boundedFault 2 [high ∘ wild] (.setSampleRate 0x403E000000000000#64) = some .arithDomain ∧
    boundedFault 2 [wild, high] (.setSampleRate 0x403E000000000000#64) = some .unstableCutoff ∧
    boundedFault 2 [high, wild] (.setSampleRate 0x403E000000000000#64) = some .arithDomain ∧
    boundedFault 3 [loud 1] .tick = none ∧ boundedFault 3 [loud (10 ^ 8)] .tick = some .arithDomain := by
  decide +kernel

/-- Other parameters (00_scope.md R6): one channel takes the mean (43_scheduler.md R223), and limits that
break R7 have no step. -/
theorem test_stepWith_parameters :
    ends (execWith ratNum { params with outChannels := 1 } .tick (live
        [{ vHold with volExpr := -1, flt := { unitThirds .lowpass with left := ⟨0, 3⟩ } }]))
      (fun t => t.engine.audioOut == [[1]]) = true ∧
    stepWith ratNum { params with cutoffHzMin := 0 } State.reset = .refused .badParameters :=
  ⟨by decide +kernel, rfl⟩

/-- V-O1: a wrapped and an unwrapped saw value. -/
theorem test_dpw : dpw ratNum (1 / 8) (1 / 4) = .ok (1 / 2) ∧ dpw ratNum (1 / 2) (1 / 100) = .ok (-(1 / 50)) ∧
    dpw ratNum (1 / 100) (1 / 50) = .ok (73 / 100) ∧ dpw ratNum 0 0 = .error .arithDomain := by
  decide +kernel

/-! ### Witnesses: states and operands that meet the hypotheses of each statement -/

/-- A 64-voice engine that meets the invariant and is activated. -/
def live64 : State := live (List.replicate 64 vOff)

theorem unit1_sound : unit1.Sound := by
  intro _
  refine ⟨?_, ?_, ?_, ?_, ?_, ?_, ?_, ?_⟩ <;> decide +kernel

theorem vOff_sound : vOff.Sound := by
  refine ⟨?_, by decide, by decide, rfl, fun sl h => ?_, ?_, ?_, ?_, ?_, ?_, rfl, unit1_sound⟩
  · unfold Identity.InRange; decide
  · rw [List.eq_of_mem_replicate h]; decide +kernel
  all_goals decide +kernel

theorem vOff_ready : vOff.Ready := by
  refine ⟨rfl, fun i sl _ h => ?_⟩
  rw [List.eq_of_mem_replicate (List.mem_of_getElem? h)]; decide +kernel

/-- An activated engine of 64 steppable OFF voices, whatever its bytes and the turn. -/
theorem live64_inv (p : Port) (ws : List Word) : (fed p ws live64).Inv := by
  have h : Over.Engine.Sound { live64.engine with inBytes := [] } := by
    refine ⟨rfl, fun v h => ?_, by decide +kernel, by decide +kernel, by decide, fun _ v h => ?_⟩
    · rw [List.eq_of_mem_replicate h]; exact vOff_sound
    · rw [List.eq_of_mem_replicate h]; exact vOff_ready
  have hf : live64.filter.fu0.Sound := by intro h; cases h
  refine ⟨?_, ?_, fun r hr => ?_, fun r hr => ?_⟩
  · cases p <;> exact h
  · cases p <;> exact hf
  · cases p <;> cases hr
  · cases p <;> cases hr

theorem test_witness_StepKeepsInvariant :
    ∃ s t, State.Inv s ∧ step s = .next t ∧ t.engine.tickInBlock = 1 := by
  obtain ⟨t, h, ht⟩ := next_of_ends (o := step (fed .engine [2#64] live64))
    (fun t => t.engine.tickInBlock == 1) (by decide +kernel)
  exact ⟨_, t, live64_inv _ _, h, by simpa using ht⟩

theorem test_witness_TickNeverFaultsInInvariant :
    ∃ s, State.Inv s ∧ s.engine.fault = none ∧ s.engine.activated = true :=
  ⟨_, live64_inv .engine [], rfl, rfl⟩

/-- The largest port, channel and key. -/
theorem test_witness_DecodeEncodeRoundTrip :
    (Instr.noteOn ⟨0x80000000#32, 0x7FFF#16, 15#8, 127#8⟩).WellFormed := by
  unfold Instr.WellFormed; decide

theorem test_witness_LegalPacketsHaveOneSpelling :
    decodeWords .engine [0xFF29#64, 0x7F0F7FFF80000000#64, wOne, 2#64] =
      .packet (.noteExpr 0xFF#8 ⟨0x80000000#32, 0x7FFF#16, 15#8, 127#8⟩ wOne) 3 := by decide

/-- A bad opcode on the port whose turn it is, on the other one while that port holds, and on the other one
while that port is stuck. -/
theorem test_witness_BadOpcodeFaultsAtHeader :
    let bad := fun (s : State) (p : Port) (h : Word) =>
      isFaulted p s = false ∧
        (p = s.turn ∨ isFaulted s.turn s = true ∨ decode s.turn (portBytes s.turn s) = .hold) ∧
        (wordsOfBytes (portBytes p s)).head? = some h
    bad (fed .engine [0x30#64] State.reset) .engine 0x30#64 ∧
    bad { fed .filter [0x2F#64] State.reset with turn := .engine } .filter 0x2F#64 ∧
    bad { fed .engine [0#64] (raiseFault .filter .illegalCommand 0#64 State.reset) with turn := .filter }
      .engine 0#64 ∧
    0x30 ∉ [0x01, 0x02, 0x03, 0x10, 0x11, 0x12, 0x20, 0x21, 0x22, 0x28, 0x29] ∧
    0 ∉ [0x01, 0x02, 0x03, 0x10, 0x11, 0x12, 0x20, 0x21, 0x22, 0x28, 0x29] ∧
    0x2F ∉ [0x30, 0x31, 0x32, 0x33] := by
  decide +kernel

/-- The lowest and the highest reserved bits of both header formats, the lowest and the highest bit of a
SUB that must be 0, and a rejected packet on each port that may be served. -/
theorem test_witness_ReservedBitsFault :
    let hdr := fun h : Word =>
      h.extractLsb' 0 8 = opcodeByte Instr.tick.opcode ∧ (h.extractLsb' 16 48 ≠ 0#48 ∨
        (h.extractLsb' 8 8 ≠ 0#8 ∧ Instr.tick.opcode ∉
          [.paramSet, .paramWrite, .paramMod, .noteExpr, .fltSetMode]))
    let midi := fun h : Word =>
      h.extractLsb' 0 8 = opcodeByte (Instr.midi 0#8 0#8 0#8 0#16).opcode ∧
        (h.extractLsb' 8 8 ≠ 0#8 ∨ h.extractLsb' 56 8 ≠ 0#8)
    hdr 0x10002#64 ∧ hdr 0x8000000000000002#64 ∧ hdr 0x102#64 ∧ hdr 0x8002#64 ∧
      midi 0x112#64 ∧ midi 0x8012#64 ∧ midi 0x0100000000000012#64 ∧ midi 0x8000000000000012#64 ∧
      (let s := fed .engine [0x102#64] State.reset
       Instr.tick.portOf = s.turn ∧ isFaulted Instr.tick.portOf s = false ∧
         wordsOfBytes (portBytes Instr.tick.portOf s) = [0x102#64]) ∧
      (let s := { fed .filter [0x133#64] State.reset with turn := .engine }
       isFaulted Instr.fltReset.portOf s = false ∧ decode s.turn (portBytes s.turn s) = .hold ∧
         wordsOfBytes (portBytes Instr.fltReset.portOf s) = [0x133#64] ∧
         (0x133#64 : Word).extractLsb' 8 8 ≠ 0#8) := by
  decide

/-- All bytes but the last, on a port that is not faulted. -/
theorem test_witness_IncompletePacketHolds :
    let i := Instr.noteOn a69
    let s := setPortBytes .engine ((encodeBytes i).take 15) State.reset
    15 < (encodeBytes i).length ∧ portBytes i.portOf s = (encodeBytes i).take 15 ∧
      portBytes (otherPort i.portOf) s = [] ∧ isFaulted i.portOf s = false ∧ i.WellFormed := by
  unfold Instr.WellFormed; decide

theorem test_witness_StepRunsDecodedPacket :
    (let s := fed .engine [2#64] State.reset
     isFaulted s.turn s = false ∧ decode s.turn (portBytes s.turn s) = .packet .tick 1) ∧
    (let s := { fed .filter [0x33#64] State.reset with turn := .engine }
     isFaulted (otherPort s.turn) s = false ∧ decode s.turn (portBytes s.turn s) = .hold ∧
       decode (otherPort s.turn) (portBytes (otherPort s.turn) s) = .packet .fltReset 1) ∧
    (let s := { fed .filter [0x33#64] (raiseFault .engine .notActivated 2#64 State.reset) with
        turn := .engine }
     isFaulted (otherPort s.turn) s = false ∧ isFaulted s.turn s = true ∧
       decode (otherPort s.turn) (portBytes (otherPort s.turn) s) = .packet .fltReset 1) := by
  decide

/-- A well-formed packet and one that is not, each followed by another byte. -/
theorem test_witness_StepRunsEveryEncodedPacket :
    (let s := setPortBytes .engine (encodeBytes (.noteOn a69) ++ [0#8]) State.reset
     s.turn = (Instr.noteOn a69).portOf ∧ isFaulted (Instr.noteOn a69).portOf s = false ∧
       portBytes (Instr.noteOn a69).portOf s = encodeBytes (.noteOn a69) ++ [0#8]) ∧
    (let s := setPortBytes .engine (encodeBytes (.noteOn aAll) ++ [0#8]) State.reset
     s.turn = (Instr.noteOn aAll).portOf ∧ isFaulted (Instr.noteOn aAll).portOf s = false ∧
       portBytes (Instr.noteOn aAll).portOf s = encodeBytes (.noteOn aAll) ++ [0#8]) := by
  decide

theorem test_witness_FaultsArePrecise :
    (∃ t, exec .tick State.reset = .next t ∧
      (t.engine.fault != State.reset.engine.fault) = true) ∧
    (∃ t, exec (.fltProcess w0 w0) State.reset = .next t ∧
      (t.filter.fault != State.reset.filter.fault) = true) :=
  ⟨next_of_ends _ (by decide), next_of_ends _ (by decide)⟩

theorem test_witness_FaultedPortIsStuck :
    isFaulted Instr.tick.portOf (raiseFault .engine .notActivated 2#64 State.reset) = true ∧
    isFaulted Instr.fltReset.portOf (raiseFault .filter .illegalCommand 2#64 State.reset) = true ∧
    (∃ t, step (raiseFault .engine .notActivated 2#64 State.reset) = .next t ∧ true = true) ∧
    (∃ (s : State) (r : NoteEnd) (rs : List NoteEnd), s.engine.noteEndFifo = r :: rs) :=
  ⟨rfl, rfl, next_of_ends (fun _ => true) (by decide +kernel),
    { State.reset with engine := { Engine.reset with noteEndFifo := [⟨⟨0, 0, 69, 1⟩, 2⟩] } }, _, _, rfl⟩

/-- Every code of the table, each from a port that has no fault. -/
theorem test_witness_FaultCodesComeFromTheirCommands :
    ends (exec (.noteOn aAll) State.reset) (fun t => ecode t == some .illegalCommand) = true ∧
    ends (exec .tick State.reset) (fun t => ecode t == some .notActivated) = true ∧
    ends (exec (.setSampleRate w0) State.reset) (fun t => ecode t == some .badSampleRate) = true ∧
    ends (exec (.paramSet 0#8 wNan) State.reset) (fun t => ecode t == some .nonFiniteValue) = true ∧
    ends (exec (.setSampleRate wOne) State.reset) (fun t => ecode t == some .unstableCutoff) = true ∧
    (ends (exec (.noteOn a69) (unstable [vOff])) (fun t => ecode t == some .unstableCutoff) = true ∧
      ends (exec (.midi 0x90#8 69#8 1#8 0#16) (unstable [vOff]))
        (fun t => ecode t == some .unstableCutoff) = true ∧
      ends (exec (.paramSet 7#8 w200) (unstable [vHold])) (fun t => ecode t == some .unstableCutoff) = true ∧
      ends (exec .pushParams (unstable [vHold])) (fun t => ecode t == some .unstableCutoff) = true ∧
      ends (exec (.paramMod 7#8 aAll w200) (unstable [vHold]))
        (fun t => ecode t == some .unstableCutoff) = true ∧
      ends (exec (.paramMod 8#8 aAll wOne) (unstable [{ vHold with cutoffBase := 200 }]))
        (fun t => ecode t == some .unstableCutoff) = true) ∧
    ends (exec .tick (live [{ vHold with slots := [⟨0, 0, 0, 0⟩] }]))
      (fun t => ecode t == some .arithDomain) = true ∧
    ends (exec (.fltSetMode 6#8) State.reset) (fun t => fcode t == some .illegalCommand) = true ∧
    ends (exec (.fltSetCoef w0 w0 w0) State.reset) (fun t => fcode t == some .badSampleRate) = true ∧
    ends (exec (.fltProcess w0 wInf) State.reset) (fun t => fcode t == some .nonFiniteValue) = true ∧
    ends (exec (.fltSetCoef w0 w0 wOne) State.reset) (fun t => fcode t == some .unstableCutoff) = true ∧
    ends (exec (.fltProcess w0 w0) State.reset)
      (fun t => fcode t == some .filterNotConfigured) = true := by
  decide +kernel

/-- Non-finite words, and a command of each port, in a NUM whose elements of 1000 or more are not finite,
that does not fault and one that does. -/
theorem test_witness_NonFiniteValueFaults :
    ¬ FiniteWord wNan ∧ ¬ FiniteWord wInf ∧ ¬ FiniteWord 0xFFFFFFFFFFFFFFFF#64 ∧
      State.reset.engine.fault = none ∧ State.reset.filter.fault = none ∧ LegalAddr aAll ∧
      ends (execWith below1000 params (.paramWrite 7#8 w200) State.reset) (fun t => ecode t == none) =
        true ∧
      ends (execWith below1000 params (.paramWrite 7#8 w48000) State.reset)
        (fun t => ecode t == some .arithDomain && t.engine.p == ParamFile.reset) = true ∧
      ends (execWith below1000 params (.fltProcess wOne wOne) (filterWith unit1)) (fun t => fcode t == none) =
        true ∧
      ends (execWith below1000 params (.fltProcess wOne w48000) (filterWith (unitThirds .lowpass)))
        (fun t => fcode t == some .arithDomain && t.filter.filterOut == []) = true := by
  unfold FiniteWord LegalAddr; decide +kernel

/-- In that NUM: a rate and an operand of FLT_SETCOEF that are not finite, a rate with an inverse that is not,
and, at a rate that is finite with its inverse, a voice with a pitch that is not after one that is recomputed. -/
theorem test_witness_NonFiniteValueFaults_order :
    let sr := toNum below1000 0x4059000000000000#64
    FiniteWord w48000 ∧ allFinite below1000 [toNum below1000 w48000] = false ∧
      allFinite below1000 [toNum below1000 w48000, 0, 0] = false ∧
      FiniteWord 0x3F40000000000000#64 ∧ 0 < toNum below1000 0x3F40000000000000#64 ∧
      allFinite below1000 [1 / toNum below1000 0x3F40000000000000#64] = false ∧
      FiniteWord 0x4059000000000000#64 ∧ 0 < sr ∧ allFinite below1000 [sr, 1 / sr] = true ∧
      (∃ u', recalcBoth below1000 params (1 / sr) vOff = .ok u') ∧
      allFinite below1000 (pitchArith below1000 (1 / sr) { vHold with bend := 100 }) = false := by
  have h : ∀ (r : Except FaultCode Voice), r.toOption.isSome = true → ∃ u', r = .ok u' := fun r h => by
    cases r with
    | error e => cases h
    | ok u => exact ⟨u, rfl⟩
  unfold FiniteWord
  refine ⟨by decide, by decide +kernel, by decide +kernel, by decide, by decide +kernel, by decide +kernel,
    by decide, by decide +kernel, by decide +kernel, h _ (by decide +kernel), by decide +kernel⟩

/-- Each field at its last illegal and its last legal value. -/
theorem test_witness_IllegalAddressFaults :
    State.reset.engine.fault = none ∧
    (∀ a ∈ [(⟨0#32, 0xFFFE#16, 0#8, 0#8⟩ : Addr), ⟨0#32, 0#16, 0xFE#8, 0#8⟩, ⟨0#32, 0#16, 16#8, 0#8⟩,
      ⟨0#32, 0#16, 0#8, 0xFE#8⟩], ¬ LegalAddr a) ∧
    (∀ a ∈ [(⟨0#32, 0xFFFF#16, 0#8, 0#8⟩ : Addr), ⟨0#32, 0#16, 0xFF#8, 0#8⟩, ⟨0#32, 0#16, 0#8, 0xFF#8⟩],
      LegalAddr a ∧ (a.port.toInt < 0 ∨ a.chan.toInt < 0 ∨ a.key.toInt < 0)) ∧
    (∀ a ∈ [(⟨0#32, 0#16, 0#8, 0#8⟩ : Addr), ⟨0x80000000#32, 0x7FFF#16, 15#8, 127#8⟩],
      LegalAddr a ∧ 0 ≤ a.port.toInt ∧ 0 ≤ a.chan.toInt ∧ 0 ≤ a.key.toInt) ∧
    (0xFFFF#16).toInt < 0 ∧ (0x8000#16).toInt < 0 ∧ 0 ≤ (0#16).toInt ∧ 0 ≤ (0x7FFF#16).toInt := by
  unfold LegalAddr; decide

theorem test_witness_PortsShareNoState :
    Instr.tick.portOf = .engine ∧ Instr.fltReset.portOf = .filter ∧
    (∃ u, exec .tick (live [vHold]) = .next u ∧ ends (exec .fltReset u) (fun _ => true) = true) ∧
    (∃ w, exec .fltReset (live [vHold]) = .next w ∧ ends (exec .tick w) (fun _ => true) = true) :=
  ⟨rfl, rfl, next_of_ends (fun u => ends (exec .fltReset u) fun _ => true) (by decide +kernel),
    next_of_ends (fun w => ends (exec .tick w) fun _ => true) (by decide +kernel)⟩

/-- The parameters of the model, a set at the edges of 00_scope.md R7, and a voice of each unison count. -/
theorem test_witness_CutoffIsClampedKeyFrequency :
    (∀ u ∈ List.range 8, ∃ v : Voice, v.unison = u) ∧
    paramsValid params = true ∧
    paramsValid { params with
      cutoffHzMax := params.cutoffHzMin, resMin := params.resMax, bypassFadeFrac := 1
      bendRangeSemis := 0 } = true :=
  ⟨fun u _ => ⟨{ vOff with unison := u }, rfl⟩, by decide +kernel⟩

theorem test_witness_CoefficientsStayStable :
    paramsValid params = true ∧
    (match setCoefficients ratNum params 69 1 (1 / 48000) Over.FilterUnit.reset with
      | .ok _ => true
      | .error _ => false) = true := by
  decide +kernel

theorem test_witness_FltSetCoefResult :
    State.reset.filter.fault = none ∧ FiniteWord w200 ∧ FiniteWord wHalf ∧ FiniteWord wInv48000 ∧
      0 < toNum ratNum wInv48000 ∧ cutoffFreq (toNum ratNum w200) * toNum ratNum wInv48000 < 1 / 2 := by
  unfold FiniteWord; decide +kernel

/-- A rate of exactly 0, and one that is too large. -/
theorem test_witness_FltSetCoefFaults :
    State.reset.filter.fault = none ∧ FiniteWord w0 ∧ FiniteWord wOne ∧ toNum ratNum w0 ≤ 0 ∧
      0 < toNum ratNum wOne ∧ 1 / 2 ≤ cutoffFreq (toNum ratNum w0) * toNum ratNum wOne := by
  unfold FiniteWord; decide +kernel

/-- The first and the last mode, and the first number above them. -/
theorem test_witness_FltSetModeResult :
    let ms := [FilterMode.lowpass, .bandpass, .highpass, .notch, .peak, .allpass]
    State.reset.filter.fault = none ∧ ms[(0#8).toNat]? = some .lowpass ∧
      ms[(5#8).toNat]? = some .allpass ∧ 5 < (6#8).toNat := by
  decide

theorem test_witness_FltProcessResult :
    (filterWith unit1).filter.fault = none ∧ FiniteWord wOne ∧
      (filterWith unit1).filter.fu0.coefValid = true ∧ State.reset.filter.fault = none ∧
      State.reset.filter.fu0.coefValid = false := by
  unfold FiniteWord; decide

theorem test_witness_FilterLanesAreIndependent :
    let s := filterWith unit1
    let s' := filterWith { unit1 with right := ⟨1, 2⟩ }
    let s'' := filterWith { unit1 with left := ⟨1, 2⟩ }
    s.NoFault ∧ s'.NoFault ∧ s''.NoFault ∧ FiniteWord wOne ∧ FiniteWord wHalf ∧
      s.filter.fu0.coefValid = true ∧
      (∃ t, exec (.fltProcess wOne wOne) s = .next t ∧ true = true) ∧
      (∃ t, exec (.fltProcess wOne wHalf) s' = .next t ∧ true = true) ∧
      (∃ t, exec (.fltProcess wHalf wOne) s'' = .next t ∧ true = true) ∧
      { s'.filter.fu0 with right := s.filter.fu0.right } = s.filter.fu0 ∧
      { s''.filter.fu0 with left := s.filter.fu0.left } = s.filter.fu0 :=
  ⟨⟨rfl, rfl⟩, ⟨rfl, rfl⟩, ⟨rfl, rfl⟩, by unfold FiniteWord; decide, by unfold FiniteWord; decide, rfl,
    next_of_ends (fun _ => true) (by decide +kernel), next_of_ends (fun _ => true) (by decide +kernel),
    next_of_ends (fun _ => true) (by decide +kernel), rfl, rfl⟩

theorem test_witness_FltResetResult : (filterWith unit1).filter.fault = none := rfl

theorem test_witness_SawIsNaiveAwayFromWrap :
    (0 : Num) < 1 / 100 ∧ 2 * (1 / 100 : Num) ≤ 2 / 100 ∧ (2 / 100 : Num) < 1 ∧ (0 : Num) ≤ 0 := by
  decide +kernel

/-- Each state, and the release at both ends of the fade. -/
theorem test_witness_BypassAmplitude :
    let v := fun e t => { vAt e t with bypass := true }
    let fs := (1 - params.bypassFadeFrac) * (1 / 5 : Num)
    paramsValid params = true ∧ (v .attack 0).bypass = true ∧ (v .attack 0).env = .attack ∧
      (v .hold 0).env = .hold ∧ (v .newlyOff 0).env = .newlyOff ∧
      (v .releasing fs).env = .releasing ∧ 0 < (v .releasing fs).releaseTime ∧
      (v .releasing 0).t < (1 - params.bypassFadeFrac) * (v .releasing 0).releaseTime ∧
      (1 - params.bypassFadeFrac) * (v .releasing fs).releaseTime ≤ (v .releasing fs).t ∧
      (v .releasing (1 / 5)).t ≤ (v .releasing (1 / 5)).releaseTime := by
  decide +kernel

theorem test_witness_ZeroGainVoiceIsSilent :
    let v := { vHold with volExpr := -1 }
    1 + v.vcaMod + v.volExpr = 0 ∧ v.flt.left = ⟨0, 0⟩ ∧ v.flt.right = ⟨0, 0⟩ ∧
      (match voiceStep ratNum params (1 / 48000) v with
        | .ok _ => true
        | .error _ => false) = true := by
  decide +kernel

/-- A voice that moves from ATTACK to HOLD. -/
theorem test_witness_EnvTransitionsAreTabled :
    (live [vAt .attack 1]).engine.voices[0]? = some (vAt .attack 1) ∧
    ∃ t, exec .tick (live [vAt .attack 1]) = .next t ∧
      voiceIs 0 (fun w => w.env == .hold) t = true :=
  ⟨rfl, next_of_ends _ (by decide +kernel)⟩

/-- Another command, and a note start that leaves the voice below and the voice above the one it takes. -/
theorem test_witness_UnisonIsFixedUntilActivation :
    noteStarted (.noteOn a69) ≠ none ∧ noteStarted .pushParams = none ∧
    startIndex (live [vHold, vOff, vOff]).engine = 1 ∧
    startIndex { (live [vHold, vHold, vHold]).engine with stealDraws := [1] } = 1 ∧
    (∃ t, exec (.noteOn a69) (live [vHold, vOff, vOff]) = .next t ∧
      (voiceIs 1 (fun w => w.unison == 3) t && voiceIs 0 (fun w => w.unison == 1) t &&
        voiceIs 2 (fun w => w.unison == 1) t) = true) ∧
    ∃ t, exec .pushParams (live [vHold]) = .next t ∧ voiceIs 0 (fun w => w.unison == 1) t = true :=
  ⟨by decide, rfl, rfl, rfl, next_of_ends _ (by decide +kernel), next_of_ends _ (by decide +kernel)⟩

/-- The stable cutoff of the reset parameters and of the test voices at 48 kHz. -/
theorem stable69 : CutoffStable 69 (1 / 48000) := fun _ => by decide +kernel

theorem stable69_zero : CutoffStable (69 + 0) (1 / 48000) := by rw [add_zero]; exact stable69

/-- Twice 20000 Hz is above 22050 Hz. -/
theorem unstable200 : ¬ CutoffStable 200 (1 / 22050) := by
  intro h
  have h1 := h (by norm_num)
  have h2 : ¬ cutoffFreq 200 * (1 / 22050) < 1 / 2 := by decide +kernel
  exact h2 h1

theorem unstable200_zero : ¬ CutoffStable (200 + 0) (1 / 22050) := by
  rw [add_zero]; exact unstable200

/-- A stable cutoff and an unstable one. -/
theorem test_witness_NoteOnTakesLowestFreeVoice :
    let s := live [vHold, vOff, vOff]
    s.engine.fault = none ∧ LegalAddr a69 ∧ 0 ≤ a69.port.toInt ∧ 0 ≤ a69.chan.toInt ∧
      0 ≤ a69.key.toInt ∧ s.engine.voices[1]? = some vOff ∧ vOff.env = .off ∧
      (∀ (i : Nat) (w : Voice), i < 1 → s.engine.voices[i]? = some w → w.env ≠ .off) ∧
      CutoffStable s.engine.p.cutoff s.engine.srInv ∧
      (unstable s.engine.voices).engine.fault = none ∧
      (unstable s.engine.voices).engine.voices = s.engine.voices ∧
      ¬ CutoffStable (unstable []).engine.p.cutoff (unstable []).engine.srInv := by
  refine ⟨rfl, by unfold LegalAddr; decide, by decide, by decide, by decide, rfl, rfl,
    fun i w hi h => ?_, stable69, rfl, rfl, unstable200⟩
  obtain rfl : i = 0 := by omega
  cases h; decide

/-- A draw of the last index, no draw, and an unstable cutoff. -/
theorem test_witness_NoteOnStealsTheDrawnVoice :
    let s := live (List.replicate 64 vHold)
    let s' := { s with engine := { s.engine with stealDraws := [63] } }
    s.engine.fault = none ∧ LegalAddr a69 ∧ 0 ≤ a69.port.toInt ∧ 0 ≤ a69.chan.toInt ∧
      0 ≤ a69.key.toInt ∧ s.engine.voices.length = 64 ∧ (∀ v ∈ s.engine.voices, v.env ≠ .off) ∧
      CutoffStable s.engine.p.cutoff s.engine.srInv ∧ s'.engine.stealDraws = [63] ∧
      s'.engine.voices = s.engine.voices ∧ s.engine.stealDraws = [] ∧
      (unstable s.engine.voices).engine.fault = none ∧
      (unstable s.engine.voices).engine.voices = s.engine.voices ∧
      ¬ CutoffStable (unstable []).engine.p.cutoff (unstable []).engine.srInv := by
  refine ⟨rfl, by unfold LegalAddr; decide, by decide, by decide, by decide, rfl, fun v h => ?_,
    stable69, rfl, rfl, rfl, rfl, rfl, unstable200⟩
  rw [List.eq_of_mem_replicate h]; decide

/-- A voice the address reaches and one it does not. -/
theorem test_witness_NoteOffReleasesMatchingVoices :
    let s := live [vHold, vId ⟨0, 0, 69, 2⟩]
    s.engine.fault = none ∧ LegalAddr a69 ∧ s.engine.voices[0]? = some vHold ∧
      (Playing vHold ∧ Reaches true (identOf a69) vHold) ∧
      s.engine.voices[1]? = some (vId ⟨0, 0, 69, 2⟩) ∧
      ¬ (Playing (vId ⟨0, 0, 69, 2⟩) ∧ Reaches true (identOf a69) (vId ⟨0, 0, 69, 2⟩)) := by
  unfold LegalAddr Playing Reaches; decide +kernel

theorem test_witness_PushReachesPlayingVoices :
    let s := live [vHold, vOff]
    s.engine.fault = none ∧ Playing vHold ∧ ¬ Playing vOff ∧
      ∀ v ∈ s.engine.voices, Playing v →
        CutoffStable (s.engine.p.cutoff + v.cutoffMod) s.engine.srInv := by
  refine ⟨rfl, .inr (.inl rfl), by unfold Playing; decide, fun v h _ => ?_⟩
  rcases List.mem_pair.mp h with rfl | rfl
  · exact stable69_zero
  · exact stable69_zero

theorem test_witness_UnstablePushFaults :
    let s := unstable [vHold]
    s.engine.fault = none ∧ vHold ∈ s.engine.voices ∧ Playing vHold ∧
      ¬ CutoffStable (s.engine.p.cutoff + vHold.cutoffMod) s.engine.srInv :=
  ⟨rfl, List.mem_cons_self, .inr (.inl rfl), unstable200_zero⟩

theorem test_witness_SecondPushChangesNothing :
    ∃ t, exec .pushParams (live [vHold]) = .next t ∧ (t.engine.fault == none) = true :=
  next_of_ends _ (by decide +kernel)

/-- A start that completes, a start that faults, and another command. -/
theorem test_witness_NoteEndsAreConserved :
    live64.engine.voices.length = 64 ∧ live64.engine.fault = none ∧
    (unstable live64.engine.voices).engine.voices.length = 64 ∧
    (unstable live64.engine.voices).engine.fault = none ∧
    (noteStarted (.noteOn a69)).isSome = true ∧ noteStarted .endBlock = none ∧
    (∃ t, exec (.noteOn a69) live64 = .next t ∧ (t.engine.fault == none) = true) ∧
    (∃ t, exec (.noteOn a69) (unstable live64.engine.voices) = .next t ∧
      (t.engine.fault != none) = true) ∧
    ∃ t, exec .endBlock live64 = .next t ∧ true = true :=
  ⟨rfl, rfl, rfl, rfl, rfl, rfl, next_of_ends _ (by decide +kernel), next_of_ends _ (by decide +kernel),
    next_of_ends (fun _ => true) (by decide +kernel)⟩

theorem test_witness_NoteOnNeverLacksAVoice :
    ∃ s t, State.Inv s ∧ s.engine.fault = none ∧ (Instr.noteOn a69).WellFormed ∧
      exec (.noteOn a69) s = .next t ∧ voiceIs 0 (fun v => v.env == .attack) t = true := by
  obtain ⟨t, h, ht⟩ := next_of_ends (o := exec (.noteOn a69) (fed .engine [] live64))
    (voiceIs 0 fun v => v.env == .attack) (by decide +kernel)
  exact ⟨_, t, live64_inv _ _, rfl, by unfold Instr.WellFormed; decide, h, ht⟩

/-- A rate above twice the highest cutoff, and V-S2's 20.0001 at reset. -/
theorem test_witness_SetSampleRateRecomputesEveryVoice :
    State.reset.engine.fault = none ∧ FiniteWord w48000 ∧ FiniteWord w20 ∧
      0 < toNum ratNum w48000 ∧ 2 * params.cutoffHzMax < toNum ratNum w48000 ∧ 0 < toNum ratNum w20 ∧
      ∀ v ∈ State.reset.engine.voices,
        cutoffFreq (v.cutoffBase + v.cutoffMod) * (1 / toNum ratNum w20) < 1 / 2 := by
  refine ⟨rfl, by unfold FiniteWord; decide, by unfold FiniteWord; decide, by decide +kernel,
    by decide +kernel, by decide +kernel, fun v h => ?_⟩
  rw [List.eq_of_mem_replicate h]; decide +kernel

/-- The rate 0, and the rate 20 that is exactly twice the lowest cutoff. -/
theorem test_witness_SetSampleRateFaults :
    State.reset.engine.fault = none ∧ FiniteWord w0 ∧ toNum ratNum w0 ≤ 0 ∧
      FiniteWord 0x4034000000000000#64 ∧ Over.Voice.reset ∈ State.reset.engine.voices ∧
      0 < toNum ratNum 0x4034000000000000#64 ∧
      toNum ratNum 0x4034000000000000#64 =
        2 * cutoffFreq (Over.Voice.reset.cutoffBase + Over.Voice.reset.cutoffMod) := by
  unfold FiniteWord; decide +kernel

theorem test_witness_TickStepsPlayingVoices :
    let s := live [vHold, vOff]
    s.engine.fault = none ∧ s.engine.activated = true ∧ Playing vHold ∧ ¬ Playing vOff ∧
      ∀ v ∈ s.engine.voices, Playing v → ∀ (i : Nat) (sl : Slot), i < v.unison →
        v.slots[i]? = some sl → 0 < sl.dphase := by
  refine ⟨rfl, rfl, .inr (.inl rfl), by unfold Playing; decide, fun v h _ i sl _ hs => ?_⟩
  have hs' : v.slots = List.replicate 7 ⟨0, 1 / 100, 0, 0⟩ := by
    rcases List.mem_pair.mp h with rfl | rfl <;> rfl
  rw [hs'] at hs
  rw [List.eq_of_mem_replicate (List.mem_of_getElem? hs)]; decide +kernel

/-- One voice for each clause, the two thresholds met exactly. -/
theorem test_witness_TickStepsTheEnvelope :
    let d : Num := 1 / 48000
    let s := live [vAt .attack (479 * d), vAt .attack (478 * d), vHold, vAt .releasing (9599 * d),
      vAt .releasing (9598 * d)]
    s.engine.fault = none ∧
    (vAt .attack (479 * d)).attackTime = (vAt .attack (479 * d)).t + s.engine.srInv ∧
    (vAt .attack (478 * d)).t + s.engine.srInv < (vAt .attack (478 * d)).attackTime ∧
    (vAt .releasing (9599 * d)).releaseTime = (vAt .releasing (9599 * d)).t + s.engine.srInv ∧
    (vAt .releasing (9598 * d)).t + s.engine.srInv < (vAt .releasing (9598 * d)).releaseTime ∧
    ∃ t, exec .tick s = .next t ∧
      (t.engine.fault == none && t.engine.voices.length == s.engine.voices.length) = true :=
  ⟨rfl, by decide +kernel, by decide +kernel, by decide +kernel, by decide +kernel,
    next_of_ends _ (by decide +kernel)⟩

theorem test_witness_TickEmitsTheMixedFrame :
    (live [vHold, vOff]).engine.fault = none ∧
    ∃ t, exec .tick (live [vHold, vOff]) = .next t ∧ (t.engine.fault == none) = true :=
  ⟨rfl, next_of_ends _ (by decide +kernel)⟩

/-- Two channels, one, and none. -/
theorem test_witness_FrameSumsPlayingVoices :
    params.outChannels = 2 ∧
    ([2, 1, 0].all fun n =>
      match stepVoices ratNum { params with outChannels := n } (1 / 48000) [vHold, vOff]
          (zeroFrame { params with outChannels := n }) with
      | .ok _ => true
      | .error _ => false) = true := by
  decide +kernel

/-- An increment of exactly 0. -/
theorem test_witness_TickFaults :
    State.reset.engine.fault = none ∧ State.reset.engine.activated = false ∧
    (let v := { vHold with slots := [⟨0, 0, 0, 0⟩] }
     (live [v]).engine.fault = none ∧ (live [v]).engine.activated = true ∧
       v ∈ (live [v]).engine.voices ∧ Playing v ∧ 0 < v.unison ∧
       v.slots[0]? = some ⟨0, 0, 0, 0⟩ ∧ (0 : Num) ≤ 0) :=
  ⟨rfl, rfl, rfl, rfl, List.mem_cons_self, .inr (.inl rfl), by decide, rfl, le_refl _⟩

theorem test_witness_EndBlockReportsAndReaps :
    let s := live [vHold, vAt .newlyOff 0]
    let s' := { s with engine := { s.engine with tickInBlock := 1 } }
    s.engine.fault = none ∧ s.engine.tickInBlock = 0 ∧ s'.engine.fault = none ∧
      s'.engine.tickInBlock ≠ 0 ∧ s.engine.voices[1]? = some (vAt .newlyOff 0) ∧
      (vAt .newlyOff 0).env = .newlyOff := by
  decide +kernel

theorem test_witness_PolyCountIsWrittenByEndBlockOnly :
    Instr.tick ≠ .endBlock ∧ (live [vHold]).engine.fault = none ∧
    (∃ t, exec .tick (live [vHold]) = .next t ∧ (t.engine.polyCount == 0) = true) ∧
    ∃ t, exec .endBlock (live [vHold]) = .next t ∧ (t.engine.polyCount == 1) = true :=
  ⟨by decide, rfl, next_of_ends _ (by decide +kernel), next_of_ends _ (by decide +kernel)⟩

theorem test_witness_TickInBlockCountsTicks :
    (∃ t, exec .tick (live [vHold]) = .next t ∧ (t.engine.fault == none) = true) ∧
    (∃ t, exec .tick State.reset = .next t ∧ (t.engine.fault != none) = true) ∧
    (∃ t, exec .endBlock (live [vHold]) = .next t ∧ (t.engine.fault == none) = true) ∧
    ∃ t, exec .pushParams (live [vHold]) = .next t ∧ (t.engine.fault == none) = true :=
  ⟨next_of_ends _ (by decide +kernel), next_of_ends _ (by decide +kernel),
    next_of_ends _ (by decide +kernel), next_of_ends _ (by decide +kernel)⟩

/-- The first id that no row lists, and a normal and a subnormal word. -/
theorem test_witness_ParamWriteResult :
    State.reset.engine.fault = none ∧ FiniteWord wHalf ∧ FiniteWord 0x8000000000000001#64 ∧
      10 ≤ (10#8).toNat := by
  unfold FiniteWord; decide

/-- A push that completes, one that faults, and an unlisted id. -/
theorem test_witness_ParamSetIsWriteThenPush :
    FiniteWord w200 ∧ 10 ≤ (10#8).toNat ∧ (7#8).toNat ≤ 9 ∧
    (∃ u, exec (.paramWrite 7#8 w200) (live [vHold]) = .next u ∧
      ends (exec .pushParams u) (fun t => t.engine.fault == none) = true) ∧
    ∃ u, exec (.paramWrite 7#8 w200) (unstable [vHold]) = .next u ∧
      ends (exec .pushParams u) (fun t => t.engine.fault != none) = true :=
  ⟨by unfold FiniteWord; decide, by decide, by decide,
    next_of_ends (fun u => ends (exec .pushParams u) fun t => t.engine.fault == none)
      (by decide +kernel),
    next_of_ends (fun u => ends (exec .pushParams u) fun t => t.engine.fault != none)
      (by decide +kernel)⟩

theorem test_witness_ParamSetCompletes :
    let s := live [vHold, vOff]
    s.engine.fault = none ∧ FiniteWord w200 ∧ paramIdOf 7#8 = some .cutoff ∧ Playing vHold ∧
      ¬ Playing vOff ∧ ∀ v ∈ s.engine.voices, Playing v → CutoffStable
        (getParam (setParam s.engine.p .cutoff (toNum ratNum w200)) .cutoff + v.cutoffMod) s.engine.srInv := by
  have h : CutoffStable (toNum ratNum w200 + 0) (1 / 48000) := fun _ => by decide +kernel
  refine ⟨rfl, by unfold FiniteWord; decide, rfl, .inr (.inl rfl), by unfold Playing; decide,
    fun v hv _ => ?_⟩
  rcases List.mem_pair.mp hv with rfl | rfl
  · exact h
  · exact h

/-- Both ends of the note-on statuses, a note-on that faults, and the two spellings of a note-off. -/
theorem test_witness_MidiNotesAreNotes :
    (live [vOff]).engine.fault = none ∧ 0 ≤ (0#16).toInt ∧ (127#8).toNat < 0x80 ∧
    (⟨0xFFFFFFFF#32, 0#16, 0#8, 127#8⟩ : Addr).chan.toNat = (0x90#8).toNat - 0x90 ∧
    (⟨0xFFFFFFFF#32, 0#16, 15#8, 127#8⟩ : Addr).chan.toNat = (0x9F#8).toNat - 0x90 ∧
    (⟨0xFFFFFFFF#32, 0#16, 15#8, 127#8⟩ : Addr).chan.toNat = (0x8F#8).toNat - 0x80 ∧
    (∃ t, exec (.noteOn ⟨0xFFFFFFFF#32, 0#16, 15#8, 127#8⟩) (live [vOff]) = .next t ∧
      (t.engine.fault == none) = true) ∧
    ∃ t, exec (.noteOn ⟨0xFFFFFFFF#32, 0#16, 0#8, 127#8⟩) (unstable [vOff]) = .next t ∧
      (t.engine.fault != none) = true :=
  ⟨rfl, by decide, by decide, by decide, by decide, by decide, next_of_ends _ (by decide +kernel),
    next_of_ends _ (by decide +kernel)⟩

theorem test_witness_MidiBendReachesPlayingVoices :
    (live [vHold, vOff]).engine.fault = none ∧ 0 ≤ (0#16).toInt ∧ 0xE0 ≤ (0xE0#8).toNat ∧
      (0xEF#8).toNat < 0xF0 ∧ (127#8).toNat < 0x80 ∧ Playing vHold ∧ ¬ Playing vOff := by
  unfold Playing; decide

/-- A slot with a stable filter for each of the five parameters, an id without a slot, and an unstable
filter for the two that can have one. -/
theorem test_witness_ParamModWritesTheSlot :
    let s := live [vHold, vOff]
    s.engine.fault = none ∧ LegalAddr aAll ∧ FiniteWord wOne ∧
      (0#8).toNat ∉ [1, 2, 6, 7, 8] ∧ (9#8).toNat ∉ [1, 2, 6, 7, 8] ∧
      ((1#8).toNat = 1 ∧ (2#8).toNat = 2 ∧ (6#8).toNat = 6 ∧ (7#8).toNat = 7 ∧ (8#8).toNat = 8) ∧
      (Playing vHold ∧ Reaches true (identOf aAll) vHold) ∧
      ¬ (Playing vOff ∧ Reaches true (identOf aAll) vOff) ∧
      (∀ v ∈ s.engine.voices, Playing v → Reaches true (identOf aAll) v →
        CutoffStable (v.cutoffBase + toNum ratNum wOne) s.engine.srInv) ∧
      (∀ v ∈ s.engine.voices, Playing v → Reaches true (identOf aAll) v →
        CutoffStable (v.cutoffBase + v.cutoffMod) s.engine.srInv) ∧
      (let v := { vHold with cutoffBase := 0 }
       (unstable [v]).engine.fault = none ∧ v ∈ (unstable [v]).engine.voices ∧ Playing v ∧
         Reaches true (identOf aAll) v ∧ FiniteWord w200 ∧
         ¬ CutoffStable (v.cutoffBase + toNum ratNum w200) (unstable [v]).engine.srInv) ∧
      (let v := { vHold with cutoffBase := 200 }
       v ∈ (unstable [v]).engine.voices ∧ Playing v ∧ Reaches true (identOf aAll) v ∧
         ¬ CutoffStable (v.cutoffBase + v.cutoffMod) (unstable [v]).engine.srInv) := by
  have h : CutoffStable (69 + toNum ratNum wOne) (1 / 48000) := fun _ => by decide +kernel
  refine ⟨rfl, by unfold LegalAddr; decide, by unfold FiniteWord; decide, by decide, by decide,
    by decide, by unfold Playing Reaches; decide, by unfold Playing Reaches; decide, fun v hv hp _ => ?_,
    fun v hv hp _ => ?_,
    ⟨rfl, List.mem_cons_self, .inr (.inl rfl), by unfold Reaches; decide, by unfold FiniteWord; decide,
      fun h => absurd (h (by decide +kernel)) (by decide +kernel)⟩,
    ⟨List.mem_cons_self, .inr (.inl rfl), by unfold Reaches; decide, unstable200_zero⟩⟩
  · rcases List.mem_pair.mp hv with rfl | rfl
    · exact h
    · exact absurd hp (by unfold Playing; decide)
  · rcases List.mem_pair.mp hv with rfl | rfl
    · exact stable69_zero
    · exact absurd hp (by unfold Playing; decide)

theorem test_witness_NoteExprWritesTheSlot :
    (live [vHold, vOff]).engine.fault = none ∧ LegalAddr a69 ∧ FiniteWord wOne ∧
      2 ≤ (2#8).toNat ∧ (0#8).toNat = 0 ∧ (1#8).toNat = 1 ∧
      (Playing vHold ∧ Reaches false (identOf a69) vHold) ∧
      ¬ (Playing vOff ∧ Reaches false (identOf a69) vOff) := by
  unfold LegalAddr FiniteWord Playing Reaches; decide

theorem test_witness_DormantVoicesAreUntouched :
    noteStarted .tick = none ∧ (∀ w, Instr.tick ≠ .setSampleRate w) ∧ Instr.tick ≠ .endBlock ∧
    (live [vHold, vOff]).engine.voices[1]? = some vOff ∧ ¬ Playing vOff ∧
    ∃ t, exec .tick (live [vHold, vOff]) = .next t ∧ (t.engine.tickInBlock == 1) = true :=
  ⟨rfl, by simp, by decide, rfl, by unfold Playing; decide, next_of_ends _ (by decide +kernel)⟩

/-- One instruction for each case. -/
theorem test_witness_IgnoredInputsChangeNothing :
    State.reset.engine.fault = none ∧
    (Instr.paramSet 10#8 wOne).WellFormed ∧ (Instr.paramWrite 255#8 wOne).WellFormed ∧
    (Instr.paramMod 5#8 aAll wOne).WellFormed ∧ (Instr.noteExpr 2#8 aAll wOne).WellFormed ∧
    (∀ i ∈ [Instr.midi 0x7F#8 0#8 0#8 0#16, .midi 0x90#8 0x80#8 1#8 0#16, .midi 0x90#8 1#8 0x80#8 0#16,
      .midi 0xA0#8 0#8 0#8 0#16, .midi 0xDF#8 0#8 0#8 0#16, .midi 0xF0#8 0#8 0#8 0#16,
      .midi 0xE0#8 0#8 0#8 0#16, .noteOff a69, .paramMod 7#8 a69 wOne, .noteExpr 1#8 a69 wOne],
      i.WellFormed) ∧
    (noteReleased (.noteOff a69)).isSome = true ∧ ¬ Playing Over.Voice.reset ∧
    ∀ v ∈ State.reset.engine.voices, ¬ Playing v := by
  have h : ¬ Playing Over.Voice.reset := by unfold Playing; decide
  refine ⟨rfl, ?_, ?_, ?_, ?_, ?_, rfl, h, fun v hv => ?_⟩
  · unfold Instr.WellFormed; decide
  · unfold Instr.WellFormed; decide
  · unfold Instr.WellFormed; decide
  · unfold Instr.WellFormed; decide
  · unfold Instr.WellFormed; decide
  · rw [List.eq_of_mem_replicate hv]; exact h

end Sys2Proof.Tests
end

section
/-! The filter port's commands (40_filter_unit.md R130 to R133). -/

namespace Sys2Proof.Machine

/-- FLT_RESET runs `clearState()` on the port's filter unit (40_filter_unit.md R126, R133): it has no
operand and its rule no error, so only a faulted port stops it. -/
theorem exec_fltReset {s : State} (hs : s.filter.fault = none) :
    exec .fltReset s = .next { s with filter := { s.filter with fu0 := clearState s.filter.fu0 } } := by
  have hrule : fltResetRule s.filter = .ok { s.filter with fu0 := clearState s.filter.fu0 } := rfl
  rw [exec_filter rfl]
  exact runFilter_ok hs rfl hrule

/-- Settles O28: the unit that `clearState` answers is the old one with both lanes' integrators at 0. -/
theorem fltResetResult : Obligations.FltResetResult := by
  unfold Obligations.FltResetResult
  intro s hs
  rw [exec_fltReset hs, clearState]

end Sys2Proof.Machine
end

section
/-! The voice of a TICK (41_voice.md R159 to R161; 43_scheduler.md R222). -/

namespace Sys2Proof.Machine

/-! ### The envelope step, one equation per case -/

theorem envStep_attack_of_le {sr : Num} {v : Voice} (he : v.env = .attack)
    (ht : v.attackTime ≤ v.t + sr) :
    envStep sr v = { v with t := v.t + sr, env := .hold, level := 1, releaseFrom := 1 } := by
  simp [envStep, he, ht]

theorem envStep_attack_of_lt {sr : Num} {v : Voice} (he : v.env = .attack)
    (ht : v.t + sr < v.attackTime) :
    envStep sr v = { v with
      t := v.t + sr, level := (v.t + sr) / v.attackTime
      releaseFrom := (v.t + sr) / v.attackTime } := by
  simp [envStep, he, not_le.mpr ht]

theorem envStep_hold {sr : Num} {v : Voice} (he : v.env = .hold) :
    envStep sr v = { v with level := 1, releaseFrom := 1 } := by
  simp [envStep, he]

theorem envStep_releasing_of_le {sr : Num} {v : Voice} (he : v.env = .releasing)
    (ht : v.releaseTime ≤ v.t + sr) :
    envStep sr v = { v with t := v.t + sr, env := .newlyOff, level := 0 } := by
  simp [envStep, he, ht]

theorem envStep_releasing_of_lt {sr : Num} {v : Voice} (he : v.env = .releasing)
    (ht : v.t + sr < v.releaseTime) :
    envStep sr v = { v with
      t := v.t + sr, level := v.releaseFrom * (1 - (v.t + sr) / v.releaseTime) } := by
  simp [envStep, he, not_le.mpr ht]

/-! ### A TICK without a fault -/

/-- A TICK that leaves no fault ran its loop over the voices to the end. -/
theorem exec_tick_stepVoices {s t : State} (h : exec .tick s = .next t)
    (hs : s.engine.fault = none) (ht : t.engine.fault = none) :
    ∃ frame, stepVoices ratNum params s.engine.srInv s.engine.voices (zeroFrame params) =
      .ok (t.engine.voices, frame) := by
  rcases exec_engine_cases rfl h with ⟨hf, _⟩ | ⟨_, _, _, rfl⟩ | ⟨_, _, _, _, rfl⟩ | ⟨_, _, e, he, rfl⟩
  · exact absurd hs hf
  · cases ht
  · cases ht
  · change tickRule ratNum params s.engine = .ok e at he
    rcases tickRule_cases params s.engine with ⟨_, hr⟩ | ⟨_, hr, _⟩ | ⟨_, r, hr, hok⟩
    · cases hr.symm.trans he
    · cases hr.symm.trans he
    · cases hok.symm.trans he
      exact ⟨r.2, hr⟩

/-- A TICK that leaves no fault takes a playing voice to its envelope step, but for the slots and the
filter, which the oscillators and the filter write. -/
theorem exec_tick_playing {s t : State} {j : Nat} {v w : Voice} (h : exec .tick s = .next t)
    (hs : s.engine.fault = none) (ht : t.engine.fault = none) (hv : s.engine.voices[j]? = some v)
    (hw : t.engine.voices[j]? = some w) (hp : Playing v) :
    ∃ sls fu, w = { envStep s.engine.srInv v with slots := sls, flt := fu } := by
  obtain ⟨_, hvs⟩ := exec_tick_stepVoices h hs ht
  rcases forall₂_getElem? (stepVoices_ok hvs) hv hw with ⟨hn, _⟩ | ⟨_, o, ho, rfl⟩
  · rw [(isPlaying_iff v).mpr hp] at hn
    cases hn
  · obtain ⟨sls, _, _, _, _, ho1, _⟩ := voiceStep_ok ho
    exact ⟨sls, _, ho1⟩

/-- Settles O45: a TICK without a fault gives a playing voice the envelope of `envStep`, and each clause
is the equation of `envStep` for its case. -/
theorem tickStepsTheEnvelope : Obligations.TickStepsTheEnvelope := by
  unfold Obligations.TickStepsTheEnvelope
  intro s t j v w h hs ht hv hw T
  have stepped := exec_tick_playing h hs ht hv hw
  refine ⟨fun he hT => ?attackEnd, fun he hT => ?attack, fun he => ?hold, fun he hT => ?releaseEnd,
    fun he hT => ?releasing⟩
  case attackEnd =>
    obtain ⟨_, _, rfl⟩ := stepped (.inl he)
    rw [envStep_attack_of_le he hT]
    exact ⟨rfl, rfl, rfl, rfl⟩
  case attack =>
    obtain ⟨_, _, rfl⟩ := stepped (.inl he)
    rw [envStep_attack_of_lt he hT]
    exact ⟨he, rfl, rfl, rfl⟩
  case hold =>
    obtain ⟨_, _, rfl⟩ := stepped (.inr (.inl he))
    rw [envStep_hold he]
    exact ⟨he, rfl, rfl, rfl⟩
  case releaseEnd =>
    obtain ⟨_, _, rfl⟩ := stepped (.inr (.inr he))
    rw [envStep_releasing_of_le he hT]
    exact ⟨rfl, rfl, rfl, rfl⟩
  case releasing =>
    obtain ⟨_, _, rfl⟩ := stepped (.inr (.inr he))
    rw [envStep_releasing_of_lt he hT]
    exact ⟨he, rfl, rfl, rfl⟩

end Sys2Proof.Machine
end

section
/-! The frame of a TICK (43_scheduler.md R223). -/

namespace Sys2Proof.Machine

/-! ### Summing samples into a frame, by its width -/

/-- A stereo frame sums left and right. -/
theorem foldl_accumulate_stereo (outs : List (Num × Num)) (x y : Num) :
    outs.foldl (fun a o => accumulate a o.1 o.2) [x, y] =
      [outs.foldl (fun x o => x + o.1) x, outs.foldl (fun y o => y + o.2) y] := by
  induction outs generalizing x y with
  | nil => rfl
  | cons o outs ih => exact ih (x + o.1) (y + o.2)

/-- A mono frame sums the means. -/
theorem foldl_accumulate_mono (outs : List (Num × Num)) (x : Num) :
    outs.foldl (fun a o => accumulate a o.1 o.2) [x] =
      [outs.foldl (fun x o => x + (o.1 + o.2) / 2) x] := by
  induction outs generalizing x with
  | nil => rfl
  | cons o outs ih => exact ih (x + (o.1 + o.2) / 2)

/-- A frame of any other width takes no sample. -/
theorem accumulate_of_length_ne {acc : Frame} (h1 : acc.length ≠ 1) (h2 : acc.length ≠ 2) (l r : Num) :
    accumulate acc l r = acc := by
  unfold accumulate
  split
  · exact absurd rfl h2
  · exact absurd rfl h1
  · rfl

theorem foldl_accumulate_of_length_ne {acc : Frame} (h1 : acc.length ≠ 1) (h2 : acc.length ≠ 2)
    (outs : List (Num × Num)) : outs.foldl (fun a o => accumulate a o.1 o.2) acc = acc := by
  induction outs with
  | nil => rfl
  | cons o outs ih => rw [List.foldl_cons, accumulate_of_length_ne h1 h2, ih]

/-! ### The voices -/

/-- The loop of TICK at one voice: stepped if it plays, else left. -/
theorem stepVoices_getElem? {c : Params} {sr : Num} {vs : List Voice} {acc : Frame}
    {r : List Voice × Frame} (h : stepVoices ratNum c sr vs acc = .ok r) {j : Nat} {v : Voice}
    (hv : vs[j]? = some v) :
    (¬ Playing v → r.1[j]? = some v) ∧
      (Playing v → ∃ o, voiceStep ratNum c sr v = .ok o ∧ r.1[j]? = some o.1) := by
  have hvs := stepVoices_ok h
  obtain ⟨hj, _⟩ := List.getElem?_eq_some_iff.mp hv
  have hw := List.getElem?_eq_getElem (hvs.length_eq ▸ hj)
  rw [← isPlaying_iff, hw]
  rcases forall₂_getElem? hvs hv hw with ⟨hp, hs⟩ | ⟨hp, o, ho, hs⟩
  · exact ⟨fun _ => congrArg some hs, fun hp' => absurd hp' (by simp [hp])⟩
  · exact ⟨fun hn => absurd hp hn, fun _ => ⟨o, ho, congrArg some hs⟩⟩

/-- Settles O47: the frame is the fold of `accumulate` over the playing voices' samples, which the width of
the frame decides, and each voice is that of the loop at its index. -/
theorem frameSumsPlayingVoices : Obligations.FrameSumsPlayingVoices := by
  unfold Obligations.FrameSumsPlayingVoices
  intro c srInv vs r h outs
  have hframe : r.2 = outs.foldl (fun a o => accumulate a o.1 o.2) (zeroFrame c) := stepVoices_frame h
  refine ⟨fun h2 => ?stereo, fun h1 => ?mono, fun h1 h2 => ?other, (stepVoices_ok h).length_eq.symm,
    fun _ _ hv => stepVoices_getElem? h hv⟩
  case stereo =>
    have hzero : zeroFrame c = [0, 0] := by rw [zeroFrame, h2]; rfl
    rw [hframe, hzero, foldl_accumulate_stereo]
  case mono =>
    have hzero : zeroFrame c = [0] := by rw [zeroFrame, h1]; rfl
    rw [hframe, hzero, foldl_accumulate_mono]
  case other =>
    have hlength : (zeroFrame c).length = c.outChannels := List.length_replicate
    rw [hframe, foldl_accumulate_of_length_ne (hlength ▸ h1) (hlength ▸ h2), zeroFrame]

end Sys2Proof.Machine
end

section
/-! The end of a block (43_scheduler.md R224 to R226). -/

namespace Sys2Proof.Machine

theorem isPlaying_eq (v : Voice) :
    isPlaying v = (v.env == .attack || v.env == .hold || v.env == .releasing) := by
  unfold isPlaying
  cases v.env <;> rfl

theorem playingCount_eq (vs : List Voice) :
    playingCount vs =
      vs.countP (fun v : Voice => v.env == .attack || v.env == .hold || v.env == .releasing) :=
  congrArg (vs.countP ·) (funext isPlaying_eq)

/-- Reaping turns a NEWLY_OFF voice OFF, and neither plays. -/
@[simp] theorem isPlaying_reapVoice (v : Voice) : isPlaying (reapVoice v) = isPlaying v := by
  unfold reapVoice
  split
  · next h => simp [isPlaying, envPlaying, h]
  · rfl

/-- The reap leaves the number of playing voices. -/
@[simp] theorem playingCount_map_reapVoice (vs : List Voice) :
    playingCount (vs.map reapVoice) = playingCount vs := by
  rw [playingCount, List.countP_map]
  exact congrArg (vs.countP ·) (funext isPlaying_reapVoice)

/-- END_BLOCK has no operand and its rule no error, so only a faulted port stops it. -/
theorem exec_endBlock {s : State} (hs : s.engine.fault = none) :
    exec .endBlock s = .next { s with engine := { s.engine with
      noteEndFifo := s.engine.noteEndFifo ++ blockRecords s.engine
      voices := s.engine.voices.map reapVoice
      terminated := []
      tickInBlock := 0
      polyCount := playingCount (s.engine.voices.map reapVoice) } } := by
  rw [exec_engine rfl]
  exact runEngine_ok hs rfl rfl

/-- Settles O49: END_BLOCK's records are stamped with `blockStamp`, and its voices are the reaped ones, of
which as many play as before. -/
theorem endBlockReportsAndReaps : Obligations.EndBlockReportsAndReaps := by
  unfold Obligations.EndBlockReportsAndReaps
  intro s hs
  refine ⟨s.engine.voices.map reapVoice, blockStamp s.engine, ?next, fun h => ?noTick, fun h => ?lastTick,
    List.length_map _, fun j v hv => ?voice⟩
  case next =>
    rw [exec_endBlock hs, playingCount_map_reapVoice, playingCount_eq, blockRecords, List.append_assoc]
  case noTick => rw [blockStamp, h]
  case lastTick => exact Nat.succ_pred h
  case voice => rw [List.getElem?_map, hv, Option.map_some, reapVoice]

/-- Every instruction but END_BLOCK keeps POLY_COUNT, whether it faults or not. -/
theorem exec_polyCount_of_ne_endBlock {i : Instr} {s t : State} (h : exec i s = .next t)
    (hi : i ≠ .endBlock) : t.engine.polyCount = s.engine.polyCount := by
  cases hp : i.portOf with
  | filter => rw [exec_filter_engine hp h]
  | engine =>
    rcases exec_engine_cases hp h with ⟨_, rfl⟩ | ⟨_, _, _, rfl⟩ | ⟨_, _, _, _, rfl⟩ | ⟨_, _, e, he, rfl⟩
    · rfl
    · rfl
    · rfl
    · exact ((engineRule_bookkeeping he).1 hi).1

/-- Settles O50: the other instructions keep POLY_COUNT, and END_BLOCK counts the voices it leaves. -/
theorem polyCountIsWrittenByEndBlockOnly : Obligations.PolyCountIsWrittenByEndBlockOnly := by
  unfold Obligations.PolyCountIsWrittenByEndBlockOnly
  intro i s t h
  refine ⟨exec_polyCount_of_ne_endBlock h, fun hi hs => ?_⟩
  subst hi
  rw [exec_endBlock hs] at h
  cases h
  exact playingCount_eq _

end Sys2Proof.Machine
end

section
/-! MIDI notes (43_scheduler.md R230 to R232). -/

namespace Sys2Proof.Machine

/-- The address of a MIDI note: its port, channel and key, and no note-id. -/
theorem identOf_midi {a : Addr} (hchan : a.chan.toNat < 16) (hkey : a.key.toNat < 0x80)
    (hid : a.noteId = 0xFFFFFFFF#32) :
    identOf a = ⟨a.port.toInt, (a.chan.toNat : Nat), (a.key.toNat : Nat), -1⟩ := by
  have hchan' : a.chan.toInt = (a.chan.toNat : Int) := BitVec.toInt_eq_toNat_of_lt (by omega)
  have hkey' : a.key.toInt = (a.key.toNat : Int) := BitVec.toInt_eq_toNat_of_lt (by omega)
  have hid' : (0xFFFFFFFF#32).toInt = -1 := by decide
  rw [identOf, hchan', hkey', hid, hid']

/-- The address of a MIDI note is legal (30_encoding.md R96) and names one note, as NOTE_ON asks (R97). -/
theorem note_wellFormed {a : Addr} (hport : 0 ≤ a.port.toInt) (hchan : a.chan.toNat < 16)
    (hkey : a.key.toNat < 0x80) : (Instr.noteOn a).WellFormed ∧ (Instr.noteOff a).WellFormed := by
  have hchan' : a.chan.toInt = (a.chan.toNat : Int) := BitVec.toInt_eq_toNat_of_lt (by omega)
  have hkey' : a.key.toInt = (a.key.toNat : Int) := BitVec.toInt_eq_toNat_of_lt (by omega)
  have hlegal : addrError a = none := addrError_of_legal (by unfold LegalAddr; omega)
  have hdefinite : addrDefinite a = true := by simp [addrDefinite, hport, hchan', hkey']
  have hnoteOn : operandError (.noteOn a) = none := by simp [operandError, hlegal, hdefinite]
  exact ⟨hnoteOn, hlegal⟩

/-- A MIDI message on a port of at least 0 passes the decoder's check (43_scheduler.md R230). -/
theorem midi_wellFormed {st d1 d2 : Byte} {port : BitVec 16} (hport : 0 ≤ port.toInt) :
    (Instr.midi st d1 d2 port).WellFormed :=
  if_neg (not_lt.mpr hport)

/-- Two well-formed engine-port commands with one rule answer the same where neither faults, and fault with
one code, each under its own header. -/
theorem exec_of_same_rule {i i' : Instr} {s t : State} (hp : i.portOf = .engine)
    (hp' : i'.portOf = .engine) (hw : i.WellFormed) (hw' : i'.WellFormed)
    (hr : engineRule i' = engineRule i) (hs : s.engine.fault = none) (h : exec i s = .next t) :
    (t.engine.fault = none → exec i' s = .next t) ∧
      ∀ r, t.engine.fault = some r → exec i' s = .next (raiseFault .engine r.code (headerOf i') s) := by
  rw [exec_engine hp']
  rcases exec_engine_cases hp h with ⟨hf, _⟩ | ⟨_, _, he, _⟩ | ⟨_, _, code, he, rfl⟩ | ⟨_, _, e, he, rfl⟩
  · exact absurd hs hf
  · cases hw.symm.trans he
  · refine ⟨fun hn => (by cases hn), fun r hcode => ?_⟩
    cases hcode
    exact runEngine_error hs hw' (hr ▸ he)
  · refine ⟨fun _ => runEngine_ok hs hw' (hr ▸ he), fun r hcode => ?_⟩
    rw [(engineRule_keeps he).1, hs] at hcode
    cases hcode

/-- Two well-formed commands that release the same notes are the same. -/
theorem exec_eq_of_noteReleased {i i' : Instr} {a : Identity} {s : State} (h : noteReleased i = some a)
    (h' : noteReleased i' = some a) (hw : i.WellFormed) (hw' : i'.WellFormed)
    (hs : s.engine.fault = none) : exec i s = exec i' s := by
  obtain ⟨hp, hr⟩ := noteReleased_rule h
  obtain ⟨hp', hr'⟩ := noteReleased_rule h'
  rw [exec_engine hp, exec_engine hp', runEngine_ok hs hw (hr _), runEngine_ok hs hw' (hr' _)]

/-- Settles O55: the MIDI message starts, or releases, the note of the address, and what starts or releases
one note has one rule. -/
theorem midiNotesAreNotes : Obligations.MidiNotesAreNotes := by
  unfold Obligations.MidiNotesAreNotes
  intro s t st d1 d2 port a hs hport hd1 hd2 ha hid hkey
  subst ha hkey
  have hmidi : (Instr.midi st a.key d2 a.port).WellFormed := midi_wellFormed hport
  refine ⟨fun hlo hhi hchan hd2' h => ?noteOn, fun h => ?noteOff⟩
  case noteOn =>
    have hchan' : a.chan.toNat < 16 := by omega
    have hstarted : noteStarted (.midi st a.key d2 a.port) = some (identOf a) := by
      rw [noteStarted, if_pos ⟨hlo, hhi, hd1, hd2', hd2⟩, identOf_midi hchan' hd1 hid, hchan]
    obtain ⟨hp, hr⟩ := noteStarted_rule hstarted
    exact exec_of_same_rule rfl hp (note_wellFormed hport hchan' hd1).1 hmidi hr hs h
  case noteOff =>
    have hchan' : a.chan.toNat < 16 := by omega
    have hreleased : noteReleased (.midi st a.key d2 a.port) = some (identOf a) := by
      rw [noteReleased, identOf_midi hchan' hd1 hid]
      rcases h with ⟨hlo, hhi, hchan⟩ | ⟨hlo, hhi, hchan, hzero⟩
      · rw [if_pos ⟨hlo, hhi, hd1, hd2⟩, hchan]
      · rw [if_neg (by omega), if_pos ⟨hlo, hhi, hd1, hzero⟩, hchan]
    exact exec_eq_of_noteReleased hreleased rfl hmidi (note_wellFormed hport hchan' hd1).2 hs

end Sys2Proof.Machine
end

section
/-! The state at reset (70_reset_and_hazards.md R290). -/

namespace Sys2Proof.Machine

/-- The parameter file at reset holds PARAM_RESET in P's order (10_state.md R33): the model's `mkRat n d`
is the quotient `n / d` the spec writes as a decimal. -/
theorem paramFile_reset :
    ParamFile.reset = ⟨3, 1 / 10, 0, 1 / 100, 2 / 10, 0, 1, 69, 7 / 10, 0⟩ := by
  simp only [ParamFile.reset, Over.ParamFile.resetWith, paramReset, Rat.mkRat_eq_div, Int.cast_one,
    Int.cast_ofNat, Nat.cast_ofNat]

/-- Settles O1: the parameter file is `paramFile_reset`; every other row of R290 is the model's own reset
value of that element. -/
theorem resetLeavesSpecValues : Obligations.ResetLeavesSpecValues := by
  unfold Obligations.ResetLeavesSpecValues
  exact ⟨paramFile_reset, rfl, rfl, rfl, rfl, rfl, rfl, rfl, rfl, rfl, rfl, rfl, rfl⟩

end Sys2Proof.Machine
end

section
/-! Packets: what a port reads from its words (30_encoding.md R85 to R97). -/

namespace Sys2Proof

open Sys2Proof.Machine (field addrOfWord wordOfAddr operandError decodeErrorCode)

/-! ### A header of a row, followed by enough words -/

theorem decodeWords_packet {o : Opcode} {h : Word} {ws : List Word} (ho : opcodeOf (field h 0 8) = some o)
    (hl : operandWords o ≤ ws.length)
    (he : packetError o h (assemble o h (ws.getD 0 0#64) (ws.getD 1 0#64) (ws.getD 2 0#64)) = none) :
    decodeWords (opcodePort o) (h :: ws) =
      .packet (assemble o h (ws.getD 0 0#64) (ws.getD 1 0#64) (ws.getD 2 0#64)) (1 + operandWords o) := by
  simp only [decodeWords, ho, ne_eq, not_true, if_false, not_lt.mpr hl, he]

theorem decodeWords_reject {o : Opcode} {h : Word} {ws : List Word} {e : DecodeError}
    (ho : opcodeOf (field h 0 8) = some o) (hl : operandWords o ≤ ws.length)
    (he : packetError o h (assemble o h (ws.getD 0 0#64) (ws.getD 1 0#64) (ws.getD 2 0#64)) = some e) :
    decodeWords (opcodePort o) (h :: ws) = .reject e h (1 + operandWords o) := by
  simp only [decodeWords, ho, ne_eq, not_true, if_false, not_lt.mpr hl, he]

/-! ### The packet of an instruction -/

theorem encode_length (i : Instr) : (encode i).length = 1 + operandWords i.opcode := by
  rw [encode, List.length_cons, operandsOf_length, Nat.add_comm]

theorem encodeBytes_length (i : Instr) : (encodeBytes i).length = 8 * (encode i).length :=
  bytesOfWords_length _

/-- What the encoder writes is read as the row of the instruction, its words as the instruction, and its
checks as those of the operands. -/
theorem encode_row (i : Instr) (rest : List Word) :
    opcodeOf (field (headerOf i) 0 8) = some i.opcode ∧
      operandWords i.opcode ≤ (operandsOf i ++ rest).length := by
  refine ⟨by rw [field_headerOf_opc, opcodeOf_opcodeByte], ?_⟩
  rw [← operandsOf_length, List.length_append]
  exact Nat.le_add_right _ _

theorem decodeWords_encode {i : Instr} (hw : i.WellFormed) (rest : List Word) :
    decodeWords i.portOf (encode i ++ rest) = .packet i (encode i).length := by
  obtain ⟨ho, hl⟩ := encode_row i rest
  have h := decodeWords_packet ho hl (by rw [assemble_encode, packetError_headerOf]; exact hw)
  rwa [assemble_encode, ← encode_length] at h

theorem decodeWords_encode_of_operandError {i : Instr} {e : DecodeError} (he : operandError i = some e)
    (rest : List Word) :
    decodeWords i.portOf (encode i ++ rest) = .reject e (headerOf i) (encode i).length := by
  obtain ⟨ho, hl⟩ := encode_row i rest
  have h := decodeWords_reject ho hl (by rw [assemble_encode, packetError_headerOf]; exact he)
  rwa [← encode_length] at h

/-- Settles O6: the bytes of the packet are its words, and those decode to the instruction. -/
theorem decodeEncodeRoundTrip : Obligations.DecodeEncodeRoundTrip := by
  unfold Obligations.DecodeEncodeRoundTrip
  intro i rest hw
  rw [decode, encodeBytes, wordsOfBytes_append, decodeWords_encode hw]

/-! ### The words of a packet that decodes -/

/-- The header of an assembled instruction is the header it was read from, no bit of which was dropped. -/
theorem headerOf_assemble {o : Opcode} {h : Word} (a b c : Word) (ho : opcodeByte o = field h 0 8)
    (hr : reservedZero o h = true) (hs : subFree o = true ∨ field h 8 8 = 0#8) :
    headerOf (assemble o h a b c) = h := by
  by_cases hm : o = .midi
  · subst hm
    simp only [reservedZero, Bool.and_eq_true, beq_iff_eq] at hr
    exact (eq_midiHdrWord ho.symm hr.1 hr.2).symm
  · have hr : field h 16 48 = 0#48 := by
      cases o
      case midi => exact absurd rfl hm
      all_goals exact beq_iff_eq.mp hr
    have hh : hdrWord (opcodeByte o) (field h 8 8) = h := by rw [ho]; exact (eq_hdrWord hr).symm
    cases o
    case midi => exact absurd rfl hm
    case paramSet | paramWrite | paramMod | noteExpr | fltSetMode => exact hh
    all_goals
      rw [hs.resolve_left (by decide)] at hh
      exact hh

/-- The operands of an assembled instruction are the words they were read from. -/
theorem operandsOf_assemble {o : Opcode} {ws : List Word} (h : Word) (hl : operandWords o ≤ ws.length) :
    operandsOf (assemble o h (ws.getD 0 0#64) (ws.getD 1 0#64) (ws.getD 2 0#64)) =
      ws.take (operandWords o) := by
  cases o
  case tick | endBlock | midi | pushParams | fltSetMode | fltReset => rfl
  case setSampleRate | noteOn | noteOff | paramSet | paramWrite =>
    match ws, hl with
    | a :: _, _ => simp [assemble, operandsOf, operandWords, wordOfAddr_addrOfWord]
  case paramMod | noteExpr | fltProcess =>
    match ws, hl with
    | a :: b :: _, _ => simp [assemble, operandsOf, operandWords, wordOfAddr_addrOfWord]
  case fltSetCoef =>
    match ws, hl with
    | a :: b :: c :: _, _ => rfl

/-- Settles O7: the checks the packet passed leave its header no bit but those the encoder writes. -/
theorem legalPacketsHaveOneSpelling : Obligations.LegalPacketsHaveOneSpelling := by
  unfold Obligations.LegalPacketsHaveOneSpelling
  intro p ws i n hd
  cases ws with
  | nil => cases hd
  | cons h ws =>
    obtain ⟨o, ho, hp, hl, rfl, he, rfl⟩ := decodeWords_cons_packet hd
    obtain ⟨hr, hs, hw⟩ := packetError_none he
    refine ⟨hw, ?_, ?_, ?_⟩
    · rw [Instr.portOf, assemble_opcode, hp]
    · rw [encode_length, assemble_opcode]
    · rw [encode, headerOf_assemble _ _ _ (opcodeByte_of_opcodeOf ho) hr hs, operandsOf_assemble h hl,
        Nat.add_comm, List.take_succ_cons]

/-- A packet that decodes is a well-formed instruction of the port it came from. -/
theorem decode_packet {p : Port} {bytes : List Byte} {i : Instr} {n : Nat}
    (h : decode p bytes = .packet i n) : i.WellFormed ∧ i.portOf = p :=
  have ⟨hw, hp, _⟩ := legalPacketsHaveOneSpelling p _ i n h
  ⟨hw, hp⟩

/-- Settles O5: each word list is decoded by evaluation. -/
theorem specWordsDecode : Obligations.SpecWordsDecode := by
  unfold Obligations.SpecWordsDecode
  decide

/-! ### Packets the decoder rejects -/

/-- An opcode of no row of the port is rejected at the header (30_encoding.md R92 step 2, R93). -/
theorem decodeWords_bad_opcode {p : Port} {h : Word} (ws : List Word)
    (hp : ∀ o, opcodeOf (field h 0 8) = some o → opcodePort o ≠ p) :
    ∃ e, decodeWords p (h :: ws) = .reject e h 1 ∧ decodeErrorCode e = .illegalCommand := by
  cases ho : opcodeOf (field h 0 8) with
  | none => exact ⟨.reservedOpcode, by simp only [decodeWords, ho], rfl⟩
  | some o => exact ⟨.otherPort, by simp only [decodeWords, ho, if_pos (hp o ho)], rfl⟩

/-- The opcodes of a port's rows (30_encoding.md R91). -/
theorem opcodeByte_mem (o : Opcode) :
    (opcodePort o = .engine → (opcodeByte o).toNat ∈
      [0x01, 0x02, 0x03, 0x10, 0x11, 0x12, 0x20, 0x21, 0x22, 0x28, 0x29]) ∧
    (opcodePort o = .filter → (opcodeByte o).toNat ∈ [0x30, 0x31, 0x32, 0x33]) := by
  cases o <;> decide

theorem toNat_field_opc (h : Word) : (field h 0 8).toNat = h.toNat % 256 := by
  simp [field]

/-- A nonzero reserved field, or a nonzero SUB where the row's SUB is 0, is rejected before the operands are
looked at (30_encoding.md R92 step 4). -/
theorem packetError_illegal {o : Opcode} {h : Word} (i : Instr)
    (hr : reservedZero o h = false ∨ (subFree o = false ∧ field h 8 8 ≠ 0#8)) :
    ∃ e, packetError o h i = some e ∧ decodeErrorCode e = .illegalCommand := by
  cases hz : reservedZero o h with
  | false => exact ⟨.reservedField, by simp [packetError, hz], rfl⟩
  | true =>
    obtain ⟨hs, hn⟩ := hr.resolve_left (by simp [hz])
    exact ⟨.badSub, by simp [packetError, hz, hs, hn], rfl⟩

theorem reservedZero_hdr {o : Opcode} (ho : o ≠ .midi) (h : Word) :
    reservedZero o h = (field h 16 48 == 0#48) := by
  cases o
  case midi => exact absurd rfl ho
  all_goals rfl

theorem subFree_hdr {o : Opcode} (ho : o ≠ .midi)
    (hs : o ∉ [.paramSet, .paramWrite, .paramMod, .noteExpr, .fltSetMode]) : subFree o = false := by
  cases o
  case midi => exact absurd rfl ho
  case paramSet | paramWrite | paramMod | noteExpr | fltSetMode => exact absurd (by decide) hs
  all_goals rfl

end Sys2Proof
end

section
/-! Steps: which packet of which port a step runs (20_memory.md R71 to R75, 30_encoding.md R92). -/

namespace Sys2Proof.Machine

/-! ### One port -/

theorem stepPort_packet {p : Port} {s : State} {i : Instr} {n : Nat} (hf : isFaulted p s = false)
    (hd : decode p (portBytes p s) = .packet i n) :
    stepPort exec p s = some (exec i (consume p n s)) := by
  simp [stepPort, fetchPort, hf, hd]

theorem stepPort_reject {p : Port} {s : State} {e : DecodeError} {h : Word} {n : Nat}
    (hf : isFaulted p s = false) (hd : decode p (portBytes p s) = .reject e h n) :
    stepPort exec p s = some (.next (raiseFault p (decodeErrorCode e) h (consume p n s))) := by
  simp [stepPort, fetchPort, hf, hd]

theorem eq_or_eq_otherPort (p q : Port) : q = p ∨ q = otherPort p := by
  cases p <;> cases q <;> simp [otherPort]

@[simp] theorem setPortBytes_setPortBytes (p : Port) (b b' : List Byte) (s : State) :
    setPortBytes p b (setPortBytes p b' s) = setPortBytes p b s := by cases p <;> rfl

/-- A block with no packet on either port idles (60_exceptions.md R275). -/
theorem step_of_hold {p : Port} {s : State}
    (h : isFaulted p s = true ∨ decode p (portBytes p s) = .hold)
    (h' : isFaulted (otherPort p) s = true ∨ decode (otherPort p) (portBytes (otherPort p) s) = .hold) :
    step s = .next s := by
  have hn : ∀ q, stepPort exec q s = none := fun q => by
    rcases eq_or_eq_otherPort p q with rfl | rfl
    · exact stepPort_eq_none h
    · exact stepPort_eq_none h'
  rw [step_eq, hn, hn]

/-- Settles O11: the port with the turn is served, and the other one where that port has no packet. -/
theorem stepRunsDecodedPacket : Obligations.StepRunsDecodedPacket := by
  unfold Obligations.StepRunsDecodedPacket
  refine ⟨fun s i n hf hd => step_of_port (.inl rfl) (stepPort_packet hf hd), fun s i n hf ht hd => ?_⟩
  rw [step_of_port (.inr ht) (stepPort_packet hf hd), consume, otherPort_otherPort]

/-! ### Rejected packets -/

theorem step_reject {p : Port} {s : State} {e : DecodeError} {h : Word} {n : Nat}
    (hf : isFaulted p s = false)
    (hp : p = s.turn ∨ isFaulted s.turn s = true ∨ decode s.turn (portBytes s.turn s) = .hold)
    (hd : decode p (portBytes p s) = .reject e h n) :
    step s = .next (raiseFault p (decodeErrorCode e) h (consume p n s)) :=
  step_of_port hp (stepPort_reject hf hd)

/-- Settles O8: the header is of no row of the port, so the decoder rejects it, and the step takes that
fault. -/
theorem badOpcodeFaultsAtHeader : Obligations.BadOpcodeFaultsAtHeader := by
  unfold Obligations.BadOpcodeFaultsAtHeader
  intro s p h hf hp hh he hfl
  obtain ⟨ws, hws⟩ := List.head?_eq_some_iff.mp hh
  have hbad : ∀ o, opcodeOf (field h 0 8) = some o → opcodePort o ≠ p := by
    intro o ho hop
    have hn : (opcodeByte o).toNat = h.toNat % 256 := by
      rw [opcodeByte_of_opcodeOf ho, toNat_field_opc]
    cases p with
    | engine => exact he rfl (hn ▸ (opcodeByte_mem o).1 hop)
    | filter => exact hfl rfl (hn ▸ (opcodeByte_mem o).2 hop)
  obtain ⟨e, hd, hc⟩ := decodeWords_bad_opcode ws hbad
  rw [step_reject hf hp (by rw [decode, hws, hd]), hc]

/-- Settles O9: the packet's check of the header fails before any check of its operands. -/
theorem reservedBitsFault : Obligations.ReservedBitsFault := by
  unfold Obligations.ReservedBitsFault
  intro i h ws hopc hhdr hmidi hl
  have hres : reservedZero i.opcode h = false ∨ (subFree i.opcode = false ∧ field h 8 8 ≠ 0#8) := by
    by_cases hm : i.opcode = .midi
    · have hbits : field h 8 8 ≠ 0#8 ∨ field h 56 8 ≠ 0#8 := hmidi hm
      rw [hm]
      exact .inl (by simpa [reservedZero, imp_iff_not_or] using hbits)
    · rcases hhdr hm with hr | ⟨hs, hsub⟩
      · have hr : field h 16 48 ≠ 0#48 := hr
        exact .inl (by simpa [reservedZero_hdr hm] using hr)
      · exact .inr ⟨subFree_hdr hm hsub, hs⟩
  have hrow : opcodeOf (field h 0 8) = some i.opcode := by
    rw [show field h 0 8 = opcodeByte i.opcode from hopc, opcodeOf_opcodeByte]
  obtain ⟨e, he, hc⟩ := packetError_illegal _ hres
  have hd : decodeWords i.portOf (h :: ws) = .reject e h (encode i).length := by
    rw [encode_length]
    exact decodeWords_reject hrow (operandsOf_length i ▸ hl) he
  refine ⟨⟨e, hd, hc⟩, fun s hf hp hws => ?_⟩
  rw [step_reject hf hp (by rw [decode, hws, hd]), hc]

/-! ### The packet of an instruction at the head of a port's bytes -/

theorem decode_encodeBytes {i : Instr} (hw : i.WellFormed) (rest : List Byte) :
    decode i.portOf (encodeBytes i ++ rest) = .packet i (encode i).length :=
  decodeEncodeRoundTrip i rest hw

theorem decode_encodeBytes_of_operandError {i : Instr} {e : DecodeError} (he : operandError i = some e)
    (rest : List Byte) :
    decode i.portOf (encodeBytes i ++ rest) = .reject e (headerOf i) (encode i).length := by
  rw [decode, encodeBytes, wordsOfBytes_append, decodeWords_encode_of_operandError he]

/-- Taking an instruction's packet off its port leaves the bytes after it. -/
theorem consume_encodeBytes {i : Instr} {s : State} {rest : List Byte}
    (hb : portBytes i.portOf s = encodeBytes i ++ rest) :
    consume i.portOf (encode i).length s =
      { setPortBytes i.portOf rest s with turn := otherPort i.portOf } := by
  rw [consume, hb, ← encodeBytes_length, List.drop_left]

/-- A packet cut short, or none at all, holds (20_memory.md R75). -/
theorem decode_take_encodeBytes {i : Instr} {n : Nat} (hn : n < (encodeBytes i).length) :
    decode i.portOf ((encodeBytes i).take n) = .hold := by
  rw [decode, encodeBytes, wordsOfBytes_take]
  rw [encodeBytes_length] at hn
  exact decodeWords_take_encode i _ (by omega)

/-- Settles O10: while a part of the packet is missing neither port has a packet, and with the rest it is the
instruction's. -/
theorem incompletePacketHolds : Obligations.IncompletePacketHolds := by
  unfold Obligations.IncompletePacketHolds
  intro s i n hn hb hb'
  have hother : decode (otherPort i.portOf) [] = .hold := rfl
  refine ⟨step_of_hold (.inr (by rw [hb, decode_take_encodeBytes hn])) (.inr (by rw [hb', hother])),
    fun hf hw => ?_⟩
  have hsent : hostSend i.portOf ((encodeBytes i).drop n) s =
      setPortBytes i.portOf (encodeBytes i ++ []) s := by
    rw [hostSend, hb, List.take_append_drop, List.append_nil]
  rw [hsent]
  have hbytes := portBytes_setPortBytes i.portOf (encodeBytes i ++ []) s
  have hrun := stepPort_packet (s := setPortBytes i.portOf (encodeBytes i ++ []) s) (p := i.portOf)
    (by rw [isFaulted_setPortBytes, hf]) (by rw [hbytes]; exact decode_encodeBytes hw [])
  rw [step_of_port ?served hrun, consume_encodeBytes hbytes, setPortBytes_setPortBytes]
  case served =>
    rw [setPortBytes_turn]
    rcases eq_or_eq_otherPort i.portOf s.turn with ht | ht
    · exact .inl ht.symm
    · exact .inr (.inr (by rw [ht, portBytes_setPortBytes_other, hb', hother]))

/-- The operand fault of an instruction, by its port. -/
theorem exec_operandError {i : Instr} {e : DecodeError} {s : State} (hf : isFaulted i.portOf s = false)
    (he : operandError i = some e) :
    exec i s = .next (raiseFault i.portOf (decodeErrorCode e) (headerOf i) s) := by
  cases hp : i.portOf with
  | engine =>
    rw [hp, isFaulted_engine, Option.isSome_eq_false_iff, Option.isNone_iff_eq_none] at hf
    exact exec_engine_operandError hp hf he
  | filter =>
    rw [hp, isFaulted_filter, Option.isSome_eq_false_iff, Option.isNone_iff_eq_none] at hf
    exact exec_filter_operandError hp hf he

/-- Settles O12: a well-formed packet is run, and one that is not has in the decoder the fault it has in
exec. -/
theorem stepRunsEveryEncodedPacket : Obligations.StepRunsEveryEncodedPacket := by
  unfold Obligations.StepRunsEveryEncodedPacket
  intro s i rest ht hf hb
  rw [← consume_encodeBytes hb]
  cases he : operandError i with
  | none => exact step_of_port (.inl ht.symm) (stepPort_packet hf (by rw [hb]; exact decode_encodeBytes he rest))
  | some e =>
    rw [step_reject hf (.inl ht.symm) (by rw [hb]; exact decode_encodeBytes_of_operandError he rest)]
    exact (exec_operandError (by rw [isFaulted_consume, hf]) he).symm

/-- Settles O13: every instruction runs a rule on its port, whatever the NUM, and the step is total where the
parameters keep R7. -/
theorem execAndStepAlwaysAnswerNext : Obligations.ExecAndStepAlwaysAnswerNext := by
  unfold Obligations.ExecAndStepAlwaysAnswerNext
  refine ⟨fun i s => ?_, fun s => ?_, exec_eq_execWith, step_eq_stepWith, fun N c s =>
    ⟨fun i => execWith_next N c i s, fun h => stepWith_next N h s, fun h => stepWith_refused N h s⟩⟩
  · rw [exec_eq_execWith]
    exact execWith_next ratNum params i s
  · rw [step_eq_stepWith]
    exact stepWith_next ratNum params_valid s

end Sys2Proof.Machine
end

section
/-! Faults and ports (60_exceptions.md R261 to R269; 20_memory.md R72). -/

namespace Sys2Proof.Machine

/-! ### Precision and stuck ports -/

/-- Settles O14: of the four ways a command ends, the two faults write its port's register and nothing else,
and the other two keep it. -/
theorem faultsArePrecise : Obligations.FaultsArePrecise := by
  unfold Obligations.FaultsArePrecise
  intro i s t h
  cases hp : i.portOf with
  | engine =>
    refine ⟨fun hne => ?_, fun hne => absurd (congrArg _ (exec_engine_filter hp h)) hne⟩
    rcases exec_engine_cases hp h with ⟨_, rfl⟩ | ⟨hs, _, _, rfl⟩ | ⟨hs, _, _, _, rfl⟩ | ⟨_, _, e, he, rfl⟩
    · exact absurd rfl hne
    · exact ⟨hs, rfl, _, rfl⟩
    · exact ⟨hs, rfl, _, rfl⟩
    · exact absurd (engineRule_keeps he).1 hne
  | filter =>
    refine ⟨fun hne => absurd (congrArg _ (exec_filter_engine hp h)) hne, fun hne => ?_⟩
    rcases exec_filter_cases hp h with ⟨_, rfl⟩ | ⟨hs, _, _, rfl⟩ | ⟨hs, _, _, _, rfl⟩ | ⟨_, _, f, hf, rfl⟩
    · exact absurd rfl hne
    · exact ⟨hs, rfl, _, rfl⟩
    · exact ⟨hs, rfl, _, rfl⟩
    · exact absurd (filterRule_keeps hf).1 hne

/-- A command of a faulted port does nothing (60_exceptions.md R263). -/
theorem exec_faulted {i : Instr} {s : State} (hf : isFaulted i.portOf s = true) : exec i s = .next s := by
  cases hp : i.portOf with
  | engine =>
    rw [hp, isFaulted_engine, Option.isSome_iff_ne_none] at hf
    rw [exec_engine hp, runEngine_faulted hf]
  | filter =>
    rw [hp, isFaulted_filter, Option.isSome_iff_ne_none] at hf
    rw [exec_filter hp, runFilter_faulted hf]

/-- A step serves at most one port, one that is not faulted, and keeps the other one. -/
theorem step_keeps_other_port {s t : State} (h : step s = .next t) :
    (isFaulted .filter s = false ∧ t.engine = s.engine) ∨
      (isFaulted .engine s = false ∧ t.filter = s.filter) ∨ t = s := by
  rcases step_cases s with ⟨p, hf, i, n, hd, hs⟩ | ⟨p, hf, e, w, n, _, hs⟩ | ⟨_, hs⟩
  · rw [hs] at h
    have hp := (decode_packet hd).2
    cases p with
    | engine => exact .inr (.inl ⟨hf, (exec_engine_filter hp h).trans (consume_engine_filter n s)⟩)
    | filter => exact .inl ⟨hf, (exec_filter_engine hp h).trans (consume_filter_engine n s)⟩
  · rw [hs] at h
    cases h
    cases p with
    | engine => exact .inr (.inl ⟨hf, rfl⟩)
    | filter => exact .inl ⟨hf, rfl⟩
  · rw [hs] at h
    cases h
    exact .inr (.inr rfl)

/-- Settles O15: a step serves only a port that is not faulted. -/
theorem faultedPortIsStuck : Obligations.FaultedPortIsStuck := by
  unfold Obligations.FaultedPortIsStuck
  refine ⟨fun _ _ => exec_faulted, fun s t h => ?step, fun s r rs hr => by rw [hostDrain, hr]⟩
  case step =>
    have faulted : ∀ {o : Option FaultRecord}, o ≠ none → o.isSome ≠ false := fun hn => by
      simp [Option.isSome_iff_ne_none.mpr hn]
    rcases step_keeps_other_port h with ⟨hf, he⟩ | ⟨hf, he⟩ | rfl
    · exact ⟨fun _ => he, fun hn => absurd hf (faulted hn)⟩
    · exact ⟨fun hn => absurd hf (faulted hn), fun _ => he⟩
    · exact ⟨fun _ => rfl, fun _ => rfl⟩

/-- Settles O19: a command of a port is a function of that port's state alone, so two commands of different
ports commute. -/
theorem portsShareNoState : Obligations.PortsShareNoState := by
  unfold Obligations.PortsShareNoState
  intro i j hi hj s t
  obtain ⟨e, he⟩ := exec_engine_local hi s
  obtain ⟨f, hf⟩ := exec_filter_local hj s
  refine ⟨fun h => ⟨exec_engine_filter hi h, fun s' t' hs' h' => ?engine⟩,
    fun h => ⟨exec_filter_engine hj h, fun s' t' hs' h' => ?filter⟩, fun u v w hu hv hw => ?order⟩
  case engine =>
    cases (he s.filter s.turn).symm.trans h
    rw [← hs'] at he
    cases (he s'.filter s'.turn).symm.trans h'
    rfl
  case filter =>
    cases (hf s.engine s.turn).symm.trans h
    rw [← hs'] at hf
    cases (hf s'.engine s'.turn).symm.trans h'
    rfl
  case order =>
    cases (he s.filter s.turn).symm.trans hu
    cases (hf s.engine s.turn).symm.trans hw
    rw [← hv, he f s.turn, hf e s.turn]

/-! ### Operand faults -/

theorem valueError_of_mem {w : Word} {ws : List Word} (hw : ¬ FiniteWord w) (hm : w ∈ ws) :
    valueError ws = some .nonFiniteValue := by
  induction ws with
  | nil => cases hm
  | cons u us ih =>
    rw [valueError]
    by_cases hu : nonFinite u = true
    · rw [if_pos hu]
    · rw [if_neg hu]
      refine ih ((List.mem_cons.mp hm).resolve_left fun huw => hu ?_)
      rw [nonFinite_iff, ← huw]
      exact hw

theorem valueError_of_finite {ws : List Word} (hw : ∀ w ∈ ws, FiniteWord w) : valueError ws = none := by
  induction ws with
  | nil => rfl
  | cons u us ih =>
    have hu : nonFinite u = false := (nonFinite_eq_false_iff u).mpr (hw u List.mem_cons_self)
    rw [valueError, hu]
    exact ih fun w h => hw w (List.mem_cons_of_mem _ h)

theorem valueError_singleton {w : Word} (hw : FiniteWord w) : valueError [w] = none :=
  valueError_of_finite fun _ h => List.mem_singleton.mp h ▸ hw

theorem addrDefinite_iff (a : Addr) :
    addrDefinite a = true ↔ 0 ≤ a.port.toInt ∧ 0 ≤ a.chan.toInt ∧ 0 ≤ a.key.toInt := by
  simp [addrDefinite, and_assoc]

theorem noteOn_wellFormed {a : Addr} (ha : LegalAddr a) (hp : 0 ≤ a.port.toInt) (hc : 0 ≤ a.chan.toInt)
    (hk : 0 ≤ a.key.toInt) : (Instr.noteOn a).WellFormed := by
  have hd := (addrDefinite_iff a).mpr ⟨hp, hc, hk⟩
  show operandError (.noteOn a) = none
  rw [operandError, addrError_of_legal ha, hd]
  rfl

theorem noteOff_wellFormed {a : Addr} (ha : LegalAddr a) : (Instr.noteOff a).WellFormed :=
  addrError_of_legal ha

theorem paramMod_wellFormed {a : Addr} {w : Word} (ha : LegalAddr a) (hw : FiniteWord w) (b : Byte) :
    (Instr.paramMod b a w).WellFormed := by
  show operandError (.paramMod b a w) = none
  rw [operandError, addrError_of_legal ha, valueError_singleton hw]
  rfl

theorem noteExpr_wellFormed {a : Addr} {w : Word} (ha : LegalAddr a) (hw : FiniteWord w) (b : Byte) :
    (Instr.noteExpr b a w).WellFormed :=
  paramMod_wellFormed ha hw b

theorem fltSetCoef_wellFormed {key res sr : Word} (hk : FiniteWord key) (hr : FiniteWord res)
    (hs : FiniteWord sr) : (Instr.fltSetCoef key res sr).WellFormed :=
  valueError_of_finite (by simp [hk, hr, hs])

theorem fltProcess_wellFormed {l r : Word} (hl : FiniteWord l) (hr : FiniteWord r) :
    (Instr.fltProcess l r).WellFormed :=
  valueError_of_finite (by simp [hl, hr])

/-- Settles O18: the check of an ADDR word comes first of a command's operand checks, and fails for the
illegal addresses and, in NOTE_ON, for the indefinite ones. -/
theorem illegalAddressFaults : Obligations.IllegalAddressFaults := by
  unfold Obligations.IllegalAddressFaults
  intro s a hs
  refine ⟨fun i hi => ?illegal, fun ha => ⟨noteOff_wellFormed ha, noteOn_wellFormed ha⟩,
    fun st d1 d2 port => ⟨fun hp => ?midi, midi_wellFormed⟩⟩
  case illegal =>
    rcases hi with ⟨ha, rfl | ⟨p, v, rfl⟩ | ⟨e, v, rfl⟩⟩ | ⟨ha, rfl⟩
    · exact exec_engine_operandError (i := .noteOff a) rfl hs (addrError_of_illegal ha)
    · exact exec_engine_operandError (e := .illegalAddr) rfl hs
        (by rw [operandError, addrError_of_illegal ha]; rfl)
    · exact exec_engine_operandError (e := .illegalAddr) rfl hs
        (by rw [operandError, addrError_of_illegal ha]; rfl)
    · by_cases hl : LegalAddr a
      · have hd : ¬ addrDefinite a = true := by
          rw [addrDefinite_iff]
          rcases ha with ha | ha | ha | ha
          · exact absurd hl ha
          all_goals omega
        exact exec_engine_operandError (e := .indefiniteAddr) rfl hs
          (by rw [operandError, addrError_of_legal hl, if_neg hd]; rfl)
      · exact exec_engine_operandError (e := .illegalAddr) rfl hs
          (by rw [operandError, addrError_of_illegal hl]; rfl)
  case midi => exact exec_engine_operandError (e := .negativeMidiPort) rfl hs (if_pos hp)

/-! ### Values that are not finite -/

section

variable {α : Type} [Add α] [Sub α] [Mul α] [Div α] [Neg α] [LT α] [LE α] [DecidableLT α]
  [DecidableLE α] [NatCast α] [IntCast α] [∀ n, OfNat α n]

omit [Neg α] in
/-- A rate or an inverse that is not finite faults before the voices, and so does a voice whose pitch is not
finite once the lower voices are recomputed, whatever its cutoff and the voices above it (R265). -/
theorem setSampleRateRule_arithDomain {N : NumOps α} {c : Over.Params α} {w : Word} {e : Over.Engine α}
    (h : allFinite N [toNum N w] = false ∨
      (0 < toNum N w ∧ allFinite N [1 / toNum N w] = false) ∨
      (0 < toNum N w ∧ ∃ (us vs : List (Over.Voice α)) (v : Over.Voice α), e.voices = us ++ v :: vs ∧
        (∀ u ∈ us, ∃ u', recalcBoth N c (1 / toNum N w) u = .ok u') ∧
        allFinite N (pitchArith N (1 / toNum N w) v) = false)) :
    setSampleRateRule N c w e = .error .arithDomain := by
  rcases h with hr | ⟨hpos, hi⟩ | ⟨hpos, us, vs, v, hvs, hus, hv⟩
  · exact ifFinite_error hr _
  · refine ifFinite_arithDomain _ _ ?_
    rw [if_neg (not_not.mpr hpos)]
    exact ifFinite_error hi _
  · refine ifFinite_arithDomain _ _ ?_
    rw [if_neg (not_not.mpr hpos)]
    refine ifFinite_arithDomain _ _ ?_
    rw [hvs, forVoices_error_at vs hus (ifFinite_error hv _)]

/-- Whatever the NUM, a command that leaves no fault on its port leaves only finite values there. -/
theorem execWith_finite {N : NumOps α} {c : Over.Params α} {i : Instr} {s t : Over.State α}
    (h : execWith N c i s = .next t) :
    (i.portOf = .engine → t.engine.fault = none → allFinite N t.engine.nums = true) ∧
      (i.portOf = .filter → t.filter.fault = none → allFinite N t.filter.nums = true) := by
  rcases execWith_cases N c i s with ⟨hp, rule, hr⟩ | ⟨hp, rule, hr⟩
  · obtain ⟨u, hu, _, hfin⟩ := runEngine_next N i rule s
    cases (hr.trans hu).symm.trans h
    exact ⟨fun _ => hfin, fun hp' => by cases hp.symm.trans hp'⟩
  · obtain ⟨u, hu, _, hfin⟩ := runFilter_next N i rule s
    cases (hr.trans hu).symm.trans h
    exact ⟨fun hp' => (by cases hp.symm.trans hp'), fun _ => hfin⟩

end

/-- Settles O17: the VALUE words are checked with the operands, and each rule's values where it computes
them. -/
theorem nonFiniteValueFaults : Obligations.NonFiniteValueFaults := by
  unfold Obligations.NonFiniteValueFaults
  refine ⟨fun s w hw => ⟨fun hs i hi => ?engine, fun hs i hi => ?filter⟩, ?anyNum⟩
  case engine =>
    have hv : valueError [w] = some .nonFiniteValue := valueError_of_mem hw (List.mem_singleton_self w)
    have ho : i.portOf = .engine ∧ operandError i = some .nonFiniteValue := by
      rcases hi with rfl | ⟨p, rfl⟩ | ⟨p, rfl⟩ | ⟨p, a, ha, rfl⟩ | ⟨x, a, ha, rfl⟩
      · exact ⟨rfl, hv⟩
      · exact ⟨rfl, hv⟩
      · exact ⟨rfl, hv⟩
      · exact ⟨rfl, by rw [operandError, addrError_of_legal ha, hv]; rfl⟩
      · exact ⟨rfl, by rw [operandError, addrError_of_legal ha, hv]; rfl⟩
    exact exec_engine_operandError ho.1 hs ho.2
  case filter =>
    have ho : i.portOf = .filter ∧ operandError i = some .nonFiniteValue := by
      rcases hi with ⟨x, y, rfl | rfl | rfl⟩ | ⟨x, rfl | rfl⟩
      all_goals exact ⟨rfl, by rw [operandError, valueError_of_mem hw (by simp)]⟩
    exact exec_filter_operandError ho.1 hs ho.2
  case anyNum =>
    intro α _ _ _ _ _ _ _ _ _ _ _ _ N c s
    refine ⟨fun i t => execWith_finite, fun w hs hw => ?rate, fun key res w hs hk hr hw h => ?coef⟩
    case rate =>
      intro sr h
      exact runEngine_error (i := .setSampleRate w) hs (valueError_singleton hw)
        (setSampleRateRule_arithDomain h)
    case coef => exact runFilter_error hs (fltSetCoef_wellFormed hk hr hw) (ifFinite_error h _)

end Sys2Proof.Machine
end

section
/-! What the rules answer, by the outcome of their loops, and the causes of their faults
(60_exceptions.md R261). -/

namespace Sys2Proof.Machine

/-! ### Identifier tables -/

theorem paramIdOf_eq_cutoff {b : Byte} (h : paramIdOf b = some .cutoff) : b = 7#8 := by
  unfold paramIdOf at h
  split at h
  case h_8 hb => exact BitVec.eq_of_toNat_eq hb
  all_goals cases h

theorem paramIdOf_eq_resonance {b : Byte} (h : paramIdOf b = some .resonance) : b = 8#8 := by
  unfold paramIdOf at h
  split at h
  case h_9 hb => exact BitVec.eq_of_toNat_eq hb
  all_goals cases h

/-! ### SET_SAMPLE_RATE -/

theorem setSampleRateRule_of_nonpos {w : Word} (h : toNum ratNum w ≤ 0) (e : Engine) :
    setSampleRateRule ratNum params w e = .error .badSampleRate := by
  simp only [setSampleRateRule, ifFinite_ratNum, not_lt.mpr h, not_false_iff, if_true]

theorem setSampleRateRule_of_ok {w : Word} {e : Engine} {vs : List Voice} (h : 0 < toNum ratNum w)
    (hvs : forVoices (recalcBoth ratNum params (1 / toNum ratNum w)) e.voices = .ok vs) :
    setSampleRateRule ratNum params w e =
      .ok { e with srInv := 1 / toNum ratNum w, activated := true, voices := vs } := by
  simp only [setSampleRateRule, ifFinite_ratNum, h, not_true, if_false, hvs]

theorem setSampleRateRule_of_error {w : Word} {e : Engine} {code : FaultCode} (h : 0 < toNum ratNum w)
    (hvs : forVoices (recalcBoth ratNum params (1 / toNum ratNum w)) e.voices = .error code) :
    setSampleRateRule ratNum params w e = .error code := by
  simp only [setSampleRateRule, ifFinite_ratNum, h, not_true, if_false, hvs]

/-- Everything SET_SAMPLE_RATE can do (43_scheduler.md R221). -/
theorem setSampleRateRule_cases (w : Word) (e : Engine) :
    (toNum ratNum w ≤ 0 ∧ setSampleRateRule ratNum params w e = .error .badSampleRate) ∨
    (0 < toNum ratNum w ∧ ∃ code, setSampleRateRule ratNum params w e = .error code ∧
      forVoices (recalcBoth ratNum params (1 / toNum ratNum w)) e.voices = .error code) ∨
    (0 < toNum ratNum w ∧ ∃ vs, forVoices (recalcBoth ratNum params (1 / toNum ratNum w)) e.voices = .ok vs ∧
      setSampleRateRule ratNum params w e =
        .ok { e with srInv := 1 / toNum ratNum w, activated := true, voices := vs }) := by
  rcases le_or_gt (toNum ratNum w) 0 with h | h
  · exact .inl ⟨h, setSampleRateRule_of_nonpos h e⟩
  · cases hvs : forVoices (recalcBoth ratNum params (1 / toNum ratNum w)) e.voices with
    | error code => exact .inr (.inl ⟨h, code, setSampleRateRule_of_error h hvs, rfl⟩)
    | ok vs => exact .inr (.inr ⟨h, vs, rfl, setSampleRateRule_of_ok h hvs⟩)

/-! ### The push -/

theorem pushParamsRule_of_ok {e : Engine} {vs : List Voice}
    (h : forVoices (onPlaying (fun _ => true) (pushVoice ratNum params e.p e.srInv)) e.voices = .ok vs) :
    pushParamsRule ratNum params e = .ok { e with voices := vs } := by
  simp only [pushParamsRule, h]

theorem paramSetRule_listed {b : Byte} {id : ParamId} (h : paramIdOf b = some id) (w : Word) (e : Engine) :
    paramSetRule ratNum params b w e =
      pushParamsRule ratNum params { e with p := setParam e.p id (toNum ratNum w) } := by
  simp only [paramSetRule, h, ifFinite_ratNum]

theorem paramWriteRule_listed {b : Byte} {id : ParamId} (h : paramIdOf b = some id) (w : Word) (e : Engine) :
    paramWriteRule ratNum b w e = .ok { e with p := setParam e.p id (toNum ratNum w) } := by
  simp only [paramWriteRule, h, ifFinite_ratNum]

theorem paramIdOf_unlisted {b : Byte} (h : 10 ≤ b.toNat) : paramIdOf b = none := by
  unfold paramIdOf
  split
  case h_11 => rfl
  all_goals omega

/-! ### PARAM_MOD -/

/-- The slot write that PARAM_MOD makes in a voice, where the id has a slot (44_mod_router.md R242). -/
def slotWrite (b : Byte) (w : Word) (e : Engine) : Option (Voice → Except FaultCode Voice) :=
  (paramIdOf b).bind fun id => modVoice ratNum params e.srInv id (toNum ratNum w)

theorem paramModRule_of_none {b : Byte} {w : Word} {e : Engine} (h : slotWrite b w e = none) (a : Addr) :
    paramModRule ratNum params b a w e = .ok e := by
  rw [slotWrite] at h
  simp only [paramModRule, h]

theorem paramModRule_of_ok {b : Byte} {a : Addr} {w : Word} {e : Engine}
    {f : Voice → Except FaultCode Voice} {vs : List Voice} (h : slotWrite b w e = some f)
    (hvs : forVoices (onPlaying (fun v => addressed true (addrIdent a) v.ident) f) e.voices = .ok vs) :
    paramModRule ratNum params b a w e = .ok { e with voices := vs } := by
  rw [slotWrite] at h
  simp only [paramModRule, h, hvs]

theorem paramModRule_of_error {b : Byte} {a : Addr} {w : Word} {e : Engine}
    {f : Voice → Except FaultCode Voice} {code : FaultCode} (h : slotWrite b w e = some f)
    (hvs : forVoices (onPlaying (fun v => addressed true (addrIdent a) v.ident) f) e.voices = .error code) :
    paramModRule ratNum params b a w e = .error code := by
  rw [slotWrite] at h
  simp only [paramModRule, h, hvs]

/-- Everything PARAM_MOD can do (44_mod_router.md R242). -/
theorem paramModRule_cases (b : Byte) (a : Addr) (w : Word) (e : Engine) :
    (slotWrite b w e = none ∧ paramModRule ratNum params b a w e = .ok e) ∨
    ∃ f, slotWrite b w e = some f ∧
      ((∃ code, paramModRule ratNum params b a w e = .error code ∧
        forVoices (onPlaying (fun v => addressed true (addrIdent a) v.ident) f) e.voices = .error code) ∨
      (∃ vs, forVoices (onPlaying (fun v => addressed true (addrIdent a) v.ident) f) e.voices = .ok vs ∧
        paramModRule ratNum params b a w e = .ok { e with voices := vs })) := by
  cases h : slotWrite b w e with
  | none => exact .inl ⟨rfl, paramModRule_of_none h a⟩
  | some f =>
    refine .inr ⟨f, rfl, ?_⟩
    cases hvs : forVoices (onPlaying (fun v => addressed true (addrIdent a) v.ident) f) e.voices with
    | error code => exact .inl ⟨code, paramModRule_of_error h hvs, rfl⟩
    | ok vs => exact .inr ⟨vs, rfl, paramModRule_of_ok h hvs⟩

/-- A slot write faults on an unstable cutoff only: the new one under id 7, the voice's own under id 8. -/
theorem slotWrite_error {b : Byte} {w : Word} {e : Engine} {f : Voice → Except FaultCode Voice} {v : Voice}
    {code : FaultCode} (hf : slotWrite b w e = some f) (h : f v = .error code) :
    code = .unstableCutoff ∧
      ((b = 7#8 ∧ ¬ CutoffStable (v.cutoffBase + toNum ratNum w) e.srInv) ∨
        (b = 8#8 ∧ ¬ CutoffStable (v.cutoffBase + v.cutoffMod) e.srInv)) := by
  obtain ⟨id, hid, hm⟩ := Option.bind_eq_some_iff.mp hf
  cases id <;> cases hm
  case cutoff =>
    obtain ⟨hc, hu⟩ := recalcFilter_error_unstable h
    exact ⟨hc, .inl ⟨paramIdOf_eq_cutoff hid, hu⟩⟩
  case resonance =>
    obtain ⟨hc, hu⟩ := recalcFilter_error_unstable h
    exact ⟨hc, .inr ⟨paramIdOf_eq_resonance hid, hu⟩⟩
  all_goals cases h

/-! ### The causes of the engine port's faults -/

/-- The causes of UNSTABLE_CUTOFF on the engine port (40_filter_unit.md R121): a rate too low for a voice, a
note start, a push, and the two modulations that recompute a filter. -/
def UnstableCause (i : Instr) (e : Engine) : Prop :=
  (∃ w, i = .setSampleRate w ∧ 0 < toNum ratNum w ∧ ∃ v ∈ e.voices,
    1 / 2 ≤ cutoffFreq (v.cutoffBase + v.cutoffMod) * (1 / toNum ratNum w)) ∨
  ((noteStarted i).isSome = true ∧ ¬ CutoffStable e.p.cutoff e.srInv) ∨
  (∃ b id w, i = .paramSet b w ∧ paramIdOf b = some id ∧ ∃ v ∈ e.voices, Playing v ∧
    ¬ CutoffStable ((setParam e.p id (toNum ratNum w)).cutoff + v.cutoffMod) e.srInv) ∨
  (i = .pushParams ∧ ∃ v ∈ e.voices, Playing v ∧ ¬ CutoffStable (e.p.cutoff + v.cutoffMod) e.srInv) ∨
  (∃ a w, i = .paramMod 7#8 a w ∧ ∃ v ∈ e.voices, Playing v ∧ Reaches true (identOf a) v ∧
    ¬ CutoffStable (v.cutoffBase + toNum ratNum w) e.srInv) ∨
  (∃ a w, i = .paramMod 8#8 a w ∧ ∃ v ∈ e.voices, Playing v ∧ Reaches true (identOf a) v ∧
    ¬ CutoffStable (v.cutoffBase + v.cutoffMod) e.srInv)

/-- A playing voice whose sample faults (41_voice.md R163). -/
def StalledVoice (e : Engine) : Prop :=
  ∃ v ∈ e.voices, Playing v ∧ ∃ k sl, k < v.unison ∧ v.slots[k]? = some sl ∧ sl.dphase ≤ 0

/-- The faults of the engine port's rules, each with its cause. -/
theorem engineRule_error_cases {i : Instr} {e : Engine} {code : FaultCode} (h : engineRule i e = .error code) :
    (code = .notActivated ∧ i = .tick ∧ e.activated = false) ∨
    (code = .badSampleRate ∧ ∃ w, i = .setSampleRate w ∧ toNum ratNum w ≤ 0) ∨
    (code = .unstableCutoff ∧ UnstableCause i e) ∨
    (code = .arithDomain ∧ i = .tick ∧ e.activated = true ∧ StalledVoice e) := by
  cases i with
  | setSampleRate w =>
    rcases setSampleRateRule_cases w e with ⟨hw, hr⟩ | ⟨hw, k, hr, hvs⟩ | ⟨_, _, _, hr⟩ <;>
      cases hr.symm.trans h
    · exact .inr (.inl ⟨rfl, w, rfl, hw⟩)
    · obtain ⟨v, hv, he⟩ := forVoices_error hvs
      obtain ⟨hc, _, hf⟩ := recalcBoth_error he
      rw [cutoffHz_eq] at hf
      exact .inr (.inr (.inl ⟨hc, .inl ⟨w, rfl, hw, v, hv, hf⟩⟩))
  | tick =>
    rcases tickRule_cases params e with ⟨ha, hr⟩ | ⟨ha, hr, hvs⟩ | ⟨_, _, _, hr⟩ <;> cases hr.symm.trans h
    · exact .inl ⟨rfl, rfl, ha⟩
    · obtain ⟨v, hv, hp, hslot⟩ := stepVoices_error_slot hvs
      exact .inr (.inr (.inr ⟨rfl, rfl, ha, v, hv, (isPlaying_iff v).mp hp, hslot⟩))
  | noteOn a =>
    obtain ⟨hc, hu⟩ := startNote_error_unstable h
    exact .inr (.inr (.inl ⟨hc, .inr (.inl ⟨rfl, hu⟩)⟩))
  | midi st d1 d2 port =>
    obtain ⟨hc, hn, hu⟩ := midiRule_error_unstable h
    exact .inr (.inr (.inl ⟨hc, .inr (.inl ⟨hn, hu⟩)⟩))
  | paramSet b w =>
    cases hid : paramIdOf b with
    | none => simp only [engineRule, paramSetRule, hid] at h; cases h
    | some id =>
      obtain ⟨hc, hv⟩ := pushParamsRule_error_unstable ((paramSetRule_listed hid w e).symm.trans h)
      exact .inr (.inr (.inl ⟨hc, .inr (.inr (.inl ⟨b, id, w, rfl, hid, hv⟩))⟩))
  | paramWrite b w =>
    cases hid : paramIdOf b with
    | none => simp only [engineRule, paramWriteRule, hid] at h; cases h
    | some id => cases (paramWriteRule_listed hid w e).symm.trans h
  | pushParams =>
    obtain ⟨hc, hv⟩ := pushParamsRule_error_unstable h
    exact .inr (.inr (.inl ⟨hc, .inr (.inr (.inr (.inl ⟨rfl, hv⟩)))⟩))
  | paramMod b a w =>
    rcases paramModRule_cases b a w e with ⟨_, hr⟩ | ⟨f, hf, ⟨k, hr, hvs⟩ | ⟨vs, _, hr⟩⟩ <;>
      cases hr.symm.trans h
    obtain ⟨v, hv, he⟩ := forVoices_error hvs
    obtain ⟨hp, hsel, he⟩ := onPlaying_error he
    have hp := (isPlaying_iff v).mp hp
    have hsel := (addressed_iff true (addrIdent a) v).mp hsel
    obtain ⟨hc, ⟨rfl, hu⟩ | ⟨rfl, hu⟩⟩ := slotWrite_error hf he
    · exact .inr (.inr (.inl ⟨hc, .inr (.inr (.inr (.inr (.inl ⟨a, w, rfl, v, hv, hp, hsel, hu⟩))))⟩))
    · exact .inr (.inr (.inl ⟨hc, .inr (.inr (.inr (.inr (.inr ⟨a, w, rfl, v, hv, hp, hsel, hu⟩))))⟩))
  | noteExpr x a w =>
    simp only [engineRule, noteExprRule, ifFinite_ratNum] at h
    split at h <;> cases h
  | endBlock | noteOff | fltSetCoef | fltSetMode | fltProcess | fltReset => cases h

/-! ### The causes of the filter port's faults -/

/-- The faults of the filter port's rules on well-formed operands, each with its cause. -/
theorem filterRule_error_cases {i : Instr} {f : FilterPort} {code : FaultCode} (hw : i.WellFormed)
    (h : filterRule i f = .error code) :
    (code = .badSampleRate ∧ ∃ key res w, i = .fltSetCoef key res w ∧ toNum ratNum w ≤ 0) ∨
    (code = .unstableCutoff ∧ ∃ key res w, i = .fltSetCoef key res w ∧ 0 < toNum ratNum w ∧
      1 / 2 ≤ cutoffFreq (toNum ratNum key) * toNum ratNum w) ∨
    (code = .filterNotConfigured ∧ ∃ l r, i = .fltProcess l r ∧ f.fu0.coefValid = false) := by
  cases i with
  | fltSetCoef key res w =>
    simp only [filterRule, fltSetCoefRule, ifFinite_ratNum] at h
    rcases setCoefficients_cases params (toNum ratNum key) (toNum ratNum res) (toNum ratNum w) f.fu0 with
      ⟨hs, hr⟩ | ⟨hs, hc, hr⟩ | ⟨_, _, hr⟩ <;> rw [hr] at h <;> cases h
    · exact .inl ⟨rfl, key, res, w, rfl, hs⟩
    · rw [cutoffHz_eq] at hc
      exact .inr (.inl ⟨rfl, key, res, w, rfl, hs, hc⟩)
  | fltSetMode m =>
    cases hm : filterModeOf m.toNat with
    | none =>
      have hbad : operandError (.fltSetMode m) = some .badSub := by rw [operandError, hm]; rfl
      cases hbad.symm.trans hw
    | some mode => simp only [filterRule, fltSetModeRule, hm] at h; cases h
  | fltProcess l r =>
    simp only [filterRule, fltProcessRule, ifFinite_ratNum] at h
    split at h <;> cases h
    next hv => exact .inr (.inr ⟨rfl, l, r, rfl, by simpa using hv⟩)
  | _ => cases h

/-! ### The table of causes -/

/-- A fault of an engine-port command is its operands' or its rule's. -/
theorem exec_engine_fault {i : Instr} {s t : State} {r : FaultRecord} (h : exec i s = .next t)
    (hs : s.engine.fault = none) (ht : t.engine.fault = some r) :
    (∃ e, operandError i = some e ∧ r.code = decodeErrorCode e) ∨ engineRule i s.engine = .error r.code := by
  cases hp : i.portOf with
  | filter =>
    rw [exec_filter_engine hp h, hs] at ht
    cases ht
  | engine =>
    rcases exec_engine_cases hp h with ⟨hf, _⟩ | ⟨_, e, he, rfl⟩ | ⟨_, _, code, hc, rfl⟩ | ⟨_, _, e, he, rfl⟩
    · exact absurd hs hf
    · cases ht
      exact .inl ⟨e, he, rfl⟩
    · cases ht
      exact .inr hc
    · rw [(engineRule_keeps he).1, hs] at ht
      cases ht

/-- A fault of a filter-port command is its operands', or its rule's on well-formed operands. -/
theorem exec_filter_fault {i : Instr} {s t : State} {r : FaultRecord} (h : exec i s = .next t)
    (hs : s.filter.fault = none) (ht : t.filter.fault = some r) :
    (∃ e, operandError i = some e ∧ r.code = decodeErrorCode e) ∨
      (i.WellFormed ∧ filterRule i s.filter = .error r.code) := by
  cases hp : i.portOf with
  | engine =>
    rw [exec_engine_filter hp h, hs] at ht
    cases ht
  | filter =>
    rcases exec_filter_cases hp h with ⟨hf, _⟩ | ⟨_, e, he, rfl⟩ | ⟨_, hw, code, hc, rfl⟩ | ⟨_, _, f, hf, rfl⟩
    · exact absurd hs hf
    · cases ht
      exact .inl ⟨e, he, rfl⟩
    · cases ht
      exact .inr ⟨hw, hc⟩
    · rw [(filterRule_keeps hf).1, hs] at ht
      cases ht

/-- Settles O16: a command's fault is its operands' or its rule's, and each rule's faults have the causes of
`engineRule_error_cases` and `filterRule_error_cases`. -/
theorem faultCodesComeFromTheirCommands : Obligations.FaultCodesComeFromTheirCommands := by
  unfold Obligations.FaultCodesComeFromTheirCommands
  rintro i s t ⟨code, w⟩ h
  refine ⟨fun hs ht => ?engine, fun hs ht => ?filter⟩
  case engine =>
    rcases exec_engine_fault h hs ht with ⟨e, he, rfl⟩ | hr
    · rcases decodeErrorCode_cases e with ⟨hc, hn⟩ | ⟨hc, rfl⟩
      · simp only [hc]
        exact ⟨e, he, hn⟩
      · exact he
    · rcases engineRule_error_cases hr with ⟨rfl, hc⟩ | ⟨rfl, hc⟩ | ⟨rfl, hc⟩ | ⟨rfl, hc⟩
      all_goals exact hc
  case filter =>
    rcases exec_filter_fault h hs ht with ⟨e, he, rfl⟩ | ⟨hw, hr⟩
    · rcases decodeErrorCode_cases e with ⟨hc, hn⟩ | ⟨hc, rfl⟩
      · simp only [hc]
        exact ⟨e, he, hn⟩
      · exact he
    · rcases filterRule_error_cases hw hr with ⟨rfl, hc⟩ | ⟨rfl, hc⟩ | ⟨rfl, hc⟩
      all_goals exact hc

end Sys2Proof.Machine
end

section
/-! The invariant of the block (00_scope.md R13, R14; 10_state.md R34 to R49; 41_voice.md R163). -/

namespace Sys2Proof.Machine

/-! ### What a rule can do to a voice, by the voice operation it runs -/

/-- The voice operation an engine-port rule runs on a voice of its array. -/
inductive VoiceChange (i : Instr) (e : Engine) (v w : Voice) : Prop where
  | same (h : w = v)
  | start (ident : Identity) (hi : noteStarted i = some ident)
      (h : voiceInit ratNum params e.p e.srInv ident v = .ok w)
  | rate (sr : Num) (hs : 0 < sr) (h : recalcBoth ratNum params sr v = .ok w)
  | sample (o : Voice × Num × Num) (h : voiceStep ratNum params e.srInv v = .ok o) (hw : w = o.1)
  | reap (h : w = reapVoice v)
  | release (h : w = voiceRelease v)
  | push (p : ParamFile) (h : pushVoice ratNum params p e.srInv v = .ok w)
  | slot (b : Byte) (x : Word) (f : Voice → Except FaultCode Voice) (hf : slotWrite b x e = some f)
      (h : f v = .ok w)
  | expr (id : ExprId) (x : Num) (h : w = exprVoice ratNum e.srInv id x v)
  | bend (x : Num) (h : w = recalcPitch ratNum e.srInv { v with bend := x })

/-- The loops over the playing voices, at a voice they leave. -/
theorem updPlaying_change {i : Instr} {e : Engine} {sel : Voice → Bool} {f : Voice → Voice} {w : Voice}
    (hf : ∀ v, VoiceChange i e v (f v)) (hw : w ∈ e.voices.map (updPlaying sel f)) :
    ∃ v ∈ e.voices, VoiceChange i e v w := by
  obtain ⟨v, hv, rfl⟩ := List.mem_map.mp hw
  refine ⟨v, hv, ?_⟩
  rcases updPlaying_cases sel f v with ⟨_, _, h⟩ | ⟨_, h⟩
  · exact h ▸ hf v
  · exact .same h

theorem onPlaying_change {i : Instr} {e : Engine} {sel : Voice → Bool} {f : Voice → Except FaultCode Voice}
    {vs : List Voice} {w : Voice} (hf : ∀ v w, f v = .ok w → VoiceChange i e v w)
    (hvs : forVoices (onPlaying sel f) e.voices = .ok vs) (hw : w ∈ vs) :
    ∃ v ∈ e.voices, VoiceChange i e v w := by
  obtain ⟨v, hv, h⟩ := forVoices_mem hvs hw
  refine ⟨v, hv, ?_⟩
  rcases onPlaying_cases h with ⟨_, _, h⟩ | ⟨_, h⟩
  · exact hf v w h
  · exact .same h

theorem pushParamsRule_change {i : Instr} {e e' : Engine} {p : ParamFile} {w : Voice}
    (h : pushParamsRule ratNum params { e with p := p } = .ok e') (hw : w ∈ e'.voices) :
    ∃ v ∈ e.voices, VoiceChange i e v w := by
  obtain ⟨vs, hvs, rfl⟩ := pushParamsRule_ok h
  exact onPlaying_change (e := e) (fun v w h => .push p h) hvs hw

theorem startNote_change {i : Instr} {e e' : Engine} {ident : Identity} {w : Voice}
    (hi : noteStarted i = some ident) (h : startNote ratNum params ident e = .ok e') (hw : w ∈ e'.voices) :
    ∃ v ∈ e.voices, VoiceChange i e v w := by
  have hset : ∀ {j : Nat} {v x : Voice}, e.voices[j]? = some v →
      voiceInit ratNum params e.p e.srInv ident v = .ok x → w ∈ e.voices.set j x →
      ∃ v ∈ e.voices, VoiceChange i e v w := fun hv hx hm => by
    rcases List.mem_or_eq_of_mem_set hm with hm | rfl
    · exact ⟨w, hm, .same rfl⟩
    · exact ⟨_, List.mem_of_getElem? hv, .start ident hi hx⟩
  rcases startNote_cases params ident e with ⟨j, v, _, hv, ⟨_, _, hr⟩ | ⟨x, hx, hr⟩⟩ |
    ⟨_, ⟨_, hr⟩ | ⟨v, hv, ⟨_, _, hr⟩ | ⟨x, hx, hr⟩⟩⟩ <;> cases hr.symm.trans h
  · exact hset hv hx hw
  · rw [drawSteal_frame] at hw
    exact ⟨w, hw, .same rfl⟩
  · exact hset hv hx hw

/-- Every voice an engine-port rule leaves comes from a voice of its array by one voice operation. -/
theorem engineRule_change {i : Instr} {e e' : Engine} (h : engineRule i e = .ok e') {w : Voice}
    (hw : w ∈ e'.voices) : ∃ v ∈ e.voices, VoiceChange i e v w := by
  have same : e'.voices = e.voices → ∃ v ∈ e.voices, VoiceChange i e v w :=
    fun he => ⟨w, he ▸ hw, .same rfl⟩
  cases i with
  | setSampleRate x =>
    rcases setSampleRateRule_cases x e with ⟨_, hr⟩ | ⟨_, _, hr, _⟩ | ⟨hx, vs, hvs, hr⟩ <;>
      cases hr.symm.trans h
    obtain ⟨v, hv, hvw⟩ := forVoices_mem hvs hw
    exact ⟨v, hv, .rate _ (one_div_pos.mpr hx) hvw⟩
  | tick =>
    rcases tickRule_cases params e with ⟨_, hr⟩ | ⟨_, hr, _⟩ | ⟨_, r, hvs, hr⟩ <;> cases hr.symm.trans h
    obtain ⟨j, hj⟩ := List.getElem?_of_mem hw
    have hvs := stepVoices_ok hvs
    have hj' : j < e.voices.length := hvs.length_eq ▸ (List.getElem?_eq_some_iff.mp hj).1
    refine ⟨e.voices[j], List.getElem_mem hj', ?_⟩
    rcases forall₂_getElem? hvs (List.getElem?_eq_getElem hj') hj with ⟨_, hs⟩ | ⟨_, o, ho, hs⟩
    · exact .same hs
    · exact .sample o ho hs
  | endBlock =>
    cases h
    obtain ⟨v, hv, rfl⟩ := List.mem_map.mp hw
    exact ⟨v, hv, .reap rfl⟩
  | noteOn a => exact startNote_change rfl h hw
  | noteOff a =>
    cases h
    exact updPlaying_change (fun _ => .release rfl) hw
  | midi st d1 d2 port =>
    simp only [engineRule, midiRule, ifFinite_ratNum] at h
    split_ifs at h with h0 h1 h2 h3
    · cases h; exact same rfl
    · exact startNote_change ((midi_notes h0).1 h1).1 h hw
    · cases h
      exact updPlaying_change (fun _ => .release rfl) hw
    · cases h
      exact updPlaying_change (fun _ => .bend _ rfl) hw
    · cases h; exact same rfl
  | paramSet b x =>
    cases hid : paramIdOf b with
    | none => simp only [engineRule, paramSetRule, hid] at h; cases h; exact same rfl
    | some id => exact pushParamsRule_change ((paramSetRule_listed hid x e).symm.trans h) hw
  | paramWrite b x =>
    cases hid : paramIdOf b with
    | none => simp only [engineRule, paramWriteRule, hid] at h; cases h; exact same rfl
    | some id => cases (paramWriteRule_listed hid x e).symm.trans h; exact same rfl
  | pushParams => exact pushParamsRule_change (p := e.p) h hw
  | paramMod b a x =>
    rcases paramModRule_cases b a x e with ⟨_, hr⟩ | ⟨f, hf, ⟨_, hr, _⟩ | ⟨vs, hvs, hr⟩⟩ <;>
      cases hr.symm.trans h
    · exact same rfl
    · exact onPlaying_change (fun _ _ hvw => .slot b x f hf hvw) hvs hw
  | noteExpr b a x =>
    simp only [engineRule, noteExprRule, ifFinite_ratNum] at h
    split at h <;> cases h
    · exact same rfl
    · exact updPlaying_change (fun _ => .expr _ _ rfl) hw
  | fltSetCoef | fltSetMode | fltProcess | fltReset => cases h; exact same rfl

/-! ### The ranges of a voice, and its readiness -/

theorem reapVoice_sound {v : Voice} (hv : v.Sound) : (reapVoice v).Sound := by
  unfold reapVoice
  split <;> exact hv

theorem reapVoice_ready {v : Voice} (hv : v.Ready) : (reapVoice v).Ready := by
  unfold reapVoice
  split <;> exact hv

theorem voiceRelease_ready {v : Voice} (hv : v.Ready) : (voiceRelease v).Ready := by
  rw [voiceRelease_frame]
  exact hv

/-- Every voice operation keeps the ranges of a voice's fields. -/
theorem VoiceChange.sound {i : Instr} {e : Engine} {v w : Voice} (h : VoiceChange i e v w)
    (hi : i.WellFormed) (hs : 0 ≤ e.srInv) (hv : v.Sound) : w.Sound := by
  cases h with
  | same h => exact h ▸ hv
  | start ident hn h => exact recalcBoth_sound h (activatedVoice_sound hv (noteStarted_range hi hn))
  | rate sr _ h => exact recalcBoth_sound h hv
  | sample o h hw => exact hw ▸ voiceStep_sound hs hv h
  | reap h => exact h ▸ reapVoice_sound hv
  | release h => exact h ▸ voiceRelease_sound hv
  | push p h => exact pushVoice_sound h hv
  | slot b x f hf h =>
    obtain ⟨id, _, hm⟩ := Option.bind_eq_some_iff.mp hf
    exact modVoice_sound hm h hv
  | expr id x h => exact h ▸ exprVoice_sound hv
  | bend x h => exact h ▸ recalcPitch_sound (v := { v with bend := x }) hv

/-- Every voice operation keeps a voice ready to be stepped, once there is a sample rate. -/
theorem VoiceChange.ready {i : Instr} {e : Engine} {v w : Voice} (h : VoiceChange i e v w)
    (hs : 0 < e.srInv) (hv : v.Ready) : w.Ready := by
  cases h with
  | same h => exact h ▸ hv
  | start ident _ h => exact recalcBoth_ready h hs
  | rate sr hsr h => exact recalcBoth_ready h hsr
  | sample o h hw => exact hw ▸ voiceStep_ready hv h
  | reap h => exact h ▸ reapVoice_ready hv
  | release h => exact h ▸ voiceRelease_ready hv
  | push p h => exact recalcBoth_ready h hs
  | slot b x f hf h =>
    obtain ⟨id, _, hm⟩ := Option.bind_eq_some_iff.mp hf
    exact modVoice_ready hm h hs hv
  | expr id x h => exact h ▸ exprVoice_ready hs hv
  | bend x h => exact h ▸ ⟨hv.1, recalcPitch_ready (v := { v with bend := x }) hs⟩

/-! ### The engine port -/

theorem engineRule_polyCount {i : Instr} {e e' : Engine} (h : engineRule i e = .ok e')
    (hl : e.voices.length = nVoices) (hp : e.polyCount ≤ nVoices) : e'.polyCount ≤ nVoices := by
  by_cases hi : i = .endBlock
  · subst hi
    cases h
    refine hl ▸ List.countP_le_length.trans ?_
    rw [List.length_map]
  · rw [((engineRule_bookkeeping h).1 hi).1]
    exact hp

/-- After SET_SAMPLE_RATE every voice is ready, for each was recomputed (43_scheduler.md R221). -/
theorem setSampleRateRule_ready {x : Word} {e e' : Engine} (h : engineRule (.setSampleRate x) e = .ok e') :
    ∀ w ∈ e'.voices, w.Ready := by
  rcases setSampleRateRule_cases x e with ⟨_, hr⟩ | ⟨_, _, hr, _⟩ | ⟨hx, vs, hvs, hr⟩ <;>
    cases hr.symm.trans h
  intro w hw
  obtain ⟨_, _, hvw⟩ := forVoices_mem hvs hw
  exact recalcBoth_ready hvw (one_div_pos.mpr hx)

/-- Every engine-port rule keeps the invariant of the engine port. -/
theorem engineRule_sound {i : Instr} {e e' : Engine} (h : engineRule i e = .ok e') (hi : i.WellFormed)
    (he : e.Sound) : e'.Sound := by
  obtain ⟨hlength, hvoices, hrate, hactive, hpoly, hready⟩ := he
  have hlength' : e'.voices.length = nVoices := (engineRule_length h).trans hlength
  have hvoices' : ∀ w ∈ e'.voices, w.Sound := fun w hw => by
    obtain ⟨v, hv, hvw⟩ := engineRule_change h hw
    exact hvw.sound hi hrate (hvoices v hv)
  have hpoly' := engineRule_polyCount h hlength hpoly
  rcases engineRule_rate h with ⟨hs, ha, _⟩ | ⟨x, rfl, hx, hs, ha⟩
  · refine ⟨hlength', hvoices', hs ▸ hrate, by rw [hs, ha]; exact hactive, hpoly', fun ha' w hw => ?_⟩
    have ha : e.activated = true := ha ▸ ha'
    obtain ⟨v, hv, hvw⟩ := engineRule_change h hw
    exact hvw.ready (hactive.mp ha) (hready ha v hv)
  · have hpos : 0 < e'.srInv := hs ▸ one_div_pos.mpr hx
    exact ⟨hlength', hvoices', hpos.le, iff_of_true ha hpos, hpoly', fun _ => setSampleRateRule_ready h⟩

/-! ### The filter port -/

theorem setCoefficients_sound {key res sr : Num} {fu fu' : FilterUnit}
    (h : setCoefficients ratNum params key res sr fu = .ok fu') : fu'.Sound := by
  rcases setCoefficients_cases params key res sr fu with ⟨_, hr⟩ | ⟨_, _, hr⟩ | ⟨hs, _, hr⟩ <;>
    cases hr.symm.trans h
  exact withCoefficients_params_sound hs

theorem filterRule_sound {i : Instr} {f f' : FilterPort} (h : filterRule i f = .ok f') (hf : f.fu0.Sound) :
    f'.fu0.Sound := by
  cases i with
  | fltSetCoef key res w =>
    simp only [filterRule, fltSetCoefRule, ifFinite_ratNum] at h
    split at h <;> cases h
    next hc => exact setCoefficients_sound hc
  | fltSetMode m =>
    simp only [filterRule, fltSetModeRule] at h
    split at h <;> cases h
    exact setMode_sound _ hf
  | fltProcess l r =>
    simp only [filterRule, fltProcessRule, ifFinite_ratNum] at h
    split at h <;> cases h
    exact processStereo_sound _ _ hf
  | fltReset => cases h; exact clearState_sound hf
  | _ => cases h; exact hf

/-! ### The block -/

theorem raiseFault_engine_inv {s : State} {c : FaultCode} (hs : s.Inv) (hc : c ≠ .filterNotConfigured)
    (h : Word) : State.Inv (raiseFault .engine c h s) := by
  obtain ⟨he, hf, _, hcodes⟩ := hs
  exact ⟨he, hf, fun r hr => by cases hr; exact hc, hcodes⟩

theorem raiseFault_filter_inv {s : State} {c : FaultCode} (hs : s.Inv)
    (hc : c ≠ .notActivated ∧ c ≠ .arithDomain) (h : Word) : State.Inv (raiseFault .filter c h s) := by
  obtain ⟨he, hf, hcodes, _⟩ := hs
  exact ⟨he, hf, hcodes, fun r hr => by cases hr; exact hc⟩

/-- A decode check raises a code that either port can hold. -/
theorem raiseFault_decodeError_inv {s : State} (hs : s.Inv) (p : Port) (e : DecodeError) (h : Word) :
    State.Inv (raiseFault p (decodeErrorCode e) h s) := by
  have hc : decodeErrorCode e = .illegalCommand ∨ decodeErrorCode e = .nonFiniteValue :=
    (decodeErrorCode_cases e).imp And.left And.left
  cases p with
  | engine => exact raiseFault_engine_inv hs (by rcases hc with hc | hc <;> simp [hc]) h
  | filter => exact raiseFault_filter_inv hs (by rcases hc with hc | hc <;> simp [hc]) h

/-- Every instruction keeps the invariant. -/
theorem exec_inv {i : Instr} {s t : State} (h : exec i s = .next t) (hs : s.Inv) : t.Inv := by
  cases hp : i.portOf with
  | engine =>
    rcases exec_engine_cases hp h with ⟨_, rfl⟩ | ⟨_, e, _, rfl⟩ | ⟨_, _, code, hr, rfl⟩ | ⟨_, hi, e, hr, rfl⟩
    · exact hs
    · exact raiseFault_decodeError_inv hs _ e _
    · refine raiseFault_engine_inv hs ?_ _
      rcases engineRule_error_cases hr with ⟨rfl, _⟩ | ⟨rfl, _⟩ | ⟨rfl, _⟩ | ⟨rfl, _⟩ <;> decide
    · obtain ⟨he, hf, hcodes, hcodes'⟩ := hs
      exact ⟨engineRule_sound hr hi he, hf, (engineRule_keeps hr).1 ▸ hcodes, hcodes'⟩
  | filter =>
    rcases exec_filter_cases hp h with ⟨_, rfl⟩ | ⟨_, e, _, rfl⟩ | ⟨_, hi, code, hr, rfl⟩ | ⟨_, _, f, hr, rfl⟩
    · exact hs
    · exact raiseFault_decodeError_inv hs _ e _
    · refine raiseFault_filter_inv hs ?_ _
      rcases filterRule_error_cases hi hr with ⟨rfl, _⟩ | ⟨rfl, _⟩ | ⟨rfl, _⟩ <;> decide
    · obtain ⟨he, hf, hcodes, hcodes'⟩ := hs
      exact ⟨he, filterRule_sound hr hf, hcodes, (filterRule_keeps hr).1 ▸ hcodes'⟩

theorem consume_inv {s : State} (hs : s.Inv) (p : Port) (n : Nat) : State.Inv (consume p n s) := by
  cases p <;> exact hs

/-- Settles O3: a step runs an instruction, faults a packet in the decoder, or changes nothing. -/
theorem stepKeepsInvariant : Obligations.StepKeepsInvariant := by
  unfold Obligations.StepKeepsInvariant
  intro s t hs h
  rcases step_cases s with ⟨p, _, i, n, _, hr⟩ | ⟨p, _, e, w, n, _, hr⟩ | ⟨_, hr⟩
  · exact exec_inv (hr.symm.trans h) (consume_inv hs p n)
  · cases hr.symm.trans h
    exact raiseFault_decodeError_inv (consume_inv hs p n) p e w
  · cases hr.symm.trans h
    exact hs

/-! ### Reset -/

theorem voice_reset_sound : (Over.Voice.reset : Voice).Sound := by
  have hident : (Over.Voice.reset : Voice).ident.InRange := by unfold Identity.InRange; decide
  have hslots : ∀ sl ∈ (Over.Voice.reset : Voice).slots, 0 ≤ sl.phase ∧ sl.phase < 1 := fun sl h => by
    rw [List.eq_of_mem_replicate h]
    exact ⟨le_refl _, zero_lt_one⟩
  exact ⟨hident, le_refl _, by decide, rfl, hslots, le_refl _, le_refl _, zero_le_one, le_refl _, zero_le_one,
    rfl, fun h => by cases h⟩

/-- Settles O2: the voices, all alike, are in their ranges, there is no sample rate and no fault, and no filter
unit has coefficients. -/
theorem resetMeetsInvariant : Obligations.ResetMeetsInvariant := by
  unfold Obligations.ResetMeetsInvariant
  have hvoices : ∀ v ∈ State.reset.engine.voices, v.Sound := fun v h => by
    rw [List.eq_of_mem_replicate h]
    exact voice_reset_sound
  have hactive : State.reset.engine.activated = true ↔ 0 < State.reset.engine.srInv :=
    iff_of_false (fun h => by cases h) (lt_irrefl 0)
  have hready : State.reset.engine.activated = true → ∀ v ∈ State.reset.engine.voices, v.Ready :=
    fun h => by cases h
  have hfilter : State.reset.filter.fu0.Sound := fun h => by cases h
  have hcodes : State.reset.FaultCodesSound := ⟨fun _ h => (by cases h), fun _ h => by cases h⟩
  exact ⟨⟨rfl, hvoices, le_refl _, hactive, Nat.zero_le _, hready⟩, hfilter, hcodes⟩

/-! ### TICK in the invariant -/

/-- A TICK whose loop over the voices runs to its end. -/
theorem exec_tick_of_ok {s : State} {r : List Voice × Frame} (hs : s.engine.fault = none)
    (ha : s.engine.activated = true)
    (hr : stepVoices ratNum params s.engine.srInv s.engine.voices (zeroFrame params) = .ok r) :
    exec .tick s = .next { s with engine := { s.engine with
      voices := r.1, tickInBlock := s.engine.tickInBlock + 1, audioOut := s.engine.audioOut ++ [r.2] } } := by
  rw [exec_engine rfl]
  refine runEngine_ok hs rfl ?_
  simp only [engineRule, tickRule, ha, if_true, hr]

/-- Settles O4: in the invariant every voice of an activated engine is ready, so no sample faults. -/
theorem tickNeverFaultsInInvariant : Obligations.TickNeverFaultsInInvariant := by
  unfold Obligations.TickNeverFaultsInInvariant
  intro s hinv hs ha
  obtain ⟨⟨_, _, _, _, _, hready⟩, _⟩ := hinv
  obtain ⟨r, hr⟩ := stepVoices_exists (sr := s.engine.srInv) (zeroFrame params)
    fun v hv _ => (hready ha v hv).2
  exact ⟨_, exec_tick_of_ok hs ha hr, hs, rfl⟩

end Sys2Proof.Machine
end

section
/-! What an instruction can do to one voice: envelope transitions (41_voice.md R152), the fields an activation
fixes (R155), and the voices that do not play (R151). -/

namespace Sys2Proof.Machine

/-! ### Envelope transitions -/

/-- A note start takes an OFF voice, or any voice where none is OFF, to ATTACK or HOLD by the attack time. -/
theorem envMoves_start {i : Instr} {e : Engine} {v w : Voice} (hi : (noteStarted i).isSome = true)
    (hv : v.env = .off ∨ ∀ u ∈ e.voices, u.env ≠ .off)
    (hw : w.env = if e.p.ampAttack ≤ 0 then .hold else .attack) : w.env = v.env ∨ EnvMoves i e v w := by
  have stolen : v.env ≠ .off → ∀ u ∈ e.voices, u.env ≠ .off := hv.resolve_left
  by_cases ha : e.p.ampAttack ≤ 0
  · rw [if_pos ha] at hw
    rw [EnvMoves, hw]
    cases he : v.env with
    | off => exact .inr ⟨hi, ha⟩
    | attack => exact .inr (.inr ⟨hi, stolen (by simp [he]), ha⟩)
    | hold => exact .inl rfl
    | releasing | newlyOff => exact .inr ⟨hi, stolen (by simp [he]), ha⟩
  · rw [if_neg ha] at hw
    rw [EnvMoves, hw]
    cases he : v.env with
    | off => exact .inr ⟨hi, not_le.mp ha⟩
    | attack => exact .inl rfl
    | hold | releasing | newlyOff => exact .inr ⟨hi, stolen (by simp [he]), not_le.mp ha⟩

/-- A sample ends an attack or a release at its time. -/
theorem envMoves_tick {e : Engine} {v w : Voice} (hw : w.env = (envStep e.srInv v).env) :
    w.env = v.env ∨ EnvMoves .tick e v w := by
  rw [EnvMoves, hw]
  cases he : v.env with
  | attack =>
    rcases le_or_gt v.attackTime (v.t + e.srInv) with ht | ht
    · rw [envStep_attack_of_le he ht]
      exact .inr (.inl ⟨rfl, ht⟩)
    · rw [envStep_attack_of_lt he ht]
      exact .inl he
  | hold =>
    rw [envStep_hold he]
    exact .inl he
  | releasing =>
    rcases le_or_gt v.releaseTime (v.t + e.srInv) with ht | ht
    · rw [envStep_releasing_of_le he ht]
      exact .inr ⟨rfl, ht⟩
    · rw [envStep_releasing_of_lt he ht]
      exact .inl he
  | off | newlyOff => exact .inl (by simp [envStep, he])

/-- A release takes a voice in ATTACK or HOLD to RELEASING, or straight to NEWLY_OFF at a release time of 0. -/
theorem envMoves_release {i : Instr} {e : Engine} {v w : Voice} (hi : (noteReleased i).isSome = true)
    (hw : w = voiceRelease v) : w.env = v.env ∨ EnvMoves i e v w := by
  rw [EnvMoves, hw]
  by_cases hr : v.releaseTime ≤ 0
  · cases he : v.env with
    | attack | hold => exact .inr (by simpa [voiceRelease, he, hr] using hi)
    | off | releasing | newlyOff => exact .inl (by simp [voiceRelease, he])
  · have hr' := not_le.mp hr
    cases he : v.env with
    | attack | hold => exact .inr (by simpa [voiceRelease, he, hr, hr'] using hi)
    | off | releasing | newlyOff => exact .inl (by simp [voiceRelease, he])

/-- The reap takes a voice from NEWLY_OFF to OFF. -/
theorem envMoves_reap {e : Engine} {v w : Voice} (hw : w = reapVoice v) :
    w.env = v.env ∨ EnvMoves .endBlock e v w := by
  rw [EnvMoves, hw]
  cases he : v.env with
  | newlyOff => exact .inr (by simp [reapVoice, he])
  | off | attack | hold | releasing => exact .inl (by simp [reapVoice, he])

/-- Settles O32: of the things an instruction can do to a voice, only a start, a sample, a release and the reap
move its envelope. -/
theorem envTransitionsAreTabled : Obligations.EnvTransitionsAreTabled := by
  unfold Obligations.EnvTransitionsAreTabled
  intro i s t j v w h hv hw
  cases exec_effect h hv hw with
  | same hs => exact .inl (congrArg _ hs)
  | start ident hi hoff hx => exact envMoves_start (Option.isSome_of_eq_some hi) hoff (voiceInit_env hx)
  | tick hi _ o ho hwo =>
    subst hi hwo
    obtain ⟨_, _, _, _, _, ho1, _⟩ := voiceStep_ok ho
    exact envMoves_tick (by rw [ho1])
  | reap hi hr =>
    subst hi
    exact envMoves_reap hr
  | release a hi _ hr => exact envMoves_release (Option.isSome_of_eq_some hi) hr
  | rate _ _ hr => exact .inl (recalcBoth_tuned hr).env
  | tune _ ht => exact .inl ht.env

/-! ### The fields an activation fixes -/

/-- UNISON, NORM and the pan gains are the same. -/
def SamePan (v w : Voice) : Prop :=
  w.unison = v.unison ∧ w.norm = v.norm ∧ w.slots.map Over.Slot.panL = v.slots.map Over.Slot.panL ∧
    w.slots.map Over.Slot.panR = v.slots.map Over.Slot.panR

theorem SamePan.refl (v : Voice) : SamePan v v := ⟨rfl, rfl, rfl, rfl⟩

/-- The oscillator step writes phases only. -/
theorem oscillate_map {u : Nat} {sls : List Slot} {r : List Slot × List Num} {f : Slot → Num}
    (h : oscillate ratNum u sls = .ok r) (hf : ∀ (sl : Slot) (x : Num), f { sl with phase := x } = f sl) :
    r.1.map f = sls.map f := by
  obtain ⟨_, _, hget⟩ := oscillate_ok h
  apply List.ext_getElem?
  intro i
  rw [List.getElem?_map, List.getElem?_map, hget i, Option.map_map]
  refine congrArg (Option.map · _) (funext fun sl => ?_)
  simp only [Function.comp_apply]
  split
  · exact hf sl _
  · rfl

theorem voiceStep_samePan {sr : Num} {v : Voice} {o : Voice × Num × Num}
    (h : voiceStep ratNum params sr v = .ok o) : SamePan v o.1 := by
  obtain ⟨sls, xs, l, r, hosc, ho1, _⟩ := voiceStep_ok h
  rw [ho1, envStep_frame]
  exact ⟨rfl, rfl, oscillate_map hosc fun _ _ => rfl, oscillate_map hosc fun _ _ => rfl⟩

/-- What does not start a note on a voice keeps the fields an activation fixes. -/
theorem Effect.samePan {i : Instr} {e : Engine} {v w : Voice} (h : Effect i e v w)
    (hi : noteStarted i = none) : SamePan v w := by
  cases h with
  | same hs => exact hs ▸ SamePan.refl v
  | start _ hn => cases hi.symm.trans hn
  | tick _ _ o ho hw => exact hw ▸ voiceStep_samePan ho
  | reap _ hr =>
    rw [hr, reapVoice]
    split <;> exact SamePan.refl v
  | release _ _ _ hr =>
    rw [hr, voiceRelease_frame]
    exact SamePan.refl v
  | rate _ _ hr => exact (recalcBoth_tuned hr).pan
  | tune _ ht => exact ht.pan

/-- A note start leaves every voice but the one it takes. -/
theorem exec_noteStarted_getElem? {i : Instr} {ident : Identity} {s t : State} {j : Nat}
    (hi : noteStarted i = some ident) (h : exec i s = .next t) (hj : j ≠ startIndex s.engine) :
    t.engine.voices[j]? = s.engine.voices[j]? := by
  rcases exec_noteStarted hi h with he | ⟨_, e, he, rfl⟩
  · rw [he]
  · exact startNote_voices he hj

/-- Settles O33: a note start leaves the voices it does not take, and what starts no note keeps the fields an
activation fixes. -/
theorem unisonIsFixedUntilActivation : Obligations.UnisonIsFixedUntilActivation := by
  unfold Obligations.UnisonIsFixedUntilActivation
  intro i s t j v w h hv hw hj
  cases hi : noteStarted i with
  | none => exact (exec_effect h hv hw).samePan hi
  | some ident =>
    rw [exec_noteStarted_getElem? hi h (hj.resolve_left (by simp [hi])), hv] at hw
    cases hw
    exact SamePan.refl v

/-! ### Voices that do not play -/

/-- Settles O59: of the things an instruction can do to a voice, a sample, a release and a tuning are done to
playing voices only. -/
theorem dormantVoicesAreUntouched : Obligations.DormantVoicesAreUntouched := by
  unfold Obligations.DormantVoicesAreUntouched
  intro i s t j v h hn hrate hend hv hp
  have hp : ¬ isPlaying v = true := mt (isPlaying_iff v).mp hp
  have hj : j < t.engine.voices.length :=
    exec_length h ▸ (List.getElem?_eq_some_iff.mp hv).1
  have hw := List.getElem?_eq_getElem hj
  rw [hw]
  cases exec_effect h hv hw with
  | same hs => exact congrArg some hs
  | start _ hi => cases hn.symm.trans hi
  | tick _ hpl => exact absurd hpl hp
  | reap hi => exact absurd hi hend
  | release _ _ hpl => exact absurd hpl hp
  | rate w hi => exact absurd hi (hrate w)
  | tune hpl => exact absurd hpl hp

end Sys2Proof.Machine
end

section
/-! Note-ends (42_voice_pool.md R190) and the block's sample count (10_state.md R40). -/

namespace Sys2Proof.Machine

/-! ### What an instruction leaves of an engine port without a fault -/

/-- An instruction leaves the engine port to the other port's command, records a fault and nothing else, or runs
its rule. -/
theorem exec_engine_outcome {i : Instr} {s t : State} (h : exec i s = .next t) (hs : s.engine.fault = none) :
    (i.portOf = .filter ∧ t.engine = s.engine) ∨
    (∃ r, t.engine = { s.engine with fault := some r }) ∨
    (t.engine.fault = none ∧ engineRule i s.engine = .ok t.engine) := by
  cases hp : i.portOf with
  | filter => exact .inl ⟨rfl, exec_filter_engine hp h⟩
  | engine =>
    rcases exec_engine_cases hp h with ⟨hf, _⟩ | ⟨_, _, _, rfl⟩ | ⟨_, _, _, _, rfl⟩ | ⟨_, _, e, he, rfl⟩
    · exact absurd hs hf
    · exact .inr (.inl ⟨_, rfl⟩)
    · exact .inr (.inl ⟨_, rfl⟩)
    · exact .inr (.inr ⟨(engineRule_keeps he).1.trans hs, he⟩)

/-- Settles O51: of the rules, TICK counts one sample more and END_BLOCK starts again at 0. -/
theorem tickInBlockCountsTicks : Obligations.TickInBlockCountsTicks := by
  unfold Obligations.TickInBlockCountsTicks
  refine ⟨rfl, fun i s t h hs => ?_⟩
  rcases exec_engine_outcome h hs with ⟨hp, he⟩ | ⟨r, he⟩ | ⟨ht, he⟩
  · have htick : i ≠ .tick := fun hi => by cases hi; cases hp
    have hend : i ≠ .endBlock := fun hi => by cases hi; cases hp
    simp [he, hs, htick, hend]
  · simp [he]
  · rw [if_neg (not_not.mpr ht)]
    by_cases htick : i = .tick
    · subst htick
      rcases tickRule_cases params s.engine with ⟨_, hr⟩ | ⟨_, hr, _⟩ | ⟨_, r, _, hr⟩
      · cases hr.symm.trans he
      · cases hr.symm.trans he
      · rw [← Except.ok.inj (hr.symm.trans he), if_pos rfl]
    · rw [if_neg htick]
      by_cases hend : i = .endBlock
      · subst hend
        rw [← Except.ok.inj he, if_pos rfl]
      · rw [if_neg hend, (engineRule_bookkeeping he).2 htick hend]

/-! ### The identities held by voices -/

/-- The identities of the voices that are not OFF. -/
def held (vs : List Voice) : List Identity := (vs.filter (fun v => v.env != .off)).map Over.Voice.ident

theorem noteEndsOwed_eq (e : Engine) :
    noteEndsOwed e = held e.voices ++ e.terminated ++ e.noteEndFifo.map NoteEnd.ident := rfl

theorem held_cons_of_off {v : Voice} (h : v.env = .off) (vs : List Voice) : held (v :: vs) = held vs := by
  simp [held, h]

theorem held_cons_of_ne_off {v : Voice} (h : v.env ≠ .off) (vs : List Voice) :
    held (v :: vs) = v.ident :: held vs := by
  simp [held, h]

/-- Voices that keep their identities, and whether they are OFF, hold the same identities. -/
theorem held_congr {vs ws : List Voice} (hl : ws.length = vs.length)
    (h : ∀ (j : Nat) (v w : Voice), vs[j]? = some v → ws[j]? = some w →
      w.ident = v.ident ∧ (w.env = .off ↔ v.env = .off)) : held ws = held vs := by
  induction vs generalizing ws with
  | nil => rw [List.length_eq_zero_iff.mp hl]
  | cons v vs ih =>
    cases ws with
    | nil => cases hl
    | cons w ws =>
      have hrest : held ws = held vs :=
        ih (Nat.succ.inj hl) fun j v' w' hv hw => h (j + 1) v' w' hv hw
      obtain ⟨hid, hoff⟩ := h 0 v w rfl rfl
      by_cases hv : v.env = .off
      · rw [held_cons_of_off hv, held_cons_of_off (hoff.mpr hv), hrest]
      · rw [held_cons_of_ne_off hv, held_cons_of_ne_off (mt hoff.mp hv), hrest, hid]

/-- Giving a voice of the array to a note: its own identity is held once more, and that of the voice it was is
held no more if that voice was not OFF. -/
theorem held_set {vs : List Voice} {j : Nat} {v w : Voice} (hv : vs[j]? = some v) (hw : w.env ≠ .off) :
    (held (vs.set j w) ++ held [v]).Perm (w.ident :: held vs) := by
  induction vs generalizing j with
  | nil => cases hv
  | cons u us ih =>
    cases j with
    | zero =>
      cases hv
      have hcons : held (v :: us) = held [v] ++ held us := by
        by_cases h : v.env = .off
        · rw [held_cons_of_off h, held_cons_of_off h]; rfl
        · rw [held_cons_of_ne_off h, held_cons_of_ne_off h]; rfl
      rw [List.set_cons_zero, held_cons_of_ne_off hw, hcons]
      exact .cons _ List.perm_append_comm
    | succ j =>
      rw [List.set_cons_succ]
      by_cases hu : u.env = .off
      · rw [held_cons_of_off hu, held_cons_of_off hu]
        exact ih hv
      · rw [held_cons_of_ne_off hu, held_cons_of_ne_off hu]
        exact ((ih hv).cons _).trans (.swap _ _ _)

/-- The identities of the NEWLY_OFF voices. -/
def ended (vs : List Voice) : List Identity := (vs.filter (fun v => v.env == .newlyOff)).map Over.Voice.ident

/-- Reaping gives up the identities of the NEWLY_OFF voices. -/
theorem held_reap (vs : List Voice) : (held (vs.map reapVoice) ++ ended vs).Perm (held vs) := by
  induction vs with
  | nil => exact .refl _
  | cons v vs ih =>
    rw [List.map_cons]
    by_cases hn : v.env = .newlyOff
    · have hoff : (reapVoice v).env = .off := by simp [reapVoice, hn]
      have hended : ended (v :: vs) = v.ident :: ended vs := by simp [ended, hn]
      rw [held_cons_of_off hoff, held_cons_of_ne_off (by simp [hn]), hended]
      exact List.perm_middle.trans (ih.cons _)
    · have hr : reapVoice v = v := by simp [reapVoice, hn]
      have hended : ended (v :: vs) = ended vs := by simp [ended, hn]
      rw [hr, hended]
      by_cases ho : v.env = .off
      · rw [held_cons_of_off ho, held_cons_of_off ho]
        exact ih
      · rw [held_cons_of_ne_off ho, held_cons_of_ne_off ho]
        exact ih.cons _

/-! ### What the rules do to them -/

/-- A sample keeps a playing voice from being OFF. -/
theorem envStep_ne_off {sr : Num} {v : Voice} (hp : isPlaying v = true) : (envStep sr v).env ≠ .off := by
  unfold envStep
  cases he : v.env with
  | attack | releasing => simp only []; split <;> simp
  | hold => simp
  | off | newlyOff => simp [isPlaying, he, envPlaying] at hp

theorem voiceRelease_ne_off {v : Voice} (hp : isPlaying v = true) : (voiceRelease v).env ≠ .off := by
  unfold voiceRelease
  split
  · split <;> simp
  · exact fun he => by simp [isPlaying, he, envPlaying] at hp

theorem isPlaying_ne_off {v : Voice} (hp : isPlaying v = true) : v.env ≠ .off :=
  fun he => by simp [isPlaying, he, envPlaying] at hp

/-- What neither starts a note nor reaps keeps a voice's identity and whether it is OFF. -/
theorem Effect.keeps_held {i : Instr} {e : Engine} {v w : Voice} (h : Effect i e v w)
    (hi : noteStarted i = none) (hend : i ≠ .endBlock) :
    w.ident = v.ident ∧ (w.env = .off ↔ v.env = .off) := by
  cases h with
  | same hs => exact hs ▸ ⟨rfl, .rfl⟩
  | start _ hn => cases hi.symm.trans hn
  | tick _ hp o ho hw =>
    obtain ⟨_, _, _, _, _, ho1, _⟩ := voiceStep_ok ho
    rw [hw, ho1]
    exact ⟨by rw [envStep_frame], iff_of_false (envStep_ne_off hp) (isPlaying_ne_off hp)⟩
  | reap hr => exact absurd hr hend
  | release _ _ hp hr =>
    rw [hr]
    exact ⟨by rw [voiceRelease_frame], iff_of_false (voiceRelease_ne_off hp) (isPlaying_ne_off hp)⟩
  | rate _ _ hr => exact ⟨(recalcBoth_tuned hr).ident, by rw [(recalcBoth_tuned hr).env]⟩
  | tune _ ht => exact ⟨ht.ident, by rw [ht.env]⟩

/-- Only a note start and END_BLOCK write TERMINATED. -/
theorem engineRule_terminated {i : Instr} {e e' : Engine} (h : engineRule i e = .ok e')
    (hi : noteStarted i = none) (hend : i ≠ .endBlock) : e'.terminated = e.terminated := by
  cases i with
  | setSampleRate x =>
    rcases setSampleRateRule_cases x e with ⟨_, hr⟩ | ⟨_, _, hr, _⟩ | ⟨_, _, _, hr⟩ <;> cases hr.symm.trans h
    rfl
  | tick =>
    rcases tickRule_cases params e with ⟨_, hr⟩ | ⟨_, hr, _⟩ | ⟨_, _, _, hr⟩ <;> cases hr.symm.trans h
    rfl
  | endBlock => exact absurd rfl hend
  | noteOn a => cases hi
  | midi st d1 d2 port =>
    simp only [engineRule, midiRule, ifFinite_ratNum] at h
    split_ifs at h with h0 h1
    · cases h; rfl
    · cases ((midi_notes h0).1 h1).1.symm.trans hi
    all_goals cases h; rfl
  | paramSet b x =>
    cases hid : paramIdOf b with
    | none => simp only [engineRule, paramSetRule, hid] at h; cases h; rfl
    | some id =>
      obtain ⟨_, _, rfl⟩ := pushParamsRule_ok ((paramSetRule_listed hid x e).symm.trans h)
      rfl
  | paramWrite b x =>
    cases hid : paramIdOf b with
    | none => simp only [engineRule, paramWriteRule, hid] at h; cases h; rfl
    | some id => cases (paramWriteRule_listed hid x e).symm.trans h; rfl
  | pushParams =>
    obtain ⟨_, _, rfl⟩ := pushParamsRule_ok h
    rfl
  | paramMod b a x =>
    rcases paramModRule_cases b a x e with ⟨_, hr⟩ | ⟨_, _, ⟨_, hr, _⟩ | ⟨_, _, hr⟩⟩ <;> cases hr.symm.trans h
    all_goals rfl
  | noteExpr b a x =>
    simp only [engineRule, noteExprRule, ifFinite_ratNum] at h
    split at h <;> cases h <;> rfl
  | noteOff | fltSetCoef | fltSetMode | fltProcess | fltReset => cases h; rfl

theorem engineRule_owed {i : Instr} {e e' : Engine} (h : engineRule i e = .ok e') (hi : noteStarted i = none)
    (hend : i ≠ .endBlock) : noteEndsOwed e' = noteEndsOwed e := by
  have hheld : held e'.voices = held e.voices :=
    held_congr (engineRule_length h) fun j v w hv hw => (engineRule_effect h hv hw).keeps_held hi hend
  rw [noteEndsOwed_eq, noteEndsOwed_eq, hheld, engineRule_terminated h hi hend,
    ((engineRule_bookkeeping h).1 hend).2]

/-- END_BLOCK moves the stolen identities and those of the NEWLY_OFF voices to NOTE_END_FIFO. -/
theorem endBlockRule_owed {e e' : Engine} (h : endBlockRule e = .ok e') :
    (noteEndsOwed e').Perm (noteEndsOwed e) := by
  cases h
  have hrecords : (blockRecords e).map NoteEnd.ident = e.terminated ++ ended e.voices := by
    simp [blockRecords, ended, Function.comp_def]
  rw [noteEndsOwed_eq, noteEndsOwed_eq, List.map_append, hrecords]
  refine List.perm_iff_count.mpr fun x => ?_
  have hreap := (held_reap e.voices).count_eq x
  simp only [List.count_append, List.count_nil] at hreap ⊢
  omega

/-- A note start adds its own identity: it is held, and the identity it was taken from is in TERMINATED. -/
theorem startNote_owed {ident : Identity} {e e' : Engine} (h : startNote ratNum params ident e = .ok e')
    (hl : e.voices.length = nVoices) : (noteEndsOwed e').Perm (ident :: noteEndsOwed e) := by
  rcases startNote_cases params ident e with ⟨j, v, hf, hv, ⟨_, _, hr⟩ | ⟨w, hw, hr⟩⟩ |
    ⟨hf, ⟨hn, _⟩ | ⟨v, hv, ⟨_, _, hr⟩ | ⟨w, hw, hr⟩⟩⟩
  · cases hr.symm.trans h
  · cases hr.symm.trans h
    obtain ⟨hident, hoff, _⟩ := voiceInit_facts hw
    obtain ⟨_, hv', hoff', _⟩ := freeVoice_some hf
    cases hv.symm.trans hv'
    have hset := held_set hv hoff
    rw [held_cons_of_off hoff', hident] at hset
    rw [noteEndsOwed_eq, noteEndsOwed_eq, List.append_assoc, List.append_assoc]
    exact (List.append_nil _ ▸ hset).append_right _
  · have hlt : (drawSteal e).1.val < e.voices.length := hl.symm ▸ (drawSteal e).1.isLt
    cases (List.getElem?_eq_getElem hlt).symm.trans hn
  · cases hr.symm.trans h
  · cases hr.symm.trans h
    obtain ⟨hident, hoff, _⟩ := voiceInit_facts hw
    have hset := held_set hv hoff
    rw [held_cons_of_ne_off (freeVoice_none hf v (List.mem_of_getElem? hv)), hident] at hset
    rw [noteEndsOwed_eq, noteEndsOwed_eq, drawSteal_frame]
    refine List.perm_iff_count.mpr fun x => ?_
    have hcount := hset.count_eq x
    simp only [List.count_append, List.count_cons, held, List.filter_nil, List.map_nil, List.count_nil]
      at hcount ⊢
    omega

/-- Settles O40: an instruction that starts no note keeps what is owed, or moves it at END_BLOCK, a start adds
one identity, and a fault changes nothing. -/
theorem noteEndsAreConserved : Obligations.NoteEndsAreConserved := by
  unfold Obligations.NoteEndsAreConserved
  intro i s t hl hs h
  have hout := exec_engine_outcome h hs
  refine ⟨fun hend => ?fifo, ?owed⟩
  case fifo =>
    rcases hout with ⟨_, he⟩ | ⟨r, he⟩ | ⟨_, he⟩
    · rw [he]
    · rw [he]
    · exact ((engineRule_bookkeeping he).1 hend).2
  case owed =>
    cases hi : noteStarted i with
    | some ident =>
      obtain ⟨hp, hrule⟩ := noteStarted_rule hi
      refine ⟨fun ht => ?_, fun ht => ?_⟩
      · rcases hout with ⟨hp', _⟩ | ⟨r, he⟩ | ⟨_, he⟩
        · cases hp.symm.trans hp'
        · rw [he] at ht; cases ht
        · rw [hrule] at he
          exact startNote_owed he hl
      · rcases hout with ⟨hp', _⟩ | ⟨r, he⟩ | ⟨ht', _⟩
        · cases hp.symm.trans hp'
        · rw [he]; exact .refl _
        · exact absurd ht' ht
    | none =>
      rcases hout with ⟨_, he⟩ | ⟨r, he⟩ | ⟨_, he⟩
      · rw [he]
      · rw [he]; exact .refl _
      · by_cases hend : i = .endBlock
        · subst hend
          exact endBlockRule_owed he
        · rw [engineRule_owed he hi hend]

end Sys2Proof.Machine
end

section
/-! The voice pool (42_voice_pool.md R191 to R198): note starts, note-offs and pushes. -/

namespace Sys2Proof.Machine

/-! ### Loops over the playing voices that cannot fault -/

/-- A loop over the selected playing voices, at one voice. -/
theorem map_updPlaying_result {vs : List Voice} {sel : Voice → Bool} {f : Voice → Voice} {S : Voice → Prop}
    (hS : ∀ v, sel v = true ↔ S v) {j : Nat} {v : Voice} (hv : vs[j]? = some v) :
    (Playing v ∧ S v → (vs.map (updPlaying sel f))[j]? = some (f v)) ∧
      (¬ (Playing v ∧ S v) → (vs.map (updPlaying sel f))[j]? = some v) := by
  have hsel : (isPlaying v && sel v) = true ↔ Playing v ∧ S v := by
    rw [Bool.and_eq_true, isPlaying_iff, hS]
  rw [List.getElem?_map, hv, Option.map_some]
  refine ⟨fun h => by rw [updPlaying_of (hsel.mpr h)], fun h => ?_⟩
  rw [updPlaying_of_not (Bool.eq_false_iff.mpr (mt hsel.mp h))]

/-- The same with a relation between each voice and what it becomes. -/
theorem map_updPlaying_relates {vs : List Voice} {sel : Voice → Bool} {f : Voice → Voice} {S : Voice → Prop}
    {R : Voice → Voice → Prop} (hS : ∀ v, sel v = true ↔ S v) (hR : ∀ v, R v (f v)) {j : Nat} {v : Voice}
    (hv : vs[j]? = some v) :
    ∃ w, (vs.map (updPlaying sel f))[j]? = some w ∧ (¬ (Playing v ∧ S v) → w = v) ∧
      (Playing v ∧ S v → R v w) := by
  obtain ⟨hyes, hno⟩ := map_updPlaying_result (f := f) hS hv
  by_cases h : Playing v ∧ S v
  · exact ⟨f v, hyes h, fun hn => absurd h hn, fun _ => hR v⟩
  · exact ⟨v, hno h, fun _ => rfl, fun hy => absurd hy h⟩

/-! ### NOTE_OFF -/

/-- Settles O36: NOTE_OFF is a loop over the playing voices that the address reaches. -/
theorem noteOffReleasesMatchingVoices : Obligations.NoteOffReleasesMatchingVoices := by
  unfold Obligations.NoteOffReleasesMatchingVoices
  intro s a hs ha
  have hrun : exec (.noteOff a) s = .next { s with engine := releaseNotes (identOf a) s.engine } := by
    rw [exec_engine rfl]
    exact runEngine_ok hs (noteOff_wellFormed ha) rfl
  exact ⟨_, hrun, List.length_map _,
    fun _ _ hv => map_updPlaying_result (fun v => addressed_iff true (identOf a) v) hv⟩

/-! ### Note starts -/

/-- A note start on the lowest-indexed OFF voice. -/
theorem startNote_of_free {ident : Identity} {e : Engine} {j : Nat} {v w : Voice}
    (hf : freeVoice e.voices = some j) (hv : e.voices[j]? = some v)
    (hw : voiceInit ratNum params e.p e.srInv ident v = .ok w) :
    startNote ratNum params ident e = .ok { e with voices := e.voices.set j w } := by
  simp only [startNote, hf, activateAt, hv, hw]

/-- A note start with no OFF voice, on the voice that is drawn. -/
theorem startNote_of_steal {ident : Identity} {e e₁ : Engine} {d : Fin nVoices} {v w : Voice}
    (hf : freeVoice e.voices = none) (hd : drawSteal e = (d, e₁)) (hv : e.voices[d.val]? = some v)
    (hw : voiceInit ratNum params e.p e.srInv ident v = .ok w) :
    startNote ratNum params ident e =
      .ok { e₁ with terminated := e.terminated ++ [v.ident], voices := e.voices.set d.val w } := by
  have hframe := drawSteal_frame e
  rw [hd] at hframe
  have hvoices : e₁.voices = e.voices := (congrArg Over.Engine.voices hframe :)
  have hp : e₁.p = e.p := (congrArg Over.Engine.p hframe :)
  have hrate : e₁.srInv = e.srInv := (congrArg Over.Engine.srInv hframe :)
  have hterm : e₁.terminated = e.terminated := (congrArg Over.Engine.terminated hframe :)
  simp only [startNote, hf, hd, terminate, activateAt, hvoices, hp, hrate, hterm, hv, hw]

/-- A note start with an unstable cutoff faults, where there is the voice it takes. -/
theorem startNote_of_unstable {ident : Identity} {e : Engine} (hu : ¬ CutoffStable e.p.cutoff e.srInv)
    (hlt : startIndex e < e.voices.length) : startNote ratNum params ident e = .error .unstableCutoff := by
  rcases startNote_cases params ident e with ⟨_, v, _, _, ⟨code, _, hr⟩ | ⟨_, hw, _⟩⟩ |
    ⟨hf, ⟨hn, _⟩ | ⟨v, _, ⟨code, _, hr⟩ | ⟨_, hw, _⟩⟩⟩
  · rw [hr, startNote_error hr]
  · cases (voiceInit_of_unstable hu ident v).symm.trans hw
  · rw [startIndex_eq, hf, Option.getD_none] at hlt
    cases (List.getElem?_eq_getElem hlt).symm.trans hn
  · rw [hr, startNote_error hr]
  · cases (voiceInit_of_unstable hu ident v).symm.trans hw

/-- Settles O34: the lowest-indexed OFF voice is the free one, and its activation is determined. -/
theorem noteOnTakesLowestFreeVoice : Obligations.NoteOnTakesLowestFreeVoice := by
  unfold Obligations.NoteOnTakesLowestFreeVoice
  intro s a j v hs ha hp hc hk hv hoff hlow
  have hfree := freeVoice_eq_some hv hoff hlow
  have hwf := noteOn_wellFormed ha hp hc hk
  rw [exec_engine rfl]
  refine ⟨fun hstable => ?_, fun hunstable => ?_⟩
  · obtain ⟨w, hw, hact⟩ := voiceInit_of_stable (ident := identOf a) (v := v) hstable
    exact ⟨w, hact, runEngine_ok hs hwf (startNote_of_free hfree hv hw)⟩
  · have hlt : startIndex s.engine < s.engine.voices.length := by
      rw [startIndex_eq, hfree]
      exact (List.getElem?_eq_some_iff.mp hv).1
    exact runEngine_error hs hwf (startNote_of_unstable hunstable hlt)

/-- Settles O35: with no OFF voice the draw, which is below 64, decides. -/
theorem noteOnStealsTheDrawnVoice : Obligations.NoteOnStealsTheDrawnVoice := by
  unfold Obligations.NoteOnStealsTheDrawnVoice
  intro s a hs ha hp hc hk hl hoff
  have hnone := freeVoice_eq_none hoff
  have hwf := noteOn_wellFormed ha hp hc hk
  have steal : CutoffStable s.engine.p.cutoff s.engine.srInv → ∀ d e₁, drawSteal s.engine = (d, e₁) →
      ∃ v w : Voice, s.engine.voices[d.val]? = some v ∧
        Activated s.engine.p s.engine.srInv (identOf a) v w ∧
        exec (.noteOn a) s = .next { s with engine := { e₁ with
          terminated := s.engine.terminated ++ [v.ident], voices := s.engine.voices.set d.val w } } := by
    intro hstable d e₁ hd
    have hlt : d.val < s.engine.voices.length := hl.symm ▸ d.isLt
    have hv := List.getElem?_eq_getElem hlt
    obtain ⟨w, hw, hact⟩ := voiceInit_of_stable (ident := identOf a) (v := s.engine.voices[d.val]) hstable
    refine ⟨_, w, hv, hact, ?_⟩
    rw [exec_engine rfl]
    exact runEngine_ok hs hwf (startNote_of_steal hnone hd hv hw)
  refine ⟨fun hstable => ⟨fun d ds hds => ?draw, fun hds => ?free⟩, fun hunstable => ?unstable⟩
  case draw => exact steal hstable d _ (drawSteal_cons hds)
  case free =>
    have hd : drawSteal s.engine = (Config.freeStealChoice s.engine.stealCount,
        { s.engine with stealCount := s.engine.stealCount + 1 }) := by simp only [drawSteal, hds]
    exact ⟨_, steal hstable _ _ hd⟩
  case unstable =>
    rw [exec_engine rfl]
    have hlt : startIndex s.engine < s.engine.voices.length := by
      rw [startIndex_eq, hnone, hl]
      exact (drawSteal s.engine).1.isLt
    exact runEngine_error hs hwf (startNote_of_unstable hunstable hlt)

/-- A note start that completes in a pool of 64 leaves a playing voice with the identity. -/
theorem startNote_playing {ident : Identity} {e e' : Engine} (hl : e.voices.length = nVoices)
    (h : startNote ratNum params ident e = .ok e') : ∃ w ∈ e'.voices, w.ident = ident ∧ Playing w := by
  have hset : ∀ {j : Nat} {v w : Voice}, e.voices[j]? = some v →
      voiceInit ratNum params e.p e.srInv ident v = .ok w →
      ∃ u ∈ e.voices.set j w, u.ident = ident ∧ Playing u := fun {j v w} hv hw => by
    obtain ⟨hident, _, hp⟩ := voiceInit_facts hw
    exact ⟨w, List.mem_set (List.getElem?_eq_some_iff.mp hv).1 w, hident, (isPlaying_iff w).mp hp⟩
  rcases startNote_cases params ident e with ⟨j, v, _, hv, ⟨_, _, hr⟩ | ⟨w, hw, hr⟩⟩ |
    ⟨_, ⟨hn, _⟩ | ⟨v, hv, ⟨_, _, hr⟩ | ⟨w, hw, hr⟩⟩⟩
  · cases hr.symm.trans h
  · cases hr.symm.trans h
    exact hset hv hw
  · have hlt : (drawSteal e).1.val < e.voices.length := hl.symm ▸ (drawSteal e).1.isLt
    cases (List.getElem?_eq_getElem hlt).symm.trans hn
  · cases hr.symm.trans h
  · cases hr.symm.trans h
    exact hset hv hw

/-- Settles O41: in the invariant there are 64 voices, so a start has one to take. -/
theorem noteOnNeverLacksAVoice : Obligations.NoteOnNeverLacksAVoice := by
  unfold Obligations.NoteOnNeverLacksAVoice
  rintro s ⟨⟨hl, _⟩, _⟩
  refine ⟨List.countP_le_length.trans hl.le, fun a t hs hwf h => ?_⟩
  rcases exec_engine_cases rfl h with ⟨hf, _⟩ | ⟨_, _, he, _⟩ | ⟨_, _, code, he, rfl⟩ | ⟨_, _, e, he, rfl⟩
  · exact absurd hs hf
  · cases hwf.symm.trans he
  · obtain rfl := startNote_error he
    exact .inr ⟨_, rfl⟩
  · exact .inl ⟨(engineRule_keeps he).1.trans hs, startNote_playing hl he⟩

/-! ### The push -/

/-- A push with a stable cutoff in every playing voice (42_voice_pool.md R197). -/
theorem pushParamsRule_of_stable {e : Engine}
    (h : ∀ v ∈ e.voices, Playing v → CutoffStable (e.p.cutoff + v.cutoffMod) e.srInv) :
    ∃ vs, pushParamsRule ratNum params e = .ok { e with voices := vs } ∧ vs.length = e.voices.length ∧
      ∀ (j : Nat) (v : Voice), e.voices[j]? = some v → ∃ w : Voice, vs[j]? = some w ∧
        (Playing v → Pushed e.p e.srInv v w) ∧ (¬ Playing v → w = v) := by
  have hbody : ∀ v ∈ e.voices, ∃ w,
      onPlaying (fun _ => true) (pushVoice ratNum params e.p e.srInv) v = .ok w ∧
        ((Playing v ∧ True → Pushed e.p e.srInv v w) ∧ (¬ (Playing v ∧ True) → w = v)) :=
    fun v hv => onPlaying_of_result (R := Pushed e.p e.srInv) (S := fun _ => True) (by simp)
      fun hp _ => pushVoice_of_stable (h v hv hp)
  obtain ⟨vs, hvs, hl, hget⟩ := forVoices_of_result
    (R := fun v w => (Playing v ∧ True → Pushed e.p e.srInv v w) ∧ (¬ (Playing v ∧ True) → w = v)) hbody
  simp only [and_true] at hget
  exact ⟨vs, pushParamsRule_of_ok hvs, hl, hget⟩

/-- Settles O37: the push succeeds in every playing voice, so its loop does. -/
theorem pushReachesPlayingVoices : Obligations.PushReachesPlayingVoices := by
  unfold Obligations.PushReachesPlayingVoices
  intro s hs hstable
  obtain ⟨vs, hvs, hl, hget⟩ := pushParamsRule_of_stable hstable
  refine ⟨vs, ?_, hl, hget⟩
  rw [exec_engine rfl]
  exact runEngine_ok hs rfl hvs

theorem pushVoice_of_unstable {p : ParamFile} {sr : Num} {v : Voice}
    (h : ¬ CutoffStable (p.cutoff + v.cutoffMod) sr) :
    pushVoice ratNum params p sr v = .error .unstableCutoff :=
  recalcBoth_of_unstable h

/-- A push with an unstable cutoff in a playing voice faults. -/
theorem pushParamsRule_of_unstable {e : Engine} {v : Voice} (hv : v ∈ e.voices) (hp : Playing v)
    (h : ¬ CutoffStable (e.p.cutoff + v.cutoffMod) e.srInv) :
    pushParamsRule ratNum params e = .error .unstableCutoff := by
  have hbody : onPlaying (fun _ => true) (pushVoice ratNum params e.p e.srInv) v = .error .unstableCutoff := by
    rw [onPlaying_of (by rw [Bool.and_true, isPlaying_iff]; exact hp), pushVoice_of_unstable h]
  have hloop := forVoices_of_error hv hbody fun v c hc => pushVoice_error (onPlaying_error hc).2.2
  simp only [pushParamsRule, hloop]

/-- Settles O38: the push of that voice faults, so its loop does, and only FAULT is written. -/
theorem unstablePushFaults : Obligations.UnstablePushFaults := by
  unfold Obligations.UnstablePushFaults
  intro s v hs hv hp h
  rw [exec_engine rfl]
  exact runEngine_error hs rfl (pushParamsRule_of_unstable hv hp h)

/-- A second push into a voice that was pushed, or left, changes nothing. -/
theorem onPlaying_push_idem {p : ParamFile} {sr : Num} {v w : Voice}
    (h : onPlaying (fun _ => true) (pushVoice ratNum params p sr) v = .ok w) :
    onPlaying (fun _ => true) (pushVoice ratNum params p sr) w = .ok w := by
  rcases onPlaying_cases h with ⟨hp, _, hw⟩ | ⟨_, rfl⟩
  · have hp' : isPlaying w = true := by rw [isPlaying, (pushVoice_tuned hw).env]; exact hp
    rw [onPlaying_of (by rw [hp']; rfl), pushVoice_idem hw]
  · exact h

/-- Settles O39: a second push of the same parameters is the identity on every voice. -/
theorem secondPushChangesNothing : Obligations.SecondPushChangesNothing := by
  unfold Obligations.SecondPushChangesNothing
  intro s t h ht
  rcases exec_engine_cases rfl h with ⟨hf, rfl⟩ | ⟨_, _, _, rfl⟩ | ⟨_, _, _, _, rfl⟩ | ⟨_, _, e, he, rfl⟩
  · exact absurd ht hf
  · cases ht
  · cases ht
  · obtain ⟨vs, hvs, rfl⟩ := pushParamsRule_ok he
    have hagain := forVoices_idem hvs fun _ _ => onPlaying_push_idem
    exact exec_of_rule_id rfl ht rfl
      (pushParamsRule_of_ok (e := { s.engine with voices := vs }) hagain)

end Sys2Proof.Machine
end

section
/-! The filter unit (40_filter_unit.md). -/

namespace Sys2Proof.Machine

/-! ### Cutoff and coefficients -/

@[simp] theorem coefficientsSet_g (key res sr : Num) (fu : FilterUnit) :
    (coefficientsSet key res sr fu).g = tan (pi * cutoffFreq key * sr) := rfl

/-- The key frequencies of S1 (95_test_vectors.md). -/
theorem keyToHz_values :
    keyToHz ratNum 69 = 440 ∧ keyToHz ratNum 81 = 880 ∧ keyToHz ratNum 57 = 220 ∧
      RoundsTo (keyToHz ratNum 60) 261625565301 9 ∧ RoundsTo (keyToHz ratNum 0) 817579891564 11 ∧
      RoundsTo (keyToHz ratNum 127) 125438539514 7 := by
  unfold RoundsTo
  decide +kernel

/-- The NORM of each unison count (95_test_vectors.md S2). -/
theorem norm_values :
    1 / sqrt 1 = 1 ∧ RoundsTo (1 / sqrt 2) 707106781187 12 ∧ RoundsTo (1 / sqrt 3) 577350269190 12 ∧
      1 / sqrt 4 = 1 / 2 ∧ RoundsTo (1 / sqrt 5) 447213595500 12 ∧
      RoundsTo (1 / sqrt 6) 408248290464 12 ∧ RoundsTo (1 / sqrt 7) 377964473009 12 := by
  unfold RoundsTo
  decide +kernel

/-- The coefficient g of four keys at 48 kHz (95_test_vectors.md V-F1). -/
theorem tan_cutoff_values :
    RoundsTo (tan (pi * cutoffFreq 69 * (1 / 48000))) 28805896209 12 ∧
      RoundsTo (tan (pi * cutoffFreq 200 * (1 / 48000))) 373205080757 11 ∧
      RoundsTo (tan (pi * cutoffFreq (-100) * (1 / 48000))) 654498562953 15 ∧
      RoundsTo (tan (pi * cutoffFreq 129 * (1 / 48000))) 131745134659 11 := by
  unfold RoundsTo
  decide +kernel

theorem panNorm_norm (v : Voice) : (panNorm ratNum v).norm = 1 / sqrt (v.unison : Num) := rfl

/-- Settles O20: the guarded evaluation is the clamp; the worked values are evaluated. -/
theorem cutoffIsClampedKeyFrequency : Obligations.CutoffIsClampedKeyFrequency := by
  unfold Obligations.CutoffIsClampedKeyFrequency
  refine ⟨⟨rfl, rfl⟩, fun c key hc => ?clamp, keyToHz_values, fun v => ?norm, fun fu => ?tan⟩
  case clamp =>
    obtain ⟨_, hle, _⟩ := paramsValid_bounds hc
    exact keyToHzClamped_eq hle
  case norm =>
    obtain ⟨h1, h2, h3, h4, h5, h6, h7⟩ := norm_values
    simp only [panNorm_norm]
    refine ⟨?_, ?_, ?_, ?_, ?_, ?_, ?_⟩ <;> intro hu <;> rw [hu] <;> assumption_mod_cast
  case tan =>
    simp only [coefficientsSet_g]
    exact tan_cutoff_values

/-- Settles O21: g is a tangent of an argument of at least 0, and k is in (0, 2). -/
theorem coefficientsStayStable : Obligations.CoefficientsStayStable := by
  unfold Obligations.CoefficientsStayStable
  intro c key res sr fu fu' hc h
  obtain ⟨hmin, hle, hres, hresLe, hres1, _⟩ := paramsValid_bounds hc
  rcases setCoefficients_cases c key res sr fu with ⟨_, hr⟩ | ⟨_, _, hr⟩ | ⟨hs, _, hr⟩ <;>
    cases hr.symm.trans h
  have hfreq : 0 ≤ cutoffHz ratNum c key := hmin.le.trans (keyToHzClamped_bounds hle).1
  have hg : 0 ≤ tan (pi * cutoffHz ratNum c key * sr) :=
    tan_nonneg (mul_nonneg (mul_nonneg pi_pos.le hfreq) hs.le)
  obtain ⟨hk0, hk2⟩ := damping_bounds hres hresLe hres1 res
  obtain ⟨_, _, _, ha, ha0, ha1, _⟩ := withCoefficients_sound hg hk0 hk2 fu rfl
  obtain ⟨hlo, hhi⟩ := clamp_bounds (x := res) hresLe
  have hk : damping c res = 2 - 2 * clamp res c.resMin c.resMax := rfl
  refine ⟨hk, ?_, ?_, hk0, hg, ha0, ha1, ha⟩ <;> rw [withCoefficients_k, hk] <;> linarith

/-! ### FLT_SETCOEF -/

/-- Settles O22: with a stable cutoff the coefficients are set. -/
theorem fltSetCoefResult : Obligations.FltSetCoefResult := by
  unfold Obligations.FltSetCoefResult
  intro s key res sr hs hkey hres hsr hpos hstable
  rcases setCoefficients_cases params (toNum ratNum key) (toNum ratNum res) (toNum ratNum sr) s.filter.fu0
    with ⟨hle, _⟩ | ⟨_, hge, _⟩ | ⟨_, _, hr⟩
  · exact absurd hpos (not_lt.mpr hle)
  · rw [cutoffHz_eq] at hge
    exact absurd hstable (not_lt.mpr hge)
  · rw [withCoefficients_eq] at hr
    rw [exec_filter rfl]
    refine runFilter_ok hs (fltSetCoef_wellFormed hkey hres hsr) ?_
    simp only [filterRule, fltSetCoefRule, ifFinite_ratNum, hr]

/-- A FLT_SETCOEF whose coefficients are not set faults. -/
theorem exec_fltSetCoef_of_error {s : State} {key res sr : Word} {code : FaultCode} (hs : s.filter.fault = none)
    (hwf : (Instr.fltSetCoef key res sr).WellFormed)
    (h : setCoefficients ratNum params (toNum ratNum key) (toNum ratNum res) (toNum ratNum sr) s.filter.fu0 =
      .error code) :
    exec (.fltSetCoef key res sr) s = .next { s with filter :=
      { s.filter with fault := some ⟨code, headerOf (.fltSetCoef key res sr)⟩ } } := by
  rw [exec_filter rfl]
  refine runFilter_error hs hwf ?_
  simp only [filterRule, fltSetCoefRule, ifFinite_ratNum, h]

/-- Settles O23: the period is checked before the cutoff. -/
theorem fltSetCoefFaults : Obligations.FltSetCoefFaults := by
  unfold Obligations.FltSetCoefFaults
  intro s key res sr hs hkey hres hsr
  have hwf := fltSetCoef_wellFormed hkey hres hsr
  rcases setCoefficients_cases params (toNum ratNum key) (toNum ratNum res) (toNum ratNum sr) s.filter.fu0
    with ⟨hle, hr⟩ | ⟨hpos, _, hr⟩ | ⟨hpos, hlt, _⟩
  · exact ⟨fun _ => exec_fltSetCoef_of_error hs hwf hr, fun hpos => absurd hpos (not_lt.mpr hle)⟩
  · exact ⟨fun hle => absurd hpos (not_lt.mpr hle), fun _ _ => exec_fltSetCoef_of_error hs hwf hr⟩
  · rw [cutoffHz_eq] at hlt
    exact ⟨fun hle => absurd hpos (not_lt.mpr hle), fun _ hge => absurd hlt (not_lt.mpr hge)⟩

/-! ### FLT_SETMODE -/

/-- R100's list is the model's table. -/
theorem filterModeOf_eq (n : Nat) :
    filterModeOf n = [FilterMode.lowpass, .bandpass, .highpass, .notch, .peak, .allpass][n]? := by
  match n with
  | 0 | 1 | 2 | 3 | 4 | 5 => rfl
  | _ + 6 => rfl

theorem filterModeNumber_of_filterModeOf {n : Nat} {m : FilterMode} (h : filterModeOf n = some m) :
    filterModeNumber m = n := by
  match n with
  | 0 | 1 | 2 | 3 | 4 | 5 => cases h; rfl
  | _ + 6 => cases h

/-- Settles O24: a listed mode is set; a number without a mode is an operand error. -/
theorem fltSetModeResult : Obligations.FltSetModeResult := by
  unfold Obligations.FltSetModeResult
  intro s b hs
  refine ⟨fun m hm => ?listed, fun hb => ?unlisted⟩
  case listed =>
    rw [← filterModeOf_eq] at hm
    refine ⟨filterModeNumber_of_filterModeOf hm, ?_⟩
    rw [exec_filter rfl, ← setMode_eq]
    refine runFilter_ok hs ?_ ?_
    · simp [operandError, hm]
    · simp only [filterRule, fltSetModeRule, hm]
  case unlisted =>
    have hnone : filterModeOf b.toNat = none := by
      rw [filterModeOf_eq]
      exact List.getElem?_eq_none hb
    exact exec_filter_operandError rfl hs (e := .badSub) (by simp [operandError, hnone])

/-! ### FLT_PROCESS -/

/-- Settles O25: the two lanes of a sample, or no coefficients. -/
theorem fltProcessResult : Obligations.FltProcessResult := by
  unfold Obligations.FltProcessResult
  intro s l r hs hl hr
  have hwf := fltProcess_wellFormed hl hr
  refine ⟨fun hv => ?_, fun hv => ?_⟩ <;> rw [exec_filter rfl]
  · refine runFilter_ok hs hwf ?_
    simp only [filterRule, fltProcessRule, hv, if_true, ifFinite_ratNum, processStereo, processLane_eq]
  · refine runFilter_error hs hwf ?_
    simp only [filterRule, fltProcessRule, hv, Bool.false_eq_true, if_false]

/-- A FLT_PROCESS with coefficients that completes, in the unit and the last output pair. -/
theorem exec_fltProcess_lanes {s t : State} {l r : Word} (hs : s.NoFault) (hl : FiniteWord l) (hr : FiniteWord r)
    (hv : s.filter.fu0.coefValid = true) (h : exec (.fltProcess l r) s = .next t) :
    t.filter.fu0.left = laneAfter s.filter.fu0 s.filter.fu0.left (toNum ratNum l) ∧
      t.filter.fu0.right = laneAfter s.filter.fu0 s.filter.fu0.right (toNum ratNum r) ∧
      t.filter.filterOut.getLast? = some (laneOut s.filter.fu0 s.filter.fu0.left (toNum ratNum l),
        laneOut s.filter.fu0 s.filter.fu0.right (toNum ratNum r)) := by
  cases ((fltProcessResult s l r hs.2 hl hr).1 hv).symm.trans h
  exact ⟨rfl, rfl, List.getLast?_concat⟩

/-- Settles O26: each lane's integrators and output are functions of the coefficients, the mode, that lane
and its input, all of which the other lane's integrators leave as they are. -/
theorem filterLanesAreIndependent : Obligations.FilterLanesAreIndependent := by
  unfold Obligations.FilterLanesAreIndependent
  intro s s' t t' l r l' r' hs hs' hl hr hl' hr' hv ht ht'
  obtain ⟨hleft, hright, hout⟩ := exec_fltProcess_lanes hs hl hr hv ht
  have run' := fun hv' => exec_fltProcess_lanes hs' hl' hr' hv' ht'
  refine ⟨fun hin hfu => ?_, fun hin hfu => ?_⟩ <;>
    obtain ⟨hleft', hright', hout'⟩ := run' ((congrArg Over.FilterUnit.coefValid hfu :).trans hv)
  · rw [hleft', hleft, hout', hout, ← hfu, hin]
    exact ⟨rfl, rfl⟩
  · rw [hright', hright, hout', hout, ← hfu, hin]
    exact ⟨rfl, rfl⟩

/-! ### The output mixes -/

/-- Settles O27: by the mixes of R128. -/
theorem notchAndPeakAreMixes : Obligations.NotchAndPeakAreMixes := by
  unfold Obligations.NotchAndPeakAreMixes
  intro fu ln x
  refine ⟨?_, ?_, fun m => rfl⟩ <;> simp only [processLane, mixOf] <;> ring

end Sys2Proof.Machine
end

section
/-! The voice (41_voice.md). -/

namespace Sys2Proof.Machine

/-- The second difference of the saw's antiderivative (41_voice.md R163). -/
theorem sawPoly_secondDifference {phi d : Num} (hd : d ≠ 0) :
    (sawPoly phi - 2 * sawPoly (phi - d) + sawPoly (phi - 2 * d)) / (d * d) = 2 * (phi - d) - 1 := by
  simp only [sawPoly]
  field_simp
  ring

/-- Settles O29: without a wrap the saw is a second difference. -/
theorem sawIsNaiveAwayFromWrap : Obligations.SawIsNaiveAwayFromWrap := by
  unfold Obligations.SawIsNaiveAwayFromWrap
  intro phi d
  refine ⟨fun hd hlo hhi => ?_, fun hd => ?_⟩
  · have h1 : wrap ratNum (phi - d) = phi - d := wrap_of_mem (by linarith) (by linarith)
    have h2 : wrap ratNum (phi - 2 * d) = phi - 2 * d := wrap_of_mem (by linarith) (by linarith)
    simp only [dpw, hd, not_true, if_false, h1, h2, ifFinite_ratNum, sawPoly_secondDifference hd.ne']
  · rcases dpw_cases phi d with ⟨_, h⟩ | ⟨hpos, _⟩
    · exact h
    · exact absurd hpos (not_lt.mpr hd)

/-- Settles O30: in the fade the clamp is not reached. -/
theorem bypassAmplitude : Obligations.BypassAmplitude := by
  unfold Obligations.BypassAmplitude
  intro c v hc hb
  obtain ⟨_, _, _, _, _, hfrac, _⟩ := paramsValid_bounds hc
  refine ⟨?full, fun he => ?silent, fun he hpos => ⟨fun hlt => ?before, fun hge hle => ?fade⟩⟩
  case full => rintro (he | he) <;> simp only [amplitude, hb, he, if_true]
  case silent => simp only [amplitude, hb, he, if_true]
  case before => simp only [amplitude, hb, he, hlt, if_true]
  case fade =>
    have hden : 0 < c.bypassFadeFrac * v.releaseTime := mul_pos hfrac hpos
    have h0 : 0 ≤ (v.releaseTime - v.t) / (c.bypassFadeFrac * v.releaseTime) :=
      div_nonneg (sub_nonneg.mpr hle) hden.le
    have h1 : (v.releaseTime - v.t) / (c.bypassFadeFrac * v.releaseTime) ≤ 1 :=
      (div_le_one hden).mpr (by linarith)
    simp only [amplitude, hb, he, if_true, not_lt.mpr hge, if_false, clamp_of_mem h0 h1]

/-- A sample keeps the two modulation slots of the gain. -/
theorem voiceStep_gain {c : Params} {sr : Num} {v : Voice} {o : Voice × Num × Num}
    (h : voiceStep ratNum c sr v = .ok o) : o.1.vcaMod = v.vcaMod ∧ o.1.volExpr = v.volExpr := by
  obtain ⟨_, _, _, _, _, ho, _⟩ := voiceStep_ok h
  rw [ho, envStep_frame]
  exact ⟨rfl, rfl⟩

theorem laneOut_rest (fu : FilterUnit) : laneOut fu ⟨0, 0⟩ 0 = 0 := by
  cases hm : fu.mode <;> simp [laneOut, hm]

/-- Settles O31: both lanes are at rest and the gain makes their inputs 0. -/
theorem zeroGainVoiceIsSilent : Obligations.ZeroGainVoiceIsSilent := by
  unfold Obligations.ZeroGainVoiceIsSilent
  intro c srInv v o hgain hleft hright h
  obtain ⟨_, hout⟩ := voiceStep_lanes h
  obtain ⟨hmod, hexpr⟩ := voiceStep_gain h
  have hin : ∀ pan, filterInput c o.1 pan = 0 := fun pan => by
    rw [filterInput, hmod, hexpr, hgain, mul_zero, mul_zero]
  rw [hout, hin, hin, hleft, hright, laneOut_rest]

end Sys2Proof.Machine
end

section
/-! SET_SAMPLE_RATE and TICK (43_scheduler.md R221 to R223). -/

namespace Sys2Proof.Machine

/-! ### SET_SAMPLE_RATE -/

/-- A frequency is stable at a rate above twice it (40_filter_unit.md R121). -/
theorem mul_one_div_lt_half_iff {f sr : Num} (h : 0 < sr) : f * (1 / sr) < 1 / 2 ↔ 2 * f < sr := by
  rw [mul_one_div, div_lt_div_iff₀ h two_pos, one_mul, mul_comm f 2]

theorem cutoffFreq_le_max (key : Num) : cutoffFreq key ≤ params.cutoffHzMax :=
  (clamp_bounds (paramsValid_bounds params_valid).2.1).2

/-- A stable voice of SET_SAMPLE_RATE is recomputed. -/
theorem recalcBoth_repitched {sr : Num} {v : Voice} (hsr : 0 < sr)
    (h : cutoffFreq (v.cutoffBase + v.cutoffMod) * sr < 1 / 2) :
    ∃ w, recalcBoth ratNum params sr v = .ok w ∧ Repitched sr
      { v with flt := coefficientsSet (v.cutoffBase + v.cutoffMod) (v.resBase + v.resMod) sr v.flt } w := by
  have hrecomputed : filterRecomputed (v.cutoffBase + v.cutoffMod) (v.resBase + v.resMod) sr v.flt =
      coefficientsSet (v.cutoffBase + v.cutoffMod) (v.resBase + v.resMod) sr v.flt := if_pos hsr
  exact ⟨_, recalcBoth_of_stable fun _ => h, hrecomputed ▸ (recalcPitch_repitched sr v).flt⟩

/-- Settles O42: every voice is stable, so every recomputation succeeds. -/
theorem setSampleRateRecomputesEveryVoice : Obligations.SetSampleRateRecomputesEveryVoice := by
  unfold Obligations.SetSampleRateRecomputesEveryVoice
  intro s w hs hw hpos hrate
  have hstable : ∀ v ∈ s.engine.voices,
      cutoffFreq (v.cutoffBase + v.cutoffMod) * (1 / toNum ratNum w) < 1 / 2 := fun v hv => by
    rcases hrate with hrate | hrate
    · rw [mul_one_div_lt_half_iff hpos]
      linarith [cutoffFreq_le_max (v.cutoffBase + v.cutoffMod)]
    · exact hrate v hv
  obtain ⟨vs, hvs, hl, hget⟩ := forVoices_of_result fun v hv =>
    recalcBoth_repitched (one_div_pos.mpr hpos) (hstable v hv)
  refine ⟨vs, ?_, hl, hget⟩
  rw [exec_engine rfl]
  exact runEngine_ok hs (valueError_singleton hw) (setSampleRateRule_of_ok hpos hvs)

/-- Settles O43: the rate is checked first, and then an unstable voice faults the loop. -/
theorem setSampleRateFaults : Obligations.SetSampleRateFaults := by
  unfold Obligations.SetSampleRateFaults
  intro s w hs hw
  have fails : ∀ code, setSampleRateRule ratNum params w s.engine = .error code →
      exec (.setSampleRate w) s = .next { s with engine :=
        { s.engine with fault := some ⟨code, headerOf (.setSampleRate w)⟩ } } := fun code hr => by
    rw [exec_engine rfl]
    exact runEngine_error hs (valueError_singleton hw) hr
  refine ⟨fun hle => fails _ (setSampleRateRule_of_nonpos hle _), fun v hv hpos hlow => fails _ ?_⟩
  have hunstable : ¬ CutoffStable (v.cutoffBase + v.cutoffMod) (1 / toNum ratNum w) := fun hstable =>
    absurd ((mul_one_div_lt_half_iff hpos).mp (hstable (one_div_pos.mpr hpos))) (not_lt.mpr hlow)
  exact setSampleRateRule_of_error hpos
    (forVoices_of_error hv (recalcBoth_of_unstable hunstable) fun _ _ h => (recalcBoth_error h).1)

/-! ### TICK -/

/-- What a sample writes of a voice (41_voice.md R162, R167). -/
theorem voiceStep_frame {c : Params} {sr : Num} {v : Voice} {o : Voice × Num × Num}
    (h : voiceStep ratNum c sr v = .ok o) :
    o.1 = { v with
      env := o.1.env, t := o.1.t, level := o.1.level, releaseFrom := o.1.releaseFrom
      slots := o.1.slots, flt := { v.flt with left := o.1.flt.left, right := o.1.flt.right } } ∧
    o.1.slots.length = v.slots.length ∧
    ∀ i sl, v.slots[i]? = some sl → o.1.slots[i]? = some
      (if i < v.unison then { sl with phase := wrap ratNum (sl.phase + sl.dphase) } else sl) := by
  obtain ⟨sls, xs, l, r, hosc, ho, _⟩ := voiceStep_ok h
  obtain ⟨hl, _, hslot⟩ := oscillate_ok hosc
  rw [ho]
  refine ⟨?_, hl, fun i sl hsl => ?_⟩
  · rw [envStep_frame]
    rfl
  · show sls[i]? = _
    rw [hslot, hsl, Option.map_some]

/-- Settles O44: with positive increments every sample succeeds. -/
theorem tickStepsPlayingVoices : Obligations.TickStepsPlayingVoices := by
  unfold Obligations.TickStepsPlayingVoices
  intro s hs ha hpos
  obtain ⟨r, hr⟩ := stepVoices_exists (c := params) (sr := s.engine.srInv) (zeroFrame params)
    fun v hv hp => hpos v hv ((isPlaying_iff v).mp hp)
  refine ⟨r.1, r.2, exec_tick_of_ok hs ha hr, ?_, (stepVoices_ok hr).length_eq.symm, fun j v hv => ?_⟩
  · rw [stepVoices_frame_length hr, zeroFrame, List.length_replicate]
  · obtain ⟨hdormant, hstep⟩ := stepVoices_getElem? hr hv
    by_cases hp : Playing v
    · obtain ⟨o, ho, hget⟩ := hstep hp
      exact ⟨o.1, hget, fun hn => absurd hp hn, fun _ => voiceStep_frame ho⟩
    · exact ⟨v, hdormant hp, fun _ => rfl, fun h => absurd h hp⟩

/-- An oscillator step that succeeds had a positive increment in every active copy (41_voice.md R163). -/
theorem oscillate_increment_pos {u : Nat} {sls : List Slot} {r : List Slot × List Num}
    (h : oscillate ratNum u sls = .ok r) {i : Nat} {sl : Slot} (hi : i < u) (hsl : sls[i]? = some sl) :
    0 < sl.dphase := by
  induction u generalizing sls r i with
  | zero => exact absurd hi (Nat.not_lt_zero i)
  | succ u ih =>
    cases sls with
    | nil => cases hsl
    | cons x xs =>
      simp only [oscillate, ifFinite_ratNum] at h
      rcases dpw_cases (wrap ratNum (x.phase + x.dphase)) x.dphase with ⟨_, hd⟩ | ⟨hpos, y, hd⟩ <;> rw [hd] at h
      · cases h
      · cases i with
        | zero => cases hsl; exact hpos
        | succ i =>
          cases ho : oscillate ratNum u xs with
          | error code => rw [ho] at h; cases h
          | ok q => exact ih ho (Nat.lt_of_succ_lt_succ hi) hsl

/-- A TICK's loop that succeeds had a positive increment in every active copy of a playing voice. -/
theorem stepVoices_increment_pos {c : Params} {sr : Num} {vs : List Voice} {acc : Frame}
    {r : List Voice × Frame} (h : stepVoices ratNum c sr vs acc = .ok r) {v : Voice} (hv : v ∈ vs)
    (hp : Playing v) {i : Nat} {sl : Slot} (hi : i < v.unison) (hsl : v.slots[i]? = some sl) :
    0 < sl.dphase := by
  obtain ⟨j, hj⟩ := List.getElem?_of_mem hv
  obtain ⟨o, ho, _⟩ := (stepVoices_getElem? h hj).2 hp
  obtain ⟨_, _, _, _, hosc, _⟩ := voiceStep_ok ho
  exact oscillate_increment_pos hosc hi hsl

/-- Settles O48: the rule faults before activation, and in the loop where a copy cannot be advanced. -/
theorem tickFaults : Obligations.TickFaults := by
  unfold Obligations.TickFaults
  intro s hs
  have fails : ∀ code, tickRule ratNum params s.engine = .error code → exec .tick s = .next { s with engine :=
      { s.engine with fault := some ⟨code, headerOf .tick⟩ } } := fun code hr => by
    rw [exec_engine rfl]
    exact runEngine_error hs rfl hr
  rcases tickRule_cases params s.engine with ⟨hna, hr⟩ | ⟨ha, hr, _⟩ | ⟨ha, r, hr, _⟩
  · exact ⟨fun _ => fails _ hr, fun _ _ _ _ ha => (by cases hna.symm.trans ha)⟩
  · exact ⟨fun hna => (by cases ha.symm.trans hna), fun _ _ _ _ _ _ _ _ _ => fails _ hr⟩
  · exact ⟨fun hna => (by cases ha.symm.trans hna), fun v hv i sl _ hp hi hsl hle =>
      absurd (stepVoices_increment_pos hr hv hp hi hsl) (not_lt.mpr hle)⟩

/-! ### The frame of a TICK -/

/-- A sum over the selected elements of one list, read off a list related to it. -/
theorem map_filter_zip {R : Voice → Voice → Prop} {sel : Voice → Bool} {f : Voice × Voice → Num} {g : Voice → Num}
    {vs ws : List Voice} (h : List.Forall₂ R vs ws) (hfg : ∀ v w, R v w → sel v = true → f (v, w) = g v) :
    ((vs.zip ws).filter fun q => sel q.1).map f = (vs.filter sel).map g := by
  induction h with
  | nil => rfl
  | @cons v w vs ws hvw _ ih =>
    cases hs : sel v with
    | false => simpa [hs] using ih
    | true => simpa [hs, hfg v w hvw hs] using ih

/-- A playing voice becomes the voice of its sample at a TICK (43_scheduler.md R222). -/
def Sampled (c : Params) (sr : Num) (v w : Voice) : Prop :=
  isPlaying v = true → ∃ o, voiceStep ratNum c sr v = .ok o ∧ w = o.1

theorem stepVoices_sampled {c : Params} {sr : Num} {vs : List Voice} {acc : Frame} {r : List Voice × Frame}
    (h : stepVoices ratNum c sr vs acc = .ok r) : List.Forall₂ (Sampled c sr) vs r.1 := by
  refine (stepVoices_ok h).imp fun v w hvw hp => ?_
  rcases hvw with ⟨hn, _⟩ | ⟨_, ho⟩
  · cases hn.symm.trans hp
  · exact ho

/-- The filter lanes a playing voice has after a TICK. -/
theorem Sampled.lanes {c : Params} {sr : Num} {v w : Voice} (h : Sampled c sr v w) (hp : isPlaying v = true) :
    w.flt.left = laneAfter v.flt v.flt.left (filterInput c w Over.Slot.panL) ∧
      w.flt.right = laneAfter v.flt v.flt.right (filterInput c w Over.Slot.panR) := by
  obtain ⟨o, ho, rfl⟩ := h hp
  obtain ⟨hflt, _⟩ := voiceStep_lanes ho
  rw [hflt]
  exact ⟨rfl, rfl⟩

/-- The sample of a playing voice, from the voice after the TICK. -/
theorem Sampled.sample {c : Params} {sr : Num} {v w : Voice} (h : Sampled c sr v w) (hp : isPlaying v = true) :
    (laneOut v.flt v.flt.left (filterInput c w Over.Slot.panL),
      laneOut v.flt v.flt.right (filterInput c w Over.Slot.panR)) = sampleOf c sr v := by
  obtain ⟨o, ho, rfl⟩ := h hp
  obtain ⟨_, hout⟩ := voiceStep_lanes ho
  simp only [sampleOf, ho, ← hout]

/-- A TICK that leaves no fault ran its loop and sent the loop's frame. -/
theorem exec_tick_ok {s t : State} (h : exec .tick s = .next t) (hs : s.engine.fault = none)
    (ht : t.engine.fault = none) :
    ∃ r, stepVoices ratNum params s.engine.srInv s.engine.voices (zeroFrame params) = .ok r ∧
      t.engine = { s.engine with
        voices := r.1, tickInBlock := s.engine.tickInBlock + 1, audioOut := s.engine.audioOut ++ [r.2] } := by
  rcases exec_engine_outcome h hs with ⟨hp, _⟩ | ⟨_, hf⟩ | ⟨_, he⟩
  · cases hp
  · rw [hf] at ht
    cases ht
  · rcases tickRule_cases params s.engine with ⟨_, hr⟩ | ⟨_, hr, _⟩ | ⟨_, r, hr, hok⟩
    · cases hr.symm.trans he
    · cases hr.symm.trans he
    · exact ⟨r, hr, (Except.ok.inj (hok.symm.trans he)).symm⟩

/-- The frame of a TICK, with two channels: the sums of the samples. -/
theorem stepVoices_frame_pair {sr : Num} {vs : List Voice} {r : List Voice × Frame}
    (h : stepVoices ratNum params sr vs (zeroFrame params) = .ok r) :
    r.2 = [((vs.filter isPlaying).map fun v => (sampleOf params sr v).1).sum,
      ((vs.filter isPlaying).map fun v => (sampleOf params sr v).2).sum] := by
  rw [stepVoices_frame h]
  refine (accumulate_pair _ 0 0).trans ?_
  rw [zero_add, zero_add, List.map_map, List.map_map]
  rfl

/-- Settles O46: the frame is the sum of the samples, and each sample is that of the voice's lanes. -/
theorem tickEmitsTheMixedFrame : Obligations.TickEmitsTheMixedFrame := by
  unfold Obligations.TickEmitsTheMixedFrame
  intro s t hs h ht pairs
  obtain ⟨r, hr, hengine⟩ := exec_tick_ok h hs ht
  have hvs : List.Forall₂ (Sampled params s.engine.srInv) s.engine.voices t.engine.voices := by
    rw [hengine]
    exact stepVoices_sampled hr
  refine ⟨?_, fun q hq => ?_⟩
  · have hleft := map_filter_zip (f := fun q => laneOut q.1.flt q.1.flt.left (filterInput params q.2 Over.Slot.panL))
      hvs fun _ _ hvw hp => congrArg Prod.fst (hvw.sample hp)
    have hright := map_filter_zip (f := fun q => laneOut q.1.flt q.1.flt.right (filterInput params q.2 Over.Slot.panR))
      hvs fun _ _ hvw hp => congrArg Prod.snd (hvw.sample hp)
    rw [hengine, stepVoices_frame_pair hr, ← hleft, ← hright]
  · obtain ⟨hmem, hp⟩ := List.mem_filter.mp hq
    obtain ⟨hleft, hright⟩ := ((List.forall₂_iff_zip.mp hvs).2 hmem).lanes hp
    exact ⟨hleft, hright⟩

end Sys2Proof.Machine
end

section
/-! The parameter commands and the pitch-bend (43_scheduler.md R227 to R233). -/

namespace Sys2Proof.Machine

/-! ### PARAM_WRITE and PARAM_SET -/

theorem exec_paramWrite_listed {s : State} {b : Byte} {id : ParamId} {w : Word} (hs : s.engine.fault = none)
    (hw : FiniteWord w) (hid : paramIdOf b = some id) :
    exec (.paramWrite b w) s = .next { s with engine := { s.engine with
      p := setParam s.engine.p id (toNum ratNum w) } } := by
  rw [exec_engine rfl]
  exact runEngine_ok hs (valueError_singleton hw) (paramWriteRule_listed hid w s.engine)

theorem exec_paramWrite_unlisted {s : State} {b : Byte} {w : Word} (hs : s.engine.fault = none)
    (hw : (Instr.paramWrite b w).WellFormed) (hb : 10 ≤ b.toNat) : exec (.paramWrite b w) s = .next s := by
  refine exec_of_rule_id rfl hs hw ?_
  simp only [engineRule, paramWriteRule, paramIdOf_unlisted hb]

theorem exec_paramSet_unlisted {s : State} {b : Byte} {w : Word} (hs : s.engine.fault = none)
    (hw : (Instr.paramSet b w).WellFormed) (hb : 10 ≤ b.toNat) : exec (.paramSet b w) s = .next s := by
  refine exec_of_rule_id rfl hs hw ?_
  simp only [engineRule, paramSetRule, paramIdOf_unlisted hb]

theorem paramIdOf_listed {b : Byte} (h : b.toNat ≤ 9) : ∃ id, paramIdOf b = some id := by
  unfold paramIdOf
  interval_cases b.toNat <;> exact ⟨_, rfl⟩

/-- The word of -0.0 (60_exceptions.md R266). -/
theorem toNum_negZero : toNum ratNum 0x8000000000000000#64 = 0 := by decide +kernel

/-- Settles O52: each listed id's write, by number. -/
theorem paramWriteResult : Obligations.ParamWriteResult := by
  unfold Obligations.ParamWriteResult
  intro s b w hs hw wrote q x
  have listed : ∀ b id, paramIdOf b = some id → exec (.paramWrite b w) s = wrote (setParam q id x) :=
    fun b id hid => by
      rw [exec_paramWrite_listed hs hw hid, toNum_eq_wordValue]
  refine ⟨listed 0#8 .unisonCount rfl, listed 1#8 .unisonSpread rfl, listed 2#8 .oscDetune rfl,
    listed 3#8 .ampAttack rfl, listed 4#8 .ampRelease rfl, listed 5#8 .ampEnvBypass rfl,
    listed 6#8 .preFilterVca rfl, listed 7#8 .cutoff rfl, listed 8#8 .resonance rfl,
    listed 9#8 .filterMode rfl, exec_paramWrite_unlisted hs (valueError_singleton hw), ?negZero,
    toNum_eq_wordValue w⟩
  have hfinite : FiniteWord 0x8000000000000000#64 := by unfold FiniteWord; decide
  rw [exec_paramWrite_listed (id := .cutoff) hs hfinite rfl, toNum_negZero]
  rfl

theorem exec_paramSet_listed {s : State} {b : Byte} {id : ParamId} {w : Word} {e : Engine}
    (hs : s.engine.fault = none) (hw : FiniteWord w) (hid : paramIdOf b = some id)
    (h : pushParamsRule ratNum params { s.engine with p := setParam s.engine.p id (toNum ratNum w) } = .ok e) :
    exec (.paramSet b w) s = .next { s with engine := e } := by
  rw [exec_engine rfl]
  exact runEngine_ok hs (valueError_singleton hw) ((paramSetRule_listed hid w s.engine).trans h)

/-- Settles O53: PARAM_SET runs the push on the engine that PARAM_WRITE leaves. -/
theorem paramSetIsWriteThenPush : Obligations.ParamSetIsWriteThenPush := by
  unfold Obligations.ParamSetIsWriteThenPush
  intro s u t b w hs hw
  refine ⟨exec_paramSet_unlisted hs (valueError_singleton hw), fun hb hu ht => ?_⟩
  obtain ⟨id, hid⟩ := paramIdOf_listed hb
  cases (exec_paramWrite_listed hs hw hid).symm.trans hu
  rcases exec_engine_cases rfl ht with ⟨hf, _⟩ | ⟨_, _, he, _⟩ | ⟨_, _, code, he, rfl⟩ | ⟨_, _, e, he, rfl⟩
  · exact absurd hs hf
  · cases he
  · refine ⟨fun h => (by cases h), fun _ => ?_⟩
    obtain rfl := pushParamsRule_error he
    rw [exec_engine rfl]
    exact runEngine_error hs (valueError_singleton hw) ((paramSetRule_listed hid w s.engine).trans he)
  · exact ⟨fun _ => exec_paramSet_listed hs hw hid he, fun h => absurd ((engineRule_keeps he).1.trans hs) h⟩

/-- Settles O54: the push of the engine with the parameter stored. -/
theorem paramSetCompletes : Obligations.ParamSetCompletes := by
  unfold Obligations.ParamSetCompletes
  intro s b id w hs hw hid hstable
  obtain ⟨vs, hvs, hl, hget⟩ :=
    pushParamsRule_of_stable (e := { s.engine with p := setParam s.engine.p id (toNum ratNum w) }) hstable
  exact ⟨vs, exec_paramSet_listed hs hw hid hvs, hl, hget⟩

/-! ### The pitch-bend -/

/-- A pitch-bend message bends the playing voices (43_scheduler.md R233). -/
theorem midiRule_bend {st d1 d2 : Byte} (hlo : 0xE0 ≤ st.toNat) (hhi : st.toNat < 0xF0) (h1 : d1.toNat < 0x80)
    (h2 : d2.toNat < 0x80) (port : BitVec 16) (e : Engine) :
    midiRule ratNum params st d1 d2 port e = .ok (bendNotes ratNum (bendSemis params d1 d2) e) := by
  simp only [midiRule, ifFinite_ratNum]
  rw [if_neg (by omega), if_neg (by omega), if_neg (by omega), if_pos (by omega)]

theorem bendSemis_eq (d1 d2 : Byte) : (bendSemis params d1 d2 : Num) =
    ((d2.toNat : Rat) * 128 + (d1.toNat : Rat) - 8192) / 8192 * params.bendRangeSemis := by
  unfold bendSemis
  push_cast
  rfl

/-- Settles O56: a loop over all playing voices. -/
theorem midiBendReachesPlayingVoices : Obligations.MidiBendReachesPlayingVoices := by
  unfold Obligations.MidiBendReachesPlayingVoices
  intro s st d1 d2 port hs hport hlo hhi h1 h2
  refine ⟨(bendNotes ratNum (bendSemis params d1 d2) s.engine).voices, ?_, List.length_map _, fun j v hv => ?_⟩
  · rw [exec_engine rfl]
    exact runEngine_ok hs (midi_wellFormed hport) (midiRule_bend hlo hhi h1 h2 port s.engine)
  · rw [← bendSemis_eq]
    have h := map_updPlaying_relates (S := fun _ => True) (sel := fun _ => true)
      (f := fun v => recalcPitch ratNum s.engine.srInv { v with bend := bendSemis params d1 d2 })
      (R := fun v w => Repitched s.engine.srInv { v with bend := bendSemis params d1 d2 } w) (by simp)
      (fun v => recalcPitch_repitched s.engine.srInv _) hv
    simp only [and_true] at h
    exact h

end Sys2Proof.Machine
end

section
/-! The modulation router (44_mod_router.md) and the inputs without effect (60_exceptions.md R276). -/

namespace Sys2Proof.Machine

/-! ### PARAM_MOD -/

theorem slotWrite_eq_none {b : Byte} (h : b.toNat ∉ [1, 2, 6, 7, 8]) (w : Word) (e : Engine) :
    slotWrite b w e = none := by
  unfold slotWrite paramIdOf
  split
  case h_2 hb | h_3 hb | h_7 hb | h_8 hb | h_9 hb => exact absurd (by simp [hb]) h
  all_goals rfl

/-- What a modulation x makes of a voice, by the parameter's number (44_mod_router.md R242). -/
def SlotWritten (n : Nat) (x srInv : Num) (v w : Voice) : Prop :=
  (n = 1 → Repitched srInv { v with spreadMod := x } w) ∧
  (n = 2 → Repitched srInv { v with detuneMod := x } w) ∧
  (n = 6 → w = { v with vcaMod := x }) ∧
  (n = 7 → w = { v with
    cutoffMod := x, flt := filterRecomputed (v.cutoffBase + x) (v.resBase + v.resMod) srInv v.flt }) ∧
  (n = 8 → w = { v with
    resMod := x, flt := filterRecomputed (v.cutoffBase + v.cutoffMod) (v.resBase + x) srInv v.flt })

/-- The slot write of a listed id, where 7 and 8 find a stable cutoff. -/
theorem slotWrite_of_stable {b : Byte} (hb : b.toNat ∈ [1, 2, 6, 7, 8]) (x : Word) (e : Engine) :
    ∃ f, slotWrite b x e = some f ∧ ∀ v : Voice,
      (b.toNat = 7 → CutoffStable (v.cutoffBase + toNum ratNum x) e.srInv) →
      (b.toNat = 8 → CutoffStable (v.cutoffBase + v.cutoffMod) e.srInv) →
      ∃ w, f v = .ok w ∧ SlotWritten b.toNat (toNum ratNum x) e.srInv v w := by
  simp only [List.mem_cons, List.not_mem_nil, or_false] at hb
  rcases hb with hb | hb | hb | hb | hb
  · obtain rfl : b = 1#8 := BitVec.eq_of_toNat_eq hb
    exact ⟨_, rfl, fun v _ _ => ⟨_, rfl, by simpa [SlotWritten] using recalcPitch_repitched e.srInv _⟩⟩
  · obtain rfl : b = 2#8 := BitVec.eq_of_toNat_eq hb
    exact ⟨_, rfl, fun v _ _ => ⟨_, rfl, by simpa [SlotWritten] using recalcPitch_repitched e.srInv _⟩⟩
  · obtain rfl : b = 6#8 := BitVec.eq_of_toNat_eq hb
    exact ⟨_, rfl, fun v _ _ => ⟨_, rfl, by simp [SlotWritten]⟩⟩
  · obtain rfl : b = 7#8 := BitVec.eq_of_toNat_eq hb
    exact ⟨_, rfl, fun v h _ => ⟨_, recalcFilter_of_stable (v := { v with cutoffMod := toNum ratNum x })
      (h rfl), by simp [SlotWritten]⟩⟩
  · obtain rfl : b = 8#8 := BitVec.eq_of_toNat_eq hb
    exact ⟨_, rfl, fun v _ h => ⟨_, recalcFilter_of_stable (v := { v with resMod := toNum ratNum x })
      (h rfl), by simp [SlotWritten]⟩⟩

/-- The slot write of the ids 7 and 8 on an unstable cutoff. -/
theorem slotWrite_of_unstable {b : Byte} {x : Word} {e : Engine} {v : Voice}
    (h : b.toNat = 7 ∧ ¬ CutoffStable (v.cutoffBase + toNum ratNum x) e.srInv ∨
      b.toNat = 8 ∧ ¬ CutoffStable (v.cutoffBase + v.cutoffMod) e.srInv) :
    ∃ f, slotWrite b x e = some f ∧ f v = .error .unstableCutoff := by
  rcases h with ⟨hb, hu⟩ | ⟨hb, hu⟩
  · obtain rfl : b = 7#8 := BitVec.eq_of_toNat_eq hb
    exact ⟨_, rfl, recalcFilter_of_unstable (v := { v with cutoffMod := toNum ratNum x }) hu⟩
  · obtain rfl : b = 8#8 := BitVec.eq_of_toNat_eq hb
    exact ⟨_, rfl, recalcFilter_of_unstable (v := { v with resMod := toNum ratNum x }) hu⟩

theorem exec_paramMod_no_slot {s : State} {b : Byte} {a : Addr} {x : Word} (hs : s.engine.fault = none)
    (hw : (Instr.paramMod b a x).WellFormed) (hb : b.toNat ∉ [1, 2, 6, 7, 8]) :
    exec (.paramMod b a x) s = .next s :=
  exec_of_rule_id rfl hs hw (paramModRule_of_none (slotWrite_eq_none hb x s.engine) a)

/-- Settles O57: a loop of slot writes over the reached playing voices. -/
theorem paramModWritesTheSlot : Obligations.ParamModWritesTheSlot := by
  unfold Obligations.ParamModWritesTheSlot
  intro s b a x hs ha hx n
  have hwf := paramMod_wellFormed ha hx b
  have reached := addressed_iff true (addrIdent a)
  refine ⟨exec_paramMod_no_slot hs hwf, fun hb h7 h8 => ?slot, fun v hv hp hr hu => ?unstable⟩
  case slot =>
    obtain ⟨f, hf, hwrite⟩ := slotWrite_of_stable hb x s.engine
    obtain ⟨vs, hvs, hl, hget⟩ := forVoices_of_result (f := onPlaying (fun v => addressed true (addrIdent a) v.ident) f)
      fun v hv => onPlaying_of_result (R := SlotWritten n (toNum ratNum x) s.engine.srInv) (reached v)
        fun hp hr => hwrite v (fun h => h7 h v hv hp hr) (fun h => h8 h v hv hp hr)
    refine ⟨vs, ?_, hl, fun j v hv => ?_⟩
    · rw [exec_engine rfl]
      exact runEngine_ok hs hwf (paramModRule_of_ok hf hvs)
    · obtain ⟨w, hw, hyes, hno⟩ := hget j v hv
      exact ⟨w, hw, hno, hyes⟩
  case unstable =>
    obtain ⟨f, hf, herr⟩ := slotWrite_of_unstable hu
    have hbody : onPlaying (fun v => addressed true (addrIdent a) v.ident) f v = .error .unstableCutoff := by
      rw [onPlaying_of (by rw [Bool.and_eq_true, isPlaying_iff, reached]; exact ⟨hp, hr⟩), herr]
    have hloop := forVoices_of_error hv hbody fun u code hc => (slotWrite_error hf (onPlaying_error hc).2.2).1
    rw [exec_engine rfl]
    exact runEngine_error hs hwf (paramModRule_of_error hf hloop)

/-! ### NOTE_EXPR -/

theorem exprIdOf_unlisted {b : Byte} (h : 2 ≤ b.toNat) : exprIdOf b = none := by
  unfold exprIdOf
  split
  case h_3 => rfl
  all_goals omega

theorem noteExprRule_listed {b : Byte} {id : ExprId} (h : exprIdOf b = some id) (a : Addr) (x : Word)
    (e : Engine) : noteExprRule ratNum b a x e = .ok { e with
      voices := e.voices.map (updPlaying (fun v => addressed false (addrIdent a) v.ident)
        (exprVoice ratNum e.srInv id (toNum ratNum x))) } := by
  simp only [noteExprRule, h, ifFinite_ratNum]

theorem exec_noteExpr_unlisted {s : State} {b : Byte} {a : Addr} {x : Word} (hs : s.engine.fault = none)
    (hw : (Instr.noteExpr b a x).WellFormed) (hb : 2 ≤ b.toNat) : exec (.noteExpr b a x) s = .next s := by
  refine exec_of_rule_id rfl hs hw ?_
  simp only [engineRule, noteExprRule, exprIdOf_unlisted hb]

/-- What an expression x makes of a voice, by its number (44_mod_router.md R243). -/
def ExprWritten (n : Nat) (x srInv : Num) (v w : Voice) : Prop :=
  (n = 0 → w = { v with volExpr := x }) ∧ (n = 1 → Repitched srInv { v with tuningExpr := x } w)

theorem exprVoice_written {b : Byte} (hb : b.toNat < 2) : ∃ id, exprIdOf b = some id ∧
    ∀ (x sr : Num) (v : Voice), ExprWritten b.toNat x sr v (exprVoice ratNum sr id x v) := by
  rcases Nat.lt_succ_iff_lt_or_eq.mp hb with h0 | h1
  · obtain rfl : b = 0#8 := BitVec.eq_of_toNat_eq (Nat.lt_one_iff.mp h0)
    exact ⟨_, rfl, fun x sr v => ⟨fun _ => rfl, fun h => by cases h⟩⟩
  · obtain rfl : b = 1#8 := BitVec.eq_of_toNat_eq h1
    exact ⟨_, rfl, fun x sr v => ⟨fun h => (by cases h), fun _ => recalcPitch_repitched sr _⟩⟩

/-- Settles O58: a loop over the reached playing voices. -/
theorem noteExprWritesTheSlot : Obligations.NoteExprWritesTheSlot := by
  unfold Obligations.NoteExprWritesTheSlot
  intro s b a x hs ha hx
  have hwf := noteExpr_wellFormed ha hx b
  refine ⟨exec_noteExpr_unlisted hs hwf, fun hb => ?_⟩
  obtain ⟨id, hid, hwritten⟩ := exprVoice_written hb
  refine ⟨_, ?_, List.length_map (updPlaying (fun v => addressed false (addrIdent a) v.ident)
    (exprVoice ratNum s.engine.srInv id (toNum ratNum x))), fun j v hv => ?_⟩
  · rw [exec_engine rfl]
    exact runEngine_ok hs hwf (noteExprRule_listed hid a x s.engine)
  · exact map_updPlaying_relates (R := ExprWritten b.toNat (toNum ratNum x) s.engine.srInv)
      (fun u => addressed_iff false (addrIdent a) u) (hwritten _ _) hv

/-! ### Inputs without effect -/

/-- A malformed or unsupported MIDI message (43_scheduler.md R234). -/
theorem midiRule_ignored {st d1 d2 : Byte} (h : st.toNat < 0x80 ∨ 0x80 ≤ d1.toNat ∨ 0x80 ≤ d2.toNat ∨
    (0xA0 ≤ st.toNat ∧ st.toNat < 0xE0) ∨ 0xF0 ≤ st.toNat) (port : BitVec 16) (e : Engine) :
    midiRule ratNum params st d1 d2 port e = .ok e := by
  by_cases hbad : st.toNat < 0x80 ∨ 0x80 ≤ d1.toNat ∨ 0x80 ≤ d2.toNat
  · simp only [midiRule, if_pos hbad]
  · simp only [midiRule, if_neg hbad]
    rw [if_neg (by omega), if_neg (by omega), if_neg (by omega)]

/-- A release that reaches no playing voice. -/
theorem releaseNotes_of_unreached {a : Identity} {e : Engine}
    (h : ∀ v ∈ e.voices, Playing v → ¬ Reaches true a v) : releaseNotes a e = e := by
  have hid := map_updPlaying_id (sel := fun v => addressed true a v.ident) (f := voiceRelease)
    fun v hv ⟨hp, hsel⟩ => h v hv hp ((addressed_iff true a v).mp hsel)
  simp only [releaseNotes, hid]

theorem paramModRule_of_unreached {b : Byte} {a : Addr} {x : Word} {e : Engine}
    (h : ∀ v ∈ e.voices, Playing v → ¬ Reaches true (identOf a) v) :
    paramModRule ratNum params b a x e = .ok e := by
  cases hf : slotWrite b x e with
  | none => exact paramModRule_of_none hf a
  | some f =>
    exact paramModRule_of_ok hf
      (forVoices_onPlaying_id fun v hv ⟨hp, hsel⟩ => h v hv hp ((addressed_iff true (addrIdent a) v).mp hsel))

theorem noteExprRule_of_unreached {b : Byte} {a : Addr} {x : Word} {e : Engine}
    (h : ∀ v ∈ e.voices, Playing v → ¬ Reaches false (identOf a) v) :
    noteExprRule ratNum b a x e = .ok e := by
  cases hid : exprIdOf b with
  | none => simp only [noteExprRule, hid]
  | some id =>
    rw [noteExprRule_listed hid, map_updPlaying_id fun v hv ⟨hp, hsel⟩ =>
      h v hv hp ((addressed_iff false (addrIdent a) v).mp hsel)]

/-- A bend while no voice plays. -/
theorem bendNotes_of_silent {semis : Num} {e : Engine} (h : ∀ v ∈ e.voices, ¬ Playing v) :
    bendNotes ratNum semis e = e := by
  have hid := map_updPlaying_id (sel := fun _ => true)
    (f := fun v => recalcPitch ratNum e.srInv { v with bend := semis }) fun v hv ⟨hp, _⟩ => h v hv hp
  simp only [bendNotes, hid]

/-- Settles O60: each listed input's rule answers the engine it is given. -/
theorem ignoredInputsChangeNothing : Obligations.IgnoredInputsChangeNothing := by
  unfold Obligations.IgnoredInputsChangeNothing
  intro i s hs hw h
  rcases h with ⟨b, w, rfl | rfl, hb⟩ | ⟨b, a, w, rfl, hb⟩ | ⟨b, a, w, rfl, hb⟩ | ⟨st, d1, d2, port, rfl, hm⟩ |
    ⟨a, ha, hr⟩ | ⟨b, a, w, rfl, hr⟩ | ⟨b, a, w, rfl, hr⟩ | ⟨st, d1, d2, port, rfl, hlo, hhi, hp⟩
  · exact exec_paramSet_unlisted hs hw hb
  · exact exec_paramWrite_unlisted hs hw hb
  · exact exec_paramMod_no_slot hs hw hb
  · exact exec_noteExpr_unlisted hs hw hb
  · exact exec_of_rule_id rfl hs hw (midiRule_ignored hm port s.engine)
  · obtain ⟨hport, hrule⟩ := noteReleased_rule ha
    exact exec_of_rule_id hport hs hw ((hrule _).trans (congrArg _ (releaseNotes_of_unreached hr)))
  · exact exec_of_rule_id rfl hs hw (paramModRule_of_unreached hr)
  · exact exec_of_rule_id rfl hs hw (noteExprRule_of_unreached hr)
  · refine exec_of_rule_id rfl hs hw ?_
    by_cases hd : 0x80 ≤ d1.toNat ∨ 0x80 ≤ d2.toNat
    · exact midiRule_ignored (by omega) port s.engine
    · exact (midiRule_bend hlo hhi (by omega) (by omega) port s.engine).trans
        (congrArg _ (bendNotes_of_silent hp))

end Sys2Proof.Machine
end
